-- ==== Sys2Proof/Word.lean ====
section
/-! DEFINITION. The word types of the block: what the spec treats as a pattern of bits of a fixed width. -/

namespace Sys2Proof

/-- One byte of BUF (R23). -/
abbrev Byte := BitVec 8

/-- One coefficient, an int16: every 16-bit pattern is a legal content (R21). -/
abbrev Coeff := BitVec 16

/-- A 32-bit word: a scalar register (R22), a command word (R80), the data of a bus access (R51). -/
abbrev Word := BitVec 32

/-- The 256 coefficients of one polynomial register, coefficient `i` at index `i` of the list (R21). -/
structure Poly256 where
  coeffs : List Coeff
  size : coeffs.length = 256
deriving DecidableEq, Repr

/-- The zero polynomial. -/
def Poly256.zero : Poly256 := ⟨List.replicate 256 0, List.length_replicate⟩

/-- A 4-bit field that names a polynomial register P0 to P15 (R82). -/
abbrev PReg := BitVec 4

/-- A 4-bit field that names a scalar register; its top bit must be 0 (R81, R82). -/
abbrev SReg := BitVec 4

/-- The 12-bit immediate, a byte offset into BUF (R83). -/
abbrev BufOffset := BitVec 12

/-- A byte address of the 16 KiB host bus window (R50, R51). -/
abbrev BusAddr := BitVec 14

end Sys2Proof
end

