-- ==== Sys2Proof/Syntax.lean ====
section
/-! DEFINITION. The commands of the K2SO command set, one constructor per row of the opcode map (R84). The arguments of a
constructor are the fields its format uses (R81), destination first, in the order of the assembler syntax (R88). -/

namespace Sys2Proof

/-- A command. `d` is the field rd, `a` is ra, `b` is rb, `off` is imm. A scalar register is kept as its 4-bit field, so
that the check of R81 (its top bit must be zero) is a check of `Instr.wellFormed`. -/
inductive Instr where
  -- format Z
  /-- NOP, op 0x00 (R118). -/
  | nop
  -- formats S2 and S3: field operations
  /-- MONTRED Sd, Sa, op 0x01 (R119). -/
  | montred (d a : SReg)
  /-- MONTMUL Sd, Sa, Sb, op 0x02 (R120). -/
  | montmul (d a b : SReg)
  /-- BARRETT Sd, Sa, op 0x03 (R121). -/
  | barrett (d a : SReg)
  /-- CSUBQ Sd, Sa, op 0x04 (R122). -/
  | csubq (d a : SReg)
  -- formats P2 and P3: polynomial arithmetic and transforms
  /-- PADD Pd, Pa, Pb, op 0x10 (R161). -/
  | padd (d a b : PReg)
  /-- PSUB Pd, Pa, Pb, op 0x11 (R162). -/
  | psub (d a b : PReg)
  /-- PREDUCE Pd, Pa, op 0x12 (R163). -/
  | preduce (d a : PReg)
  /-- PCSUBQ Pd, Pa, op 0x13 (R164). -/
  | pcsubq (d a : PReg)
  /-- PTOMONT Pd, Pa, op 0x14 (R166). -/
  | ptomont (d a : PReg)
  /-- PNTT Pd, Pa, op 0x15 (R142). -/
  | pntt (d a : PReg)
  /-- PINVNTT Pd, Pa, op 0x16 (R143). -/
  | pinvntt (d a : PReg)
  /-- PBASEMUL Pd, Pa, Pb, op 0x17 (R144). -/
  | pbasemul (d a b : PReg)
  -- formats P2 and P3: polynomial vectors, named by their base registers
  /-- VADD Pd, Pa, Pb, op 0x20 (R182). -/
  | vadd (d a b : PReg)
  /-- VSUB Pd, Pa, Pb, op 0x21 (R183). -/
  | vsub (d a b : PReg)
  /-- VREDUCE Pd, Pa, op 0x22 (R184). -/
  | vreduce (d a : PReg)
  /-- VCSUBQ Pd, Pa, op 0x23 (R185). -/
  | vcsubq (d a : PReg)
  /-- VNTT Pd, Pa, op 0x25 (R186). -/
  | vntt (d a : PReg)
  /-- VINVNTT Pd, Pa, op 0x26 (R187). -/
  | vinvntt (d a : PReg)
  /-- VACC Pd, Pa, Pb, op 0x27 (R188); Pd is a single register. -/
  | vacc (d a b : PReg)
  -- formats ST and LD: polynomial codec
  /-- PTOBYTES off, Pa, op 0x30 (R208). -/
  | ptobytes (off : BufOffset) (a : PReg)
  /-- PFROMBYTES Pd, off, op 0x31 (R209). -/
  | pfrombytes (d : PReg) (off : BufOffset)
  /-- PCOMP4 off, Pa, op 0x32 (R210). -/
  | pcomp4 (off : BufOffset) (a : PReg)
  /-- PCOMP5 off, Pa, op 0x33 (R211). -/
  | pcomp5 (off : BufOffset) (a : PReg)
  /-- PDECOMP4 Pd, off, op 0x34 (R212). -/
  | pdecomp4 (d : PReg) (off : BufOffset)
  /-- PDECOMP5 Pd, off, op 0x35 (R213). -/
  | pdecomp5 (d : PReg) (off : BufOffset)
  /-- PFROMMSG Pd, off, op 0x36 (R214). -/
  | pfrommsg (d : PReg) (off : BufOffset)
  /-- PTOMSG off, Pa, op 0x37 (R215). -/
  | ptomsg (off : BufOffset) (a : PReg)
  -- formats ST and LD: polynomial vector codec
  /-- VTOBYTES off, Pa, op 0x40 (R216). -/
  | vtobytes (off : BufOffset) (a : PReg)
  /-- VFROMBYTES Pd, off, op 0x41 (R217). -/
  | vfrombytes (d : PReg) (off : BufOffset)
  /-- VCOMP10 off, Pa, op 0x42 (R218). -/
  | vcomp10 (off : BufOffset) (a : PReg)
  /-- VCOMP11 off, Pa, op 0x43 (R219). -/
  | vcomp11 (off : BufOffset) (a : PReg)
  /-- VDECOMP10 Pd, off, op 0x44 (R220). -/
  | vdecomp10 (d : PReg) (off : BufOffset)
  /-- VDECOMP11 Pd, off, op 0x45 (R221). -/
  | vdecomp11 (d : PReg) (off : BufOffset)
  -- format RJ: rejection sampler
  /-- REJ Pd, off, Sa, op 0x50 (R243). -/
  | rej (d : PReg) (off : BufOffset) (a : SReg)
deriving DecidableEq, Repr

end Sys2Proof
end

