-- ==== Sys2Proof/WellFormed.lean ====
section
/-! DEFINITION. Which terms of `Instr` are commands: a scalar register field must be 0 to 7, "that is, its top bit must be
zero" (R81). Every other field of every format may hold any value. -/

namespace Sys2Proof

/-- A field that names one of the scalar registers S0 to S7 (R81, R82). -/
def SReg.ok (r : SReg) : Bool := r.toNat < 8

/-- The checks of R81 on the fields a command uses. -/
def Instr.wellFormed : Instr → Bool
  | .montred d a => SReg.ok d && SReg.ok a
  | .montmul d a b => SReg.ok d && SReg.ok a && SReg.ok b
  | .barrett d a => SReg.ok d && SReg.ok a
  | .csubq d a => SReg.ok d && SReg.ok a
  | .rej _ _ a => SReg.ok a
  | .nop => true
  | .padd _ _ _ => true
  | .psub _ _ _ => true
  | .preduce _ _ => true
  | .pcsubq _ _ => true
  | .ptomont _ _ => true
  | .pntt _ _ => true
  | .pinvntt _ _ => true
  | .pbasemul _ _ _ => true
  | .vadd _ _ _ => true
  | .vsub _ _ _ => true
  | .vreduce _ _ => true
  | .vcsubq _ _ => true
  | .vntt _ _ => true
  | .vinvntt _ _ => true
  | .vacc _ _ _ => true
  | .ptobytes _ _ => true
  | .pfrombytes _ _ => true
  | .pcomp4 _ _ => true
  | .pcomp5 _ _ => true
  | .pdecomp4 _ _ => true
  | .pdecomp5 _ _ => true
  | .pfrommsg _ _ => true
  | .ptomsg _ _ => true
  | .vtobytes _ _ => true
  | .vfrombytes _ _ => true
  | .vcomp10 _ _ => true
  | .vcomp11 _ _ => true
  | .vdecomp10 _ _ => true
  | .vdecomp11 _ _ => true

end Sys2Proof
end

