-- ==== Sys2Proof/Decode.lean ====
section
/-! DEFINITION. Command words: their fields (R80), the eight formats (R81), the opcode map (R84), the decoder, total on
every 32-bit word and rejecting by name (R85), and the encoder. -/

namespace Sys2Proof

/-- The five fields of a command word (R80). -/
structure Fields where
  op : BitVec 8
  rd : BitVec 4
  ra : BitVec 4
  rb : BitVec 4
  imm : BitVec 12
deriving DecidableEq, Repr

/-- R80: op [31:24], rd [23:20], ra [19:16], rb [15:12], imm [11:0]. -/
def Fields.ofWord (w : Word) : Fields where
  op := w.extractLsb' 24 8
  rd := w.extractLsb' 20 4
  ra := w.extractLsb' 16 4
  rb := w.extractLsb' 12 4
  imm := w.extractLsb' 0 12

/-- The word with the given fields (R80, R88). -/
def Fields.toWord (f : Fields) : Word :=
  f.op ++ f.rd ++ f.ra ++ f.rb ++ f.imm

/-- Why a word is no command (R85, R261 code 1). -/
inductive DecodeError where
  /-- One of the 221 opcode values that no row lists. -/
  | unassignedOpcode
  /-- A listed opcode with a non-zero bit in a field its format does not use. -/
  | unusedFieldNotZero
  /-- A scalar register field of 8 to 15. -/
  | scalarFieldOutOfRange
deriving DecidableEq, Repr

/-- The eight formats of R81. -/
inductive Format where
  | Z | S2 | S3 | P2 | P3 | ST | LD | RJ
deriving DecidableEq, Repr

/-- The mask column of R81: the bits that are fixed for the format. -/
def Format.mask : Format → Word
  | .Z => 0xFFFFFFFF
  | .S2 => 0xFF88FFFF
  | .S3 => 0xFF888FFF
  | .P2 => 0xFF00FFFF
  | .P3 => 0xFF000FFF
  | .ST => 0xFFF0F000
  | .LD => 0xFF0FF000
  | .RJ => 0xFF08F000

/-- Accepts `i` when the unused fields are zero and the scalar fields are 0 to 7 (R81, R85). -/
def acceptIf (unusedZero scalarsOk : Bool) (i : Instr) : Except DecodeError Instr :=
  if unusedZero then
    if scalarsOk then .ok i else .error .scalarFieldOutOfRange
  else .error .unusedFieldNotZero

/-- Format Z: no field is used. -/
def formatZ (f : Fields) (i : Instr) : Except DecodeError Instr :=
  acceptIf (f.rd == 0 && f.ra == 0 && f.rb == 0 && f.imm == 0) true i

/-- Format S2: scalar rd and ra. -/
def formatS2 (f : Fields) (mk : SReg → SReg → Instr) : Except DecodeError Instr :=
  acceptIf (f.rb == 0 && f.imm == 0) (SReg.ok f.rd && SReg.ok f.ra) (mk f.rd f.ra)

/-- Format S3: scalar rd, ra and rb. -/
def formatS3 (f : Fields) (mk : SReg → SReg → SReg → Instr) : Except DecodeError Instr :=
  acceptIf (f.imm == 0) (SReg.ok f.rd && SReg.ok f.ra && SReg.ok f.rb) (mk f.rd f.ra f.rb)

/-- Format P2: polynomial rd and ra. -/
def formatP2 (f : Fields) (mk : PReg → PReg → Instr) : Except DecodeError Instr :=
  acceptIf (f.rb == 0 && f.imm == 0) true (mk f.rd f.ra)

/-- Format P3: polynomial rd, ra and rb. -/
def formatP3 (f : Fields) (mk : PReg → PReg → PReg → Instr) : Except DecodeError Instr :=
  acceptIf (f.imm == 0) true (mk f.rd f.ra f.rb)

/-- Format ST: polynomial ra and an offset. -/
def formatST (f : Fields) (mk : BufOffset → PReg → Instr) : Except DecodeError Instr :=
  acceptIf (f.rd == 0 && f.rb == 0) true (mk f.imm f.ra)

/-- Format LD: polynomial rd and an offset. -/
def formatLD (f : Fields) (mk : PReg → BufOffset → Instr) : Except DecodeError Instr :=
  acceptIf (f.ra == 0 && f.rb == 0) true (mk f.rd f.imm)

/-- Format RJ: polynomial rd, scalar ra and an offset. -/
def formatRJ (f : Fields) (mk : PReg → BufOffset → SReg → Instr) : Except DecodeError Instr :=
  acceptIf (f.rb == 0) (SReg.ok f.ra) (mk f.rd f.imm f.ra)

/-- The opcode map of R84. Opcode 0x24 is unassigned on purpose. -/
def decodeFields (f : Fields) : Except DecodeError Instr :=
  if f.op = 0x00 then formatZ f .nop
  else if f.op = 0x01 then formatS2 f .montred
  else if f.op = 0x02 then formatS3 f .montmul
  else if f.op = 0x03 then formatS2 f .barrett
  else if f.op = 0x04 then formatS2 f .csubq
  else if f.op = 0x10 then formatP3 f .padd
  else if f.op = 0x11 then formatP3 f .psub
  else if f.op = 0x12 then formatP2 f .preduce
  else if f.op = 0x13 then formatP2 f .pcsubq
  else if f.op = 0x14 then formatP2 f .ptomont
  else if f.op = 0x15 then formatP2 f .pntt
  else if f.op = 0x16 then formatP2 f .pinvntt
  else if f.op = 0x17 then formatP3 f .pbasemul
  else if f.op = 0x20 then formatP3 f .vadd
  else if f.op = 0x21 then formatP3 f .vsub
  else if f.op = 0x22 then formatP2 f .vreduce
  else if f.op = 0x23 then formatP2 f .vcsubq
  else if f.op = 0x25 then formatP2 f .vntt
  else if f.op = 0x26 then formatP2 f .vinvntt
  else if f.op = 0x27 then formatP3 f .vacc
  else if f.op = 0x30 then formatST f .ptobytes
  else if f.op = 0x31 then formatLD f .pfrombytes
  else if f.op = 0x32 then formatST f .pcomp4
  else if f.op = 0x33 then formatST f .pcomp5
  else if f.op = 0x34 then formatLD f .pdecomp4
  else if f.op = 0x35 then formatLD f .pdecomp5
  else if f.op = 0x36 then formatLD f .pfrommsg
  else if f.op = 0x37 then formatST f .ptomsg
  else if f.op = 0x40 then formatST f .vtobytes
  else if f.op = 0x41 then formatLD f .vfrombytes
  else if f.op = 0x42 then formatST f .vcomp10
  else if f.op = 0x43 then formatST f .vcomp11
  else if f.op = 0x44 then formatLD f .vdecomp10
  else if f.op = 0x45 then formatLD f .vdecomp11
  else if f.op = 0x50 then formatRJ f .rej
  else .error .unassignedOpcode

/-- The command a word stands for, or the name of what is wrong with it (R84, R85). No state changes decoding (R87). -/
def decode (w : Word) : Except DecodeError Instr := decodeFields (Fields.ofWord w)

/-- The op column of R84. -/
def Instr.opcode : Instr → BitVec 8
  | .nop => 0x00
  | .montred _ _ => 0x01
  | .montmul _ _ _ => 0x02
  | .barrett _ _ => 0x03
  | .csubq _ _ => 0x04
  | .padd _ _ _ => 0x10
  | .psub _ _ _ => 0x11
  | .preduce _ _ => 0x12
  | .pcsubq _ _ => 0x13
  | .ptomont _ _ => 0x14
  | .pntt _ _ => 0x15
  | .pinvntt _ _ => 0x16
  | .pbasemul _ _ _ => 0x17
  | .vadd _ _ _ => 0x20
  | .vsub _ _ _ => 0x21
  | .vreduce _ _ => 0x22
  | .vcsubq _ _ => 0x23
  | .vntt _ _ => 0x25
  | .vinvntt _ _ => 0x26
  | .vacc _ _ _ => 0x27
  | .ptobytes _ _ => 0x30
  | .pfrombytes _ _ => 0x31
  | .pcomp4 _ _ => 0x32
  | .pcomp5 _ _ => 0x33
  | .pdecomp4 _ _ => 0x34
  | .pdecomp5 _ _ => 0x35
  | .pfrommsg _ _ => 0x36
  | .ptomsg _ _ => 0x37
  | .vtobytes _ _ => 0x40
  | .vfrombytes _ _ => 0x41
  | .vcomp10 _ _ => 0x42
  | .vcomp11 _ _ => 0x43
  | .vdecomp10 _ _ => 0x44
  | .vdecomp11 _ _ => 0x45
  | .rej _ _ _ => 0x50

/-- The format column of R84. -/
def Instr.format : Instr → Format
  | .nop => .Z
  | .montred _ _ => .S2
  | .montmul _ _ _ => .S3
  | .barrett _ _ => .S2
  | .csubq _ _ => .S2
  | .padd _ _ _ => .P3
  | .psub _ _ _ => .P3
  | .preduce _ _ => .P2
  | .pcsubq _ _ => .P2
  | .ptomont _ _ => .P2
  | .pntt _ _ => .P2
  | .pinvntt _ _ => .P2
  | .pbasemul _ _ _ => .P3
  | .vadd _ _ _ => .P3
  | .vsub _ _ _ => .P3
  | .vreduce _ _ => .P2
  | .vcsubq _ _ => .P2
  | .vntt _ _ => .P2
  | .vinvntt _ _ => .P2
  | .vacc _ _ _ => .P3
  | .ptobytes _ _ => .ST
  | .pfrombytes _ _ => .LD
  | .pcomp4 _ _ => .ST
  | .pcomp5 _ _ => .ST
  | .pdecomp4 _ _ => .LD
  | .pdecomp5 _ _ => .LD
  | .pfrommsg _ _ => .LD
  | .ptomsg _ _ => .ST
  | .vtobytes _ _ => .ST
  | .vfrombytes _ _ => .LD
  | .vcomp10 _ _ => .ST
  | .vcomp11 _ _ => .ST
  | .vdecomp10 _ _ => .LD
  | .vdecomp11 _ _ => .LD
  | .rej _ _ _ => .RJ

/-- The fields of a command's word, the unused ones 0 (R81, R88). -/
def Instr.fields (i : Instr) : Fields :=
  match i with
  | .nop => ⟨i.opcode, 0, 0, 0, 0⟩
  | .montred d a => ⟨i.opcode, d, a, 0, 0⟩
  | .montmul d a b => ⟨i.opcode, d, a, b, 0⟩
  | .barrett d a => ⟨i.opcode, d, a, 0, 0⟩
  | .csubq d a => ⟨i.opcode, d, a, 0, 0⟩
  | .padd d a b => ⟨i.opcode, d, a, b, 0⟩
  | .psub d a b => ⟨i.opcode, d, a, b, 0⟩
  | .preduce d a => ⟨i.opcode, d, a, 0, 0⟩
  | .pcsubq d a => ⟨i.opcode, d, a, 0, 0⟩
  | .ptomont d a => ⟨i.opcode, d, a, 0, 0⟩
  | .pntt d a => ⟨i.opcode, d, a, 0, 0⟩
  | .pinvntt d a => ⟨i.opcode, d, a, 0, 0⟩
  | .pbasemul d a b => ⟨i.opcode, d, a, b, 0⟩
  | .vadd d a b => ⟨i.opcode, d, a, b, 0⟩
  | .vsub d a b => ⟨i.opcode, d, a, b, 0⟩
  | .vreduce d a => ⟨i.opcode, d, a, 0, 0⟩
  | .vcsubq d a => ⟨i.opcode, d, a, 0, 0⟩
  | .vntt d a => ⟨i.opcode, d, a, 0, 0⟩
  | .vinvntt d a => ⟨i.opcode, d, a, 0, 0⟩
  | .vacc d a b => ⟨i.opcode, d, a, b, 0⟩
  | .ptobytes off a => ⟨i.opcode, 0, a, 0, off⟩
  | .pfrombytes d off => ⟨i.opcode, d, 0, 0, off⟩
  | .pcomp4 off a => ⟨i.opcode, 0, a, 0, off⟩
  | .pcomp5 off a => ⟨i.opcode, 0, a, 0, off⟩
  | .pdecomp4 d off => ⟨i.opcode, d, 0, 0, off⟩
  | .pdecomp5 d off => ⟨i.opcode, d, 0, 0, off⟩
  | .pfrommsg d off => ⟨i.opcode, d, 0, 0, off⟩
  | .ptomsg off a => ⟨i.opcode, 0, a, 0, off⟩
  | .vtobytes off a => ⟨i.opcode, 0, a, 0, off⟩
  | .vfrombytes d off => ⟨i.opcode, d, 0, 0, off⟩
  | .vcomp10 off a => ⟨i.opcode, 0, a, 0, off⟩
  | .vcomp11 off a => ⟨i.opcode, 0, a, 0, off⟩
  | .vdecomp10 d off => ⟨i.opcode, d, 0, 0, off⟩
  | .vdecomp11 d off => ⟨i.opcode, d, 0, 0, off⟩
  | .rej d off a => ⟨i.opcode, d, a, 0, off⟩

/-- The word of a command (R88). -/
def encode (i : Instr) : Word := i.fields.toWord

/-- A row of the opcode map: the op column and the format column (R84). -/
structure OpcodeRow where
  op : BitVec 8
  format : Format
deriving DecidableEq, Repr

/-- The opcode map of R84 as rows. -/
def opcodeTable : List OpcodeRow :=
  .mk 0x00 .Z :: .mk 0x01 .S2 :: .mk 0x02 .S3 :: .mk 0x03 .S2 ::
  .mk 0x04 .S2 ::
  .mk 0x10 .P3 :: .mk 0x11 .P3 :: .mk 0x12 .P2 :: .mk 0x13 .P2 ::
  .mk 0x14 .P2 :: .mk 0x15 .P2 :: .mk 0x16 .P2 :: .mk 0x17 .P3 ::
  .mk 0x20 .P3 :: .mk 0x21 .P3 :: .mk 0x22 .P2 :: .mk 0x23 .P2 ::
  .mk 0x25 .P2 :: .mk 0x26 .P2 :: .mk 0x27 .P3 ::
  .mk 0x30 .ST :: .mk 0x31 .LD :: .mk 0x32 .ST :: .mk 0x33 .ST ::
  .mk 0x34 .LD :: .mk 0x35 .LD :: .mk 0x36 .LD :: .mk 0x37 .ST ::
  .mk 0x40 .ST :: .mk 0x41 .LD :: .mk 0x42 .ST :: .mk 0x43 .ST ::
  .mk 0x44 .LD :: .mk 0x45 .LD :: .mk 0x50 .RJ :: []

/-- The match column of R84: "the word with every register and offset field zero". -/
def matchWord (op : BitVec 8) : Word := op ++ (0 : BitVec 24)

/-- The command word with the bits of a row of the table: the first word holds bits 31 to 0, and every bit above `nbits`
is 0. -/
def tableWord (nbits w : Nat) : Word := BitVec.ofNat 32 (w % 2 ^ nbits)

/-- The command the decoder reads from the bits `w` of a row of the table. -/
def decodeTableWord (nbits w : Nat) : Option Instr :=
  match decode (tableWord nbits w) with
  | .ok i => some i
  | .error _ => none

end Sys2Proof
end

