-- ==== Sys2Proof/Config.lean ====
section
/-! DEFINITION. What is fixed for the block: the wired constants (R4, R29), the two zeta tables (R132, R133), what a
byte of BUF that nothing has written reads as, and the one value the spec leaves open after reset. -/

namespace Sys2Proof.Config

/-- The prime modulus (R4, R110). -/
abbrev q : Int := 3329

/-- The modulus as a natural number, for the codec's floor divisions (R201, R202) and the sampler (R242). -/
abbrev qNat : Nat := 3329

/-- QINV, the inverse of q modulo 2^16 (R111). -/
abbrev qInv : Int := 62209

/-- The Barrett constant v (R114). -/
abbrev barrettV : Int := 20159

/-- f = 2^32 mod q, the multiplier of PTOMONT (R165). -/
abbrev toMontF : Coeff := 1353

/-- The coefficient that encodes a message bit 1 (R4, R205). -/
abbrev messageOne : Nat := 1665

/-- How many bytes BUF holds (R23). -/
abbrev bufSize : Nat := 4096

/-- The zeta table (R132): `zetas[i] = (2^16 * 17^brv7(i)) mod q`, 128 entries, each in [0, q). -/
def zetas : List Coeff :=
  [2285, 2571, 2970, 1812, 1493, 1422, 287, 202] ++
  [3158, 622, 1577, 182, 962, 2127, 1855, 1468] ++
  [573, 2004, 264, 383, 2500, 1458, 1727, 3199] ++
  [2648, 1017, 732, 608, 1787, 411, 3124, 1758] ++
  [1223, 652, 2777, 1015, 2036, 1491, 3047, 1785] ++
  [516, 3321, 3009, 2663, 1711, 2167, 126, 1469] ++
  [2476, 3239, 3058, 830, 107, 1908, 3082, 2378] ++
  [2931, 961, 1821, 2604, 448, 2264, 677, 2054] ++
  [2226, 430, 555, 843, 2078, 871, 1550, 105] ++
  [422, 587, 177, 3094, 3038, 2869, 1574, 1653] ++
  [3083, 778, 1159, 3182, 2552, 1483, 2727, 1119] ++
  [1739, 644, 2457, 349, 418, 329, 3173, 3254] ++
  [817, 1097, 603, 610, 1322, 2044, 1864, 384] ++
  [2114, 3193, 1218, 1994, 2455, 220, 2142, 1670] ++
  [2144, 1799, 2051, 794, 1819, 2475, 2459, 478] ++
  [3221, 3021, 996, 991, 958, 1869, 1522, 1628]

/-- The inverse zeta table (R133); entry 127 is the final factor 1441. -/
def zetasInv : List Coeff :=
  [1701, 1807, 1460, 2371, 2338, 2333, 308, 108] ++
  [2851, 870, 854, 1510, 2535, 1278, 1530, 1185] ++
  [1659, 1187, 3109, 874, 1335, 2111, 136, 1215] ++
  [2945, 1465, 1285, 2007, 2719, 2726, 2232, 2512] ++
  [75, 156, 3000, 2911, 2980, 872, 2685, 1590] ++
  [2210, 602, 1846, 777, 147, 2170, 2551, 246] ++
  [1676, 1755, 460, 291, 235, 3152, 2742, 2907] ++
  [3224, 1779, 2458, 1251, 2486, 2774, 2899, 1103] ++
  [1275, 2652, 1065, 2881, 725, 1508, 2368, 398] ++
  [951, 247, 1421, 3222, 2499, 271, 90, 853] ++
  [1860, 3203, 1162, 1618, 666, 320, 8, 2813] ++
  [1544, 282, 1838, 1293, 2314, 552, 2677, 2106] ++
  [1571, 205, 2918, 1542, 2721, 2597, 2312, 681] ++
  [130, 1602, 1871, 829, 2946, 3065, 1325, 2756] ++
  [1861, 1474, 1202, 2367, 3147, 1752, 2707, 171] ++
  [3127, 3042, 1907, 1836, 1517, 359, 758, 1441]

/-- The last entry of the inverse table, the factor of the last loop of InvNTT (R133, R138). -/
def finalFactor : Coeff := zetasInv.getD 127 0

/-- What a byte of BUF that no entry of the memory lists reads as.
DESIGN CHOICE, unsafe (notes/assumptions/1.md): R34 leaves the contents of BUF after a hard reset to the parameter
INIT_BUF; the model's reset state takes zero bytes, and a hard reset event carries any other contents. -/
def unlistedByte : Byte := 0

/-- The value that the `n`-th refused bus read returns. R53: "a read returns an unspecified value". A free value:
nothing constrains it (notes/assumptions/3.md). -/
opaque refusedReadValue : Nat → Word

end Sys2Proof.Config
end

