-- ==== Sys2Proof/Machine/State.lean ====
section
/-! DEFINITION. The state of the block (R20), what the host can do to it and what it answers, and the state after reset. -/

namespace Sys2Proof.Machine

/-- BUF, the 4096 bytes the commands and the bus address (R23, R50): the pairs (offset, byte) whose byte is not what an
unlisted offset reads as, offsets strictly rising. -/
abbrev Memory := List Host.Cell

/-- The canonical form of BUF: offsets strictly rising and below 4096, and no entry that equals an unlisted byte. -/
abbrev Memory.wf (m : Memory) : Prop :=
  m.Pairwise (fun x y => x.1 < y.1) ∧ ∀ c ∈ m, c.1 < Config.bufSize ∧ c.2 ≠ Config.unlistedByte

/-- The widths of an access that the host can issue: 8, 16 or 32 bits, those that some region of R51 accepts. R53 refuses
"an access of another width" and does not say which a host can issue. DESIGN CHOICE, safe (notes/assumptions/15.md): an
access of any other width, for example 64 bits, is not a `HostEvent`. -/
inductive BusWidth where
  | byte | half | word
deriving DecidableEq, Repr

/-- One thing the host or the platform does to the block. -/
inductive HostEvent where
  /-- A bus read of the given width at an address of the window (`RD addr`, R88). -/
  | read (w : BusWidth) (addr : BusAddr)
  /-- A bus write (`WR addr, value`, R88); a write narrower than 32 bits carries its data in the low bits (DESIGN CHOICE,
  safe, notes/assumptions/11.md). A command is a 32-bit write to address 0 (R24). -/
  | write (w : BusWidth) (addr : BusAddr) (data : Word)
  /-- A hard reset (R290). The event carries what P and BUF hold after it, the parameters INIT_P and INIT_BUF of R34: byte
  `a` of BUF is entry `a` of `initBuf`, and an unlisted byte past its end (DEDUCED and DESIGN CHOICE, safe,
  notes/assumptions/6.md, 12.md). -/
  | hardReset (initP : Vector Poly256 16) (initBuf : List Byte)
deriving DecidableEq, Repr

/-- What the block answers to a bus access. -/
inductive BusResponse where
  /-- A write completed, also one that is dropped (R24, R25, R263). -/
  | writeDone
  /-- A read completed with this value, zero-extended to 32 bits (DESIGN CHOICE, safe, notes/assumptions/11.md). -/
  | readData (v : Word)
  /-- A write was refused with a bus error (R53, R271). -/
  | writeRefused
  /-- A read was refused with a bus error and returned this unspecified value (R53). -/
  | readRefused (v : Word)
deriving DecidableEq, Repr

/-- The state of one block (R20), and the model's own fields: what the host will do next, what the block has answered,
and how many free values have been used. -/
structure State where
  /-- P0 to P15 (R21). -/
  pRegs : Vector Poly256 16
  /-- S0 to S7 (R22). -/
  sRegs : Vector Word 8
  /-- BUF (R23). -/
  buf : Memory
  /-- STATUS.ERR: the block is halted (R25, R264). -/
  err : Bool
  /-- STATUS.CODE: the code of the first error since reset (R25). -/
  code : BitVec 4
  /-- PARAM.K, the polyvec length (R26). -/
  k : BitVec 3
  /-- CTR, the sampler's produced count (R27). -/
  ctr : BitVec 9
  /-- The model's own: the host's accesses still to come, in the order the host issues them (R57). DESIGN CHOICE, safe
  (notes/assumptions/4.md). -/
  pending : List HostEvent
  /-- The model's own: the block's answers, the latest first. DESIGN CHOICE, safe (notes/assumptions/5.md). -/
  responses : List BusResponse
  /-- The model's own: how many refused reads have returned a free value. DESIGN CHOICE, safe
  (notes/assumptions/3.md). -/
  freeCount : Nat
deriving DecidableEq, Repr

/-- Nothing stops this machine. R266: "A command either completes entirely or does nothing"; R263 makes an interface
error a next state with STATUS changed, and R271 makes a bus error an answer on the bus. So no fault exists, which is
neither safe nor unsafe: no step ends in one. -/
inductive Fault where
deriving DecidableEq, Repr

/-- Why a step can have no meaning. -/
inductive Refusal where
  /-- Raised only by an arm of `exec` whose instruction has no meaning yet; safe. No arm raises it in this model. -/
  | notModelled (mnemonic : String)
deriving DecidableEq, Repr

/-- The state right after a hard reset (R34, R290): S, STATUS, PARAM.K and CTR are 0, BUF lists nothing, no access is
pending. DESIGN CHOICE, unsafe (notes/assumptions/1.md, 2.md): R34 leaves P and BUF to the parameters INIT_P and
INIT_BUF; this state takes zeros for both, and `HostEvent.hardReset` takes any. -/
def State.reset : State where
  pRegs := Vector.replicate 16 Poly256.zero
  sRegs := Vector.replicate 8 0
  buf := []
  err := false
  code := 0
  k := 0
  ctr := 0
  pending := []
  responses := []
  freeCount := 0

end Sys2Proof.Machine
end

