-- ==== Sys2Proof/Machine/Flags.lean ====
section
/-! DEFINITION. The status bits. The block has no carry, overflow, zero or sign flag (R31); its only status bit is the
sticky STATUS.ERR, with the code of the first error beside it (R25, R261). -/

namespace Sys2Proof.Machine

/-- The complete list of errors (R261). -/
inductive ErrorCode where
  /-- 1, illegal command: the word matches no row of the opcode map. -/
  | illegalCommand
  /-- 2, bad K: a V-command while PARAM.K is not 2, 3 or 4. -/
  | badK
  /-- 3, register range: a vector whose base b has b + K > 16. -/
  | registerRange
  /-- 4, buffer range: off + L > 4096. -/
  | bufferRange
deriving DecidableEq, Repr

/-- The value of STATUS.CODE (R261). -/
def ErrorCode.code : ErrorCode → BitVec 4
  | .illegalCommand => 1
  | .badK => 2
  | .registerRange => 3
  | .bufferRange => 4

/-- What a read of STATUS returns: ERR in bit 0, CODE in bits 7:4, the reserved bits 0 (R25). -/
def statusWord (s : State) : Word :=
  (0 : BitVec 24) ++ s.code ++ (0 : BitVec 3) ++ BitVec.ofBool s.err

/-- What a read of PARAM returns: K in bits 2:0, the reserved bits 0 (R26). -/
def paramWord (s : State) : Word := s.k.setWidth 32

/-- What a read of CTR returns: CTR in bits 8:0, the reserved bits 0 (R27). -/
def ctrWord (s : State) : Word := s.ctr.setWidth 32

end Sys2Proof.Machine
end

