-- ==== Sys2Proof/Machine/Operands.lean ====
section
/-! DEFINITION. The width helpers of R8 and every operand form (R82, R83, R180): scalar and polynomial registers, vectors of
K consecutive polynomial registers, offsets into BUF. -/

namespace Sys2Proof.Machine

/-! ### Widths (R8) -/

/-- wrap16: the low 16 bits of an integer, an int16. -/
def wrap16 (v : Int) : Coeff := BitVec.ofInt 16 v

/-- wrap32: the low 32 bits of an integer, an int32. -/
def wrap32 (v : Int) : Word := BitVec.ofInt 32 v

/-- u16: the bit pattern of an int16 as a number from 0 to 65535. -/
def u16 (c : Coeff) : Nat := c.toNat

/-- sext_32 of an int16: a result as a scalar register holds it (R22). -/
def sext32 (c : Coeff) : Word := c.signExtend 32

/-- sext_16(S[15:0]): the int16 operand in a scalar register, bits 31:16 ignored (R22). -/
def low16 (w : Word) : Coeff := w.setWidth 16

/-! ### Scalar registers (R22, R82) -/

/-- S[field[2:0]] (R82). A field of 8 to 15 is in no command: DESIGN CHOICE, safe (notes/assumptions/7.md). -/
def State.getS (s : State) (r : SReg) : Word :=
  s.sRegs[(r.setWidth 3).toNat]'((r.setWidth 3).isLt)

/-- S[field[2:0]] <- v. -/
def State.setS (s : State) (r : SReg) (v : Word) : State :=
  { s with sRegs := s.sRegs.set (r.setWidth 3).toNat v ((r.setWidth 3).isLt) }

/-! ### Polynomial registers (R21) -/

/-- The whole register P[n] (R9). -/
def State.getP (s : State) (n : PReg) : Poly256 := s.pRegs[n.toNat]'(n.isLt)

/-- P[n] <- p: all 256 coefficients (R9). -/
def State.setP (s : State) (n : PReg) (p : Poly256) : State :=
  { s with pRegs := s.pRegs.set n.toNat p n.isLt }

/-- Coefficient `i` of a register, P[n][i] (R9). -/
def lane (p : Poly256) (i : Fin 256) : Coeff := p.coeffs[i.val]'(by rw [p.size]; exact i.isLt)

/-- A register with coefficient `i` replaced; `i` past the last one changes nothing. -/
def setLane (p : Poly256) (i : Nat) (c : Coeff) : Poly256 :=
  ⟨p.coeffs.set i c, by rw [List.length_set, p.size]⟩

/-- The 256 coefficients listed in `l`, coefficient `i` at index `i`. Every use lists exactly 256. -/
def polyOfList (l : List Coeff) : Poly256 :=
  ⟨(l ++ List.replicate 256 0).take 256, by rw [List.length_take, List.length_append, List.length_replicate]; omega⟩

/-- A lane-wise operation on one register (R160). -/
def mapLanes (f : Coeff → Coeff) (p : Poly256) : Poly256 :=
  ⟨p.coeffs.map f, by rw [List.length_map, p.size]⟩

/-- A lane-wise operation on two registers (R160). -/
def zipLanes (f : Coeff → Coeff → Coeff) (p r : Poly256) : Poly256 :=
  ⟨List.zipWith f p.coeffs r.coeffs, by rw [List.length_zipWith, p.size, r.size, Nat.min_self]⟩

/-! ### Vectors (R180) -/

/-- K, the number of components of a polyvec (R26). -/
def State.kNat (s : State) : Nat := s.k.toNat

/-- The names of `n` consecutive registers from a base. The range check of R181 keeps them from wrapping past P15. -/
def vectorRegs (b : PReg) (n : Nat) : List PReg := (List.range n).map fun i => b + BitVec.ofNat 4 i

/-- The components P[b], ..., P[b+K-1] of a polyvec operand (R180). -/
def State.getVec (s : State) (b : PReg) : List Poly256 := (vectorRegs b s.kNat).map s.getP

/-- P[b] <- the first polynomial of the list, P[b+1] <- the next, and so on (R180). -/
def State.setVec (s : State) (b : PReg) : List Poly256 → State
  | [] => s
  | p :: ps => (s.setP b p).setVec (b + 1) ps

end Sys2Proof.Machine
end

