-- ==== Sys2Proof/Machine/Ops.lean ====
section
/-! DEFINITION. The operations the commands share: BUF (R60, R61), taking an error and the way out of it (R263, R264, R290,
R291), and the checks before a command runs (R90 steps 3 and 4). -/

namespace Sys2Proof.Machine

/-! ### BUF -/

/-- The byte at an offset. -/
def Memory.read (m : Memory) (a : Nat) : Byte := (m.lookup a).getD Config.unlistedByte

/-- The entries for the bytes of `bs` from offset `a` on: a byte that equals an unlisted one needs none. -/
def Memory.cells (a : Nat) : List Byte → Memory
  | [] => []
  | b :: bs => if b = Config.unlistedByte then Memory.cells (a + 1) bs else (a, b) :: Memory.cells (a + 1) bs

/-- MemRead(a, n): the bytes at a, a+1, ..., a+n-1 (R61). -/
def Memory.readBytes (m : Memory) (a n : Nat) : List Byte := (List.range n).map fun j => m.read (a + j)

/-- MemWrite(a, n, bytes): bytes[j] at a+j (R61). -/
def Memory.writeBytes (m : Memory) (a : Nat) (bs : List Byte) : Memory :=
  m.filter (fun c => c.1 < a) ++ Memory.cells a bs ++ m.filter (fun c => a + bs.length ≤ c.1)

/-- MemRead on BUF. -/
def State.memRead (s : State) (a n : Nat) : List Byte := s.buf.readBytes a n

/-- MemWrite on BUF. -/
def State.memWrite (s : State) (a : Nat) (bs : List Byte) : State := { s with buf := s.buf.writeBytes a bs }

/-- Bytes as one number, byte 0 the least significant (R52, R200). -/
def bytesToNat : List Byte → Nat
  | [] => 0
  | b :: bs => b.toNat + 256 * bytesToNat bs

/-- The low `n` bytes of a number, byte 0 the least significant (R52, R200). -/
def natToBytes : Nat → Nat → List Byte
  | 0, _ => []
  | n + 1, w => BitVec.ofNat 8 w :: natToBytes n (w / 256)

/-! ### Taking an error, and the ways out -/

/-- `raise Error(code)` (R263): the only fault mechanism of the block. Only STATUS changes. -/
def raiseError (c : ErrorCode) (s : State) : State :=
  if s.err then s else { s with code := c.code, err := true }

/-- A soft reset (R291): S, STATUS, PARAM.K and CTR take their reset values; every P coefficient and every byte of BUF
stays. It is the way out of the halted state that a host has over the bus (R264). -/
def softReset (s : State) : State :=
  { s with sRegs := Vector.replicate 8 0, err := false, code := 0, k := 0, ctr := 0 }

/-- A hard reset (R290): as a soft reset, and P and BUF hold the unspecified contents INIT_P and INIT_BUF (R34). -/
def hardReset (initP : Vector Poly256 16) (initBuf : List Byte) (s : State) : State :=
  { softReset s with
    pRegs := initP
    buf := Memory.writeBytes [] 0 (initBuf.take Config.bufSize) }

/-! ### The checks (R90 steps 3 and 4) -/

/-- PARAM.K is 2, 3 or 4 (R26). -/
def legalK (k : BitVec 3) : Bool := 2 ≤ k.toNat && k.toNat ≤ 4

/-- A vector of `k` registers at base `b` stays within P0 to P15 (R181). -/
def vectorFits (k : BitVec 3) (b : PReg) : Bool := b.toNat + k.toNat ≤ 16

/-- R90 step 3, R181: first K, then every field that names a vector. -/
def checkVectors (s : State) (bases : List PReg) : Option ErrorCode :=
  if legalK s.k then
    if bases.all (vectorFits s.k) then none else some .registerRange
  else some .badK

/-- R90 step 4, R60: the `len` bytes at `off` lie within BUF. -/
def checkBuffer (off : BufOffset) (len : Nat) : Option ErrorCode :=
  if off.toNat + len ≤ Config.bufSize then none else some .bufferRange

/-- The first of two checks that finds an error wins (R262). -/
def firstError (e f : Option ErrorCode) : Option ErrorCode :=
  match e with
  | some c => some c
  | none => f

/-- Ends a command: with the error that the checks found, and then nothing else has happened (R263, R266), or with the
state the command leaves. -/
def finish (e : Option ErrorCode) (s t : State) : Host.Outcome State Fault Refusal :=
  match e with
  | some c => .next (raiseError c s)
  | none => .next t

end Sys2Proof.Machine
end

