-- ==== Sys2Proof/Machine/Bus.lean ====
section
/-! DEFINITION. The host bus window (20_memory.md): what an access reaches, what a read returns, what a write stores, and the
answer to a refused access. A write to CMD is in Command.lean. -/

namespace Sys2Proof.Machine

/-- How many bytes an access moves. -/
def BusWidth.bytes : BusWidth → Nat
  | .byte => 1
  | .half => 2
  | .word => 4

/-- What a legal access reaches (R51). -/
inductive Location where
  | cmd | status | param | ctr | ctrl
  | scalar (i : SReg)
  /-- The byte of BUF at the access's own address. -/
  | buffer (a : BufOffset)
  /-- Coefficient `i` of P[n], the one at the access's own address. -/
  | lane (n : PReg) (i : BitVec 8)
deriving DecidableEq, Repr

/-- The control and scalar registers, 32-bit accesses only, at 0x0000 to 0x003F (R51, R53). -/
def controlLocation (a : Nat) : Option Location :=
  if a = 0x00 then some .cmd
  else if a = 0x04 then some .status
  else if a = 0x08 then some .param
  else if a = 0x0C then some .ctr
  else if a = 0x10 then some .ctrl
  else if 0x20 ≤ a ∧ a < 0x40 then some (.scalar (BitVec.ofNat 4 ((a - 0x20) / 4)))
  else none

/-- What an access of width `w` at address `a` reaches, `none` for a bus error: a misaligned access, a width the region
does not accept, an unmapped address (R51, R53). -/
def busLocation (w : BusWidth) (addr : BusAddr) : Option Location :=
  let a := addr.toNat
  if a % w.bytes ≠ 0 then none
  else if a < 0x1000 then
    if w = .word then controlLocation a else none
  else if a < 0x2000 then some (.buffer (BitVec.ofNat 12 (a - 0x1000)))
  else if w = .byte then none
  else some (.lane (BitVec.ofNat 4 ((a - 0x2000) / 512)) (BitVec.ofNat 8 ((a - 0x2000) % 512 / 2)))

/-- One coefficient. -/
def State.getCoeff (s : State) (n : PReg) (i : BitVec 8) : Coeff := lane (s.getP n) ⟨i.toNat, i.isLt⟩

/-- One coefficient replaced. -/
def State.setCoeff (s : State) (n : PReg) (i : BitVec 8) (c : Coeff) : State :=
  s.setP n (setLane (s.getP n) i.toNat c)

/-- What a legal read returns (R24 to R28, R51, R52). -/
def busValue (w : BusWidth) (l : Location) (s : State) : Word :=
  match l with
  | .cmd => 0
  | .status => statusWord s
  | .param => paramWord s
  | .ctr => ctrWord s
  | .ctrl => 0
  | .scalar i => s.getS i
  | .buffer a => BitVec.ofNat 32 (bytesToNat (s.memRead a.toNat w.bytes))
  | .lane n i =>
    match w with
    | .word => s.getCoeff n (i + 1) ++ s.getCoeff n i
    | _ => (s.getCoeff n i).setWidth 32

/-- What a legal write other than one to CMD stores (R25 to R28, R51, R52). -/
def busStore (w : BusWidth) (l : Location) (data : Word) (s : State) : State :=
  match l with
  | .cmd => s
  | .status => s
  | .param => { s with k := data.setWidth 3 }
  | .ctr => { s with ctr := data.setWidth 9 }
  | .ctrl => if data.getLsbD 0 then softReset s else s
  | .scalar i => s.setS i data
  | .buffer a => s.memWrite a.toNat (natToBytes w.bytes data.toNat)
  | .lane n i =>
    match w with
    | .word => (s.setCoeff n i (data.extractLsb' 0 16)).setCoeff n (i + 1) (data.extractLsb' 16 16)
    | _ => s.setCoeff n i (data.setWidth 16)

/-- The block's answer to the access it has just taken. -/
def answer (r : BusResponse) (s : State) : State := { s with responses := r :: s.responses }

/-- A bus read. Reads have no side effect (R55). The value of a refused read is a free value (R53). -/
def busRead (w : BusWidth) (addr : BusAddr) (s : State) : State :=
  match busLocation w addr with
  | some l => answer (.readData (busValue w l s)) s
  | none => { answer (.readRefused (Config.refusedReadValue s.freeCount)) s with freeCount := s.freeCount + 1 }

end Sys2Proof.Machine
end

