-- ==== Sys2Proof/Machine/Field.lean ====
section
/-! DEFINITION. Field operations (40_field_ops.md): the four pure functions every family uses, and NOP, MONTRED, MONTMUL,
BARRETT, CSUBQ. -/

namespace Sys2Proof.Machine

/-! ### Pure functions -/

/-- MontReduce (R112), on an int32. The subtraction is in 32-bit two's complement, the shift is arithmetic. -/
def montReduce (a : Word) : Coeff :=
  let u : Int := (wrap16 (a.toInt * Config.qInv)).toInt
  wrap16 ((wrap32 (a.toInt - u * Config.q)).toInt >>> (16 : Nat))

/-- MontMul (R113): the exact product, then MontReduce. -/
def montMul (a b : Coeff) : Coeff := montReduce (wrap32 (a.toInt * b.toInt))

/-- BarrettReduce (R115). -/
def barrettReduce (a : Coeff) : Coeff :=
  let t : Int := (Config.barrettV * a.toInt) >>> (26 : Nat)
  wrap16 (a.toInt - t * Config.q)

/-- CondSubQ (R116): the comparison is exact. -/
def condSubQ (a : Coeff) : Coeff := if a.toInt < Config.q then a else wrap16 (a.toInt - Config.q)

/-- The sum of two coefficients (R123). -/
def addCoeff (x y : Coeff) : Coeff := wrap16 (x.toInt + y.toInt)

/-- The difference of two coefficients (R123). -/
def subCoeff (x y : Coeff) : Coeff := wrap16 (x.toInt - y.toInt)

/-! ### Commands -/

/-- NOP (R118). -/
def execNop (s : State) : Host.Outcome State Fault Refusal := .next s

/-- MONTRED Sd, Sa (R119): all 32 bits of Sa are the operand. -/
def execMontred (d a : SReg) (s : State) : Host.Outcome State Fault Refusal :=
  .next (s.setS d (sext32 (montReduce (s.getS a))))

/-- MONTMUL Sd, Sa, Sb (R120). -/
def execMontmul (d a b : SReg) (s : State) : Host.Outcome State Fault Refusal :=
  .next (s.setS d (sext32 (montMul (low16 (s.getS a)) (low16 (s.getS b)))))

/-- BARRETT Sd, Sa (R121). -/
def execBarrett (d a : SReg) (s : State) : Host.Outcome State Fault Refusal :=
  .next (s.setS d (sext32 (barrettReduce (low16 (s.getS a)))))

/-- CSUBQ Sd, Sa (R122). -/
def execCsubq (d a : SReg) (s : State) : Host.Outcome State Fault Refusal :=
  .next (s.setS d (sext32 (condSubQ (low16 (s.getS a)))))

end Sys2Proof.Machine
end

