-- ==== Sys2Proof/Machine/PolyArith.lean ====
section
/-! DEFINITION. Polynomial arithmetic (42_poly.md): PADD, PSUB, PREDUCE, PCSUBQ, PTOMONT, lane-wise over 256 lanes. -/

namespace Sys2Proof.Machine

/-- PADD Pd, Pa, Pb (R161). -/
def execPadd (d a b : PReg) (s : State) : Host.Outcome State Fault Refusal :=
  .next (s.setP d (zipLanes addCoeff (s.getP a) (s.getP b)))

/-- PSUB Pd, Pa, Pb (R162). -/
def execPsub (d a b : PReg) (s : State) : Host.Outcome State Fault Refusal :=
  .next (s.setP d (zipLanes subCoeff (s.getP a) (s.getP b)))

/-- PREDUCE Pd, Pa (R163). -/
def execPreduce (d a : PReg) (s : State) : Host.Outcome State Fault Refusal :=
  .next (s.setP d (mapLanes barrettReduce (s.getP a)))

/-- PCSUBQ Pd, Pa (R164). -/
def execPcsubq (d a : PReg) (s : State) : Host.Outcome State Fault Refusal :=
  .next (s.setP d (mapLanes condSubQ (s.getP a)))

/-- PTOMONT Pd, Pa (R166). -/
def execPtomont (d a : PReg) (s : State) : Host.Outcome State Fault Refusal :=
  .next (s.setP d (mapLanes (fun c => montMul c Config.toMontF) (s.getP a)))

end Sys2Proof.Machine
end

