-- ==== Sys2Proof/Machine/Ntt.lean ====
section
/-! DEFINITION. The number-theoretic transform and base multiplication (41_ntt.md): PNTT, PINVNTT, PBASEMUL. -/

namespace Sys2Proof.Machine

/-! ### Butterflies -/

/-- The Cooley-Tukey butterfly (R134): `CT(x, y, z)`. -/
def ctButterfly (z x y : Coeff) : Coeff × Coeff :=
  let t := montMul z y
  (addCoeff x t, subCoeff x t)

/-- The Gentleman-Sande butterfly (R135): `GS(x, y, z)`. -/
def gsButterfly (z x y : Coeff) : Coeff × Coeff :=
  (barrettReduce (addCoeff x y), montMul z (subCoeff x y))

/-! ### Layers -/

/-- One block of a layer: the butterfly on the pairs (r[j], r[j+len]) of the block's two halves. -/
def blockStep (bf : Coeff → Coeff → Coeff × Coeff) (lo hi : List Coeff) : List Coeff :=
  (List.zipWith bf lo hi).map Prod.fst ++ (List.zipWith bf lo hi).map Prod.snd

/-- One layer: the blocks of 2*len coefficients in increasing start order, one table entry for each block. -/
def layerStep (bf : Coeff → Coeff → Coeff → Coeff × Coeff) (len : Nat) : List Coeff → List Coeff → List Coeff
  | [], r => r
  | z :: zs, r =>
    blockStep (bf z) (r.take len) ((r.drop len).take len) ++ layerStep bf len zs (r.drop (2 * len))

/-- The layers in order. Layer `len` has 128/len blocks and takes that many of the table entries that are left: the running
index k of R136 and R138. -/
def transform (bf : Coeff → Coeff → Coeff → Coeff × Coeff) : List Nat → List Coeff → List Coeff → List Coeff
  | [], _, r => r
  | len :: lens, zs, r =>
    transform bf lens (zs.drop (128 / len)) (layerStep bf len (zs.take (128 / len)) r)

/-- The layer lengths of the forward transform, in order (R136). -/
def nttLens : List Nat := [128, 64, 32, 16, 8, 4, 2]

/-- The layer lengths of the inverse transform, in order (R138). -/
def invNttLens : List Nat := [2, 4, 8, 16, 32, 64, 128]

/-- The seven layers of the forward transform; k starts at 1 (R136). -/
def nttLayers (r : List Coeff) : List Coeff := transform ctButterfly nttLens (Config.zetas.drop 1) r

/-- The seven layers of the inverse transform; k starts at 0 (R138). -/
def invNttLayers (r : List Coeff) : List Coeff := transform gsButterfly invNttLens Config.zetasInv r

/-- NTT(p) (R136). -/
def ntt (p : Poly256) : Poly256 := polyOfList (nttLayers p.coeffs)

/-- InvNTT(p) (R138): after the layers, every coefficient times entry 127. -/
def invNtt (p : Poly256) : Poly256 :=
  mapLanes (fun c => montMul c Config.finalFactor) (polyOfList (invNttLayers p.coeffs))

/-! ### Base multiplication -/

/-- BaseMul2(a0, a1, b0, b1, z) (R140): (r0, r1). -/
def baseMul2 (a0 a1 b0 b1 z : Coeff) : Coeff × Coeff :=
  (addCoeff (montMul (montMul a1 b1) z) (montMul a0 b0), addCoeff (montMul a0 b1) (montMul a1 b0))

/-- wrap16(-z), the table entry of the second pair (R141). -/
def negCoeff (z : Coeff) : Coeff := wrap16 (-z.toInt)

/-- One table entry for each four coefficients: the first pair with z, the second with -z (R141). -/
def baseMulList : List Coeff → List Coeff → List Coeff → List Coeff
  | z :: zs, a0 :: a1 :: a2 :: a3 :: as, b0 :: b1 :: b2 :: b3 :: bs =>
    (baseMul2 a0 a1 b0 b1 z).1 :: (baseMul2 a0 a1 b0 b1 z).2 ::
      (baseMul2 a2 a3 b2 b3 (negCoeff z)).1 :: (baseMul2 a2 a3 b2 b3 (negCoeff z)).2 :: baseMulList zs as bs
  | _, _, _ => []

/-- BaseMul(a, b) (R141): entry 64 + i of the table for the coefficients 4i to 4i+3. -/
def baseMul (a b : Poly256) : Poly256 := polyOfList (baseMulList (Config.zetas.drop 64) a.coeffs b.coeffs)

/-! ### Commands -/

/-- PNTT Pd, Pa (R142). -/
def execPntt (d a : PReg) (s : State) : Host.Outcome State Fault Refusal :=
  .next (s.setP d (ntt (s.getP a)))

/-- PINVNTT Pd, Pa (R143). -/
def execPinvntt (d a : PReg) (s : State) : Host.Outcome State Fault Refusal :=
  .next (s.setP d (invNtt (s.getP a)))

/-- PBASEMUL Pd, Pa, Pb (R144). -/
def execPbasemul (d a b : PReg) (s : State) : Host.Outcome State Fault Refusal :=
  .next (s.setP d (baseMul (s.getP a) (s.getP b)))

end Sys2Proof.Machine
end

