-- ==== Sys2Proof/Machine/PolyVec.lean ====
section
/-! DEFINITION. Polynomial-vector arithmetic (43_polyvec.md): VADD, VSUB, VREDUCE, VCSUBQ, VNTT, VINVNTT, VACC. Each
component gets the polynomial function of the command without the V (R180); all sources are read before any destination is
written (R90 step 5). -/

namespace Sys2Proof.Machine

/-- A componentwise command on one source vector: checks of R181, then P[d+i] <- f(P[a+i]). -/
def vectorMap (f : Poly256 → Poly256) (d a : PReg) (s : State) : Host.Outcome State Fault Refusal :=
  finish (checkVectors s [d, a]) s (s.setVec d ((s.getVec a).map f))

/-- A componentwise command on two source vectors: checks of R181, then P[d+i] <- f(P[a+i], P[b+i]). -/
def vectorZip (f : Poly256 → Poly256 → Poly256) (d a b : PReg) (s : State) : Host.Outcome State Fault Refusal :=
  finish (checkVectors s [d, a, b]) s (s.setVec d (List.zipWith f (s.getVec a) (s.getVec b)))

/-- VADD Pd, Pa, Pb (R182). -/
def execVadd (d a b : PReg) (s : State) : Host.Outcome State Fault Refusal :=
  vectorZip (zipLanes addCoeff) d a b s

/-- VSUB Pd, Pa, Pb (R183). -/
def execVsub (d a b : PReg) (s : State) : Host.Outcome State Fault Refusal :=
  vectorZip (zipLanes subCoeff) d a b s

/-- VREDUCE Pd, Pa (R184). -/
def execVreduce (d a : PReg) (s : State) : Host.Outcome State Fault Refusal :=
  vectorMap (mapLanes barrettReduce) d a s

/-- VCSUBQ Pd, Pa (R185). -/
def execVcsubq (d a : PReg) (s : State) : Host.Outcome State Fault Refusal :=
  vectorMap (mapLanes condSubQ) d a s

/-- VNTT Pd, Pa (R186). -/
def execVntt (d a : PReg) (s : State) : Host.Outcome State Fault Refusal :=
  vectorMap ntt d a s

/-- VINVNTT Pd, Pa (R187). -/
def execVinvntt (d a : PReg) (s : State) : Host.Outcome State Fault Refusal :=
  vectorMap invNtt d a s

/-- The sum of R188 in int16, component 0 first, without the final reduction. -/
def accumulate (ts : List Poly256) : Poly256 :=
  match ts with
  | [] => polyOfList []
  | t :: ts => ts.foldl (zipLanes addCoeff) t

/-- VACC Pd, Pa, Pb (R188); Pd is a single register. -/
def execVacc (d a b : PReg) (s : State) : Host.Outcome State Fault Refusal :=
  finish (checkVectors s [a, b]) s
    (s.setP d (mapLanes barrettReduce (accumulate (List.zipWith baseMul (s.getVec a) (s.getVec b)))))

end Sys2Proof.Machine
end

