-- ==== Sys2Proof/Machine/Codec.lean ====
section
/-! DEFINITION. The codec (44_codec.md): packing, compression, serialization and message conversion, and the fourteen
commands that move data between BUF and the polynomial registers. -/

namespace Sys2Proof.Machine

/-! ### Packing (R200) -/

/-- The number whose bits d*i to d*i + d - 1 are value i. -/
def packNat (d : Nat) : List Nat → Nat
  | [] => 0
  | t :: ts => t + 2 ^ d * packNat d ts

/-- Pack(d, t): the m*d/8 bytes of the bit stream, least significant bit first. -/
def pack (d : Nat) (ts : List Nat) : List Byte := natToBytes (ts.length * d / 8) (packNat d ts)

/-- The `m` values of `d` bits in a number, the least significant first. -/
def unpackNat (d : Nat) : Nat → Nat → List Nat
  | 0, _ => []
  | m + 1, w => w % 2 ^ d :: unpackNat d m (w / 2 ^ d)

/-- Unpack(d, bytes, m). -/
def unpack (d : Nat) (bs : List Byte) (m : Nat) : List Nat := unpackNat d m (bytesToNat bs)

/-! ### Pure functions -/

/-- Compress_d(c) (R201). -/
def compress (d : Nat) (c : Coeff) : Nat := (u16 (condSubQ c) * 2 ^ d + 1664) / Config.qNat % 2 ^ d

/-- Decompress_d(t) (R202). -/
def decompress (d t : Nat) : Coeff := BitVec.ofNat 16 ((t * Config.qNat + 2 ^ (d - 1)) / 2 ^ d)

/-- The byte formulas of R203 on the 16-bit patterns that CondSubQ leaves, two coefficients to three bytes. -/
def toBytesList : List Coeff → List Byte
  | p0 :: p1 :: ps =>
    let c0 := condSubQ p0
    let c1 := condSubQ p1
    (c0 &&& 0xFF).setWidth 8 ::
      ((c0 >>> 8) ||| ((c1 &&& 0x0F) <<< 4)).setWidth 8 ::
      (c1 >>> 4).setWidth 8 :: toBytesList ps
  | _ => []

/-- ToBytes(p) (R203). -/
def toBytes (p : Poly256) : List Byte := toBytesList p.coeffs

/-- The 12-bit values in three bytes (R204, R241): b0 with the low nibble of b1, the high nibble of b1 with b2. -/
def tripleLow (b0 b1 : Byte) : Coeff := b0.setWidth 16 ||| ((b1 &&& 0x0F).setWidth 16 <<< 8)

/-- The second 12-bit value in three bytes (R204, R241). -/
def tripleHigh (b1 b2 : Byte) : Coeff := (b1 >>> 4).setWidth 16 ||| (b2.setWidth 16 <<< 4)

/-- The formulas of R204, three bytes to two coefficients. -/
def fromBytesList : List Byte → List Coeff
  | b0 :: b1 :: b2 :: bs => tripleLow b0 b1 :: tripleHigh b1 b2 :: fromBytesList bs
  | _ => []

/-- FromBytes(bytes) (R204). -/
def fromBytes (bs : List Byte) : Poly256 := polyOfList (fromBytesList bs)

/-- FromMsg(m) (R205): 1665 for each bit 1 of the message, least significant bit first. -/
def fromMsg (bs : List Byte) : Poly256 :=
  polyOfList ((unpack 1 bs 256).map fun t => BitVec.ofNat 16 (Config.messageOne * t))

/-- Pack(d, [Compress_d(p[i]) for i in 0..255]) (R206, R210, R211, R218, R219). -/
def compressPoly (d : Nat) (p : Poly256) : List Byte := pack d (p.coeffs.map (compress d))

/-- Decompress_d of Unpack(d, bytes, 256) (R212, R213, R220, R221). -/
def decompressPoly (d : Nat) (bs : List Byte) : Poly256 := polyOfList ((unpack d bs 256).map (decompress d))

/-- ToMsg(p) (R206): bit i is Compress_1(p[i]). -/
def toMsg (p : Poly256) : List Byte := compressPoly 1 p

/-! ### What the fourteen commands share (R207) -/

/-- A store-type command on one register: the range check, then the bytes at `off`. -/
def storePoly (len : Nat) (enc : Poly256 → List Byte) (off : BufOffset) (a : PReg) (s : State) :
    Host.Outcome State Fault Refusal :=
  finish (checkBuffer off len) s (s.memWrite off.toNat (enc (s.getP a)))

/-- A load-type command on one register. -/
def loadPoly (len : Nat) (dec : List Byte → Poly256) (d : PReg) (off : BufOffset) (s : State) :
    Host.Outcome State Fault Refusal :=
  finish (checkBuffer off len) s (s.setP d (dec (s.memRead off.toNat len)))

/-- The bytes of a vector: polynomial i at off + len*i (R62). -/
def encodeVec (enc : Poly256 → List Byte) : List Poly256 → List Byte
  | [] => []
  | p :: ps => enc p ++ encodeVec enc ps

/-- The polynomials of `n` objects of `len` bytes, object i at off + len*i (R62). -/
def decodeVec (s : State) (len : Nat) (dec : List Byte → Poly256) (off n : Nat) : List Poly256 :=
  (List.range n).map fun i => dec (s.memRead (off + len * i) len)

/-- A store-type command on a vector: the checks in the order of R207, then L = len*K bytes at `off`. -/
def storeVec (len : Nat) (enc : Poly256 → List Byte) (off : BufOffset) (a : PReg) (s : State) :
    Host.Outcome State Fault Refusal :=
  finish (firstError (checkVectors s [a]) (checkBuffer off (len * s.kNat))) s
    (s.memWrite off.toNat (encodeVec enc (s.getVec a)))

/-- A load-type command on a vector. -/
def loadVec (len : Nat) (dec : List Byte → Poly256) (d : PReg) (off : BufOffset) (s : State) :
    Host.Outcome State Fault Refusal :=
  finish (firstError (checkVectors s [d]) (checkBuffer off (len * s.kNat))) s
    (s.setVec d (decodeVec s len dec off.toNat s.kNat))

/-! ### Polynomial commands -/

/-- PTOBYTES off, Pa (R208). -/
def execPtobytes (off : BufOffset) (a : PReg) (s : State) : Host.Outcome State Fault Refusal :=
  storePoly 384 toBytes off a s

/-- PFROMBYTES Pd, off (R209). -/
def execPfrombytes (d : PReg) (off : BufOffset) (s : State) : Host.Outcome State Fault Refusal :=
  loadPoly 384 fromBytes d off s

/-- PCOMP4 off, Pa (R210). -/
def execPcomp4 (off : BufOffset) (a : PReg) (s : State) : Host.Outcome State Fault Refusal :=
  storePoly 128 (compressPoly 4) off a s

/-- PCOMP5 off, Pa (R211). -/
def execPcomp5 (off : BufOffset) (a : PReg) (s : State) : Host.Outcome State Fault Refusal :=
  storePoly 160 (compressPoly 5) off a s

/-- PDECOMP4 Pd, off (R212). -/
def execPdecomp4 (d : PReg) (off : BufOffset) (s : State) : Host.Outcome State Fault Refusal :=
  loadPoly 128 (decompressPoly 4) d off s

/-- PDECOMP5 Pd, off (R213). -/
def execPdecomp5 (d : PReg) (off : BufOffset) (s : State) : Host.Outcome State Fault Refusal :=
  loadPoly 160 (decompressPoly 5) d off s

/-- PFROMMSG Pd, off (R214). -/
def execPfrommsg (d : PReg) (off : BufOffset) (s : State) : Host.Outcome State Fault Refusal :=
  loadPoly 32 fromMsg d off s

/-- PTOMSG off, Pa (R215). -/
def execPtomsg (off : BufOffset) (a : PReg) (s : State) : Host.Outcome State Fault Refusal :=
  storePoly 32 toMsg off a s

/-! ### Polyvec commands -/

/-- VTOBYTES off, Pa (R216). -/
def execVtobytes (off : BufOffset) (a : PReg) (s : State) : Host.Outcome State Fault Refusal :=
  storeVec 384 toBytes off a s

/-- VFROMBYTES Pd, off (R217). -/
def execVfrombytes (d : PReg) (off : BufOffset) (s : State) : Host.Outcome State Fault Refusal :=
  loadVec 384 fromBytes d off s

/-- VCOMP10 off, Pa (R218). -/
def execVcomp10 (off : BufOffset) (a : PReg) (s : State) : Host.Outcome State Fault Refusal :=
  storeVec 320 (compressPoly 10) off a s

/-- VCOMP11 off, Pa (R219). -/
def execVcomp11 (off : BufOffset) (a : PReg) (s : State) : Host.Outcome State Fault Refusal :=
  storeVec 352 (compressPoly 11) off a s

/-- VDECOMP10 Pd, off (R220). -/
def execVdecomp10 (d : PReg) (off : BufOffset) (s : State) : Host.Outcome State Fault Refusal :=
  loadVec 320 (decompressPoly 10) d off s

/-- VDECOMP11 Pd, off (R221). -/
def execVdecomp11 (d : PReg) (off : BufOffset) (s : State) : Host.Outcome State Fault Refusal :=
  loadVec 352 (decompressPoly 11) d off s

end Sys2Proof.Machine
end

