-- ==== Sys2Proof/Machine/Sampler.lean ====
section
/-! DEFINITION. The rejection sampler (45_sampler.md): RejUniform and REJ. -/

namespace Sys2Proof.Machine

/-- Tests one candidate: stored at position `ctr` and counted when it is less than q and a place is left (R242). -/
def acceptCandidate (v : Coeff) (pc : Poly256 × Nat) : Poly256 × Nat :=
  if pc.2 < 256 ∧ v.toNat < Config.qNat then (setLane pc.1 pc.2 v, pc.2 + 1) else pc

/-- RejUniform(buf, len, poly, ctr) (R242), `len` being the length of the byte list. A tail of one or two bytes is
ignored; nothing is examined once 256 coefficients are there. -/
def rejUniform : List Byte → Poly256 × Nat → Poly256 × Nat
  | b0 :: b1 :: b2 :: bs, pc =>
    if pc.2 < 256 then
      rejUniform bs (acceptCandidate (tripleHigh b1 b2) (acceptCandidate (tripleLow b0 b1) pc))
    else pc
  | _, pc => pc

/-- The byte count of REJ: the 32 bits of Sa as an unsigned number (R243). -/
def rejLength (a : SReg) (s : State) : Nat := (s.getS a).toNat

/-- What REJ leaves in Pd and CTR (R243). -/
def rejResult (d : PReg) (off : BufOffset) (a : SReg) (s : State) : Poly256 × Nat :=
  rejUniform (s.memRead off.toNat (rejLength a s)) (s.getP d, s.ctr.toNat)

/-- P[d] <- p and CTR <- c (R243). -/
def State.setSampled (s : State) (d : PReg) (pc : Poly256 × Nat) : State :=
  { s.setP d pc.1 with ctr := BitVec.ofNat 9 pc.2 }

/-- REJ Pd, off, Sa (R243). The byte count is any 32-bit number, so the bytes are read in the arm where the range check has
passed (R61). -/
def execRej (d : PReg) (off : BufOffset) (a : SReg) (s : State) : Host.Outcome State Fault Refusal :=
  match checkBuffer off (rejLength a s) with
  | some c => .next (raiseError c s)
  | none => .next (s.setSampled d (rejResult d off a s))

end Sys2Proof.Machine
end

