-- ==== Sys2Proof/Machine/Dispatch.lean ====
section
/-! DEFINITION. The meaning of each command: one arm per row of the opcode map (R84). -/

namespace Sys2Proof.Machine

/-- R90 steps 3 to 5: the checks and the effect of a command that has decoded, in a block that is not halted. -/
def exec (i : Instr) (s : State) : Host.Outcome State Fault Refusal :=
  match i with
  | .nop => Sys2Proof.Machine.execNop s
  | .montred d a => Sys2Proof.Machine.execMontred d a s
  | .montmul d a b => Sys2Proof.Machine.execMontmul d a b s
  | .barrett d a => Sys2Proof.Machine.execBarrett d a s
  | .csubq d a => Sys2Proof.Machine.execCsubq d a s
  | .padd d a b => Sys2Proof.Machine.execPadd d a b s
  | .psub d a b => Sys2Proof.Machine.execPsub d a b s
  | .preduce d a => Sys2Proof.Machine.execPreduce d a s
  | .pcsubq d a => Sys2Proof.Machine.execPcsubq d a s
  | .ptomont d a => Sys2Proof.Machine.execPtomont d a s
  | .pntt d a => Sys2Proof.Machine.execPntt d a s
  | .pinvntt d a => Sys2Proof.Machine.execPinvntt d a s
  | .pbasemul d a b => Sys2Proof.Machine.execPbasemul d a b s
  | .vadd d a b => Sys2Proof.Machine.execVadd d a b s
  | .vsub d a b => Sys2Proof.Machine.execVsub d a b s
  | .vreduce d a => Sys2Proof.Machine.execVreduce d a s
  | .vcsubq d a => Sys2Proof.Machine.execVcsubq d a s
  | .vntt d a => Sys2Proof.Machine.execVntt d a s
  | .vinvntt d a => Sys2Proof.Machine.execVinvntt d a s
  | .vacc d a b => Sys2Proof.Machine.execVacc d a b s
  | .ptobytes off a => Sys2Proof.Machine.execPtobytes off a s
  | .pfrombytes d off => Sys2Proof.Machine.execPfrombytes d off s
  | .pcomp4 off a => Sys2Proof.Machine.execPcomp4 off a s
  | .pcomp5 off a => Sys2Proof.Machine.execPcomp5 off a s
  | .pdecomp4 d off => Sys2Proof.Machine.execPdecomp4 d off s
  | .pdecomp5 d off => Sys2Proof.Machine.execPdecomp5 d off s
  | .pfrommsg d off => Sys2Proof.Machine.execPfrommsg d off s
  | .ptomsg off a => Sys2Proof.Machine.execPtomsg off a s
  | .vtobytes off a => Sys2Proof.Machine.execVtobytes off a s
  | .vfrombytes d off => Sys2Proof.Machine.execVfrombytes d off s
  | .vcomp10 off a => Sys2Proof.Machine.execVcomp10 off a s
  | .vcomp11 off a => Sys2Proof.Machine.execVcomp11 off a s
  | .vdecomp10 d off => Sys2Proof.Machine.execVdecomp10 d off s
  | .vdecomp11 d off => Sys2Proof.Machine.execVdecomp11 d off s
  | .rej d off a => Sys2Proof.Machine.execRej d off a s

end Sys2Proof.Machine
end

