-- ==== Sys2Proof/Machine/Command.lean ====
section
/-! DEFINITION. What a write to CMD does (R90), and one event of the host or the platform. -/

namespace Sys2Proof.Machine

/-- A word written to CMD (R90): dropped while the block is halted; Error(1) for a word that is no command; else the
command's own checks and effect. -/
def runCommand (w : Word) (s : State) : Host.Outcome State Fault Refusal :=
  if s.err then .next s
  else
    match decode w with
    | .error _ => .next (raiseError .illegalCommand s)
    | .ok i => exec i s

/-- A bus write. A write to CMD runs a command; every other write stores and does nothing else, except SRST (R55). -/
def busWrite (w : BusWidth) (addr : BusAddr) (data : Word) (s : State) : Host.Outcome State Fault Refusal :=
  match busLocation w addr with
  | some .cmd => runCommand data (answer .writeDone s)
  | some l => .next (busStore w l data (answer .writeDone s))
  | none => .next (answer .writeRefused s)

/-- One event. -/
def perform (e : HostEvent) (s : State) : Host.Outcome State Fault Refusal :=
  match e with
  | .read w addr => .next (busRead w addr s)
  | .write w addr data => busWrite w addr data s
  | .hardReset initP initBuf => .next (hardReset initP initBuf s)

/-- The next event, taken off the host's list: events take effect one at a time in the order the host issues them (R57).
With none left the block waits for a bus access (R292). -/
def nextEvent (s : State) : Host.Outcome State Fault Refusal :=
  match s.pending with
  | [] => .next s
  | e :: rest => perform e { s with pending := rest }

/-- The host access that writes a command word to CMD (R24, R88). -/
def commandWrite (w : Word) : HostEvent := .write .word 0 w

end Sys2Proof.Machine
end

