-- ==== Sys2Proof/Machine/Step.lean ====
section
/-! DEFINITION. One step of the machine: one access of the host, with the command it may start (R56: "A model takes one
command as one step"). -/

namespace Sys2Proof.Machine

/-- One step. -/
def step (s : State) : Host.Outcome State Fault Refusal := nextEvent s

/-- `s` with the host's next access a write of the command word to CMD, and the block not halted, since a halted block drops
the write (R264). The block fetches nothing itself (R30): this is how a command comes to run. DESIGN CHOICE, safe
(notes/assumptions/4.md). -/
def State.withFetchWord (s : State) (nbits w : Nat) : State :=
  { s with pending := commandWrite (tableWord nbits w) :: s.pending, err := false }

end Sys2Proof.Machine
end

