-- ==== Sys2Proof/Safety.lean ====
section
/-! DEFINITION. The terms the statements use: the invariant of the block, the commands' operands by kind, what a command may
write, and the field functions of 40_field_ops.md on integers. -/

namespace Sys2Proof.Machine

/-! ### The invariant -/

/-- What holds in every state of the block: BUF is in canonical form, CODE is 0 while ERR = 0 (R25), and while ERR = 1 it is
one of the four codes that are ever produced (R261). -/
abbrev State.Inv (s : State) : Prop :=
  s.buf.wf ∧ (s.err = false → s.code = 0) ∧ (s.err = true → 1 ≤ s.code.toNat ∧ s.code.toNat ≤ 4)

/-! ### The operands of a command by kind -/

/-- The thirteen V-commands, op 0x20 to 0x27 and 0x40 to 0x45 (R84). -/
def isVCommand (i : Instr) : Bool :=
  (0x20 ≤ i.opcode.toNat && i.opcode.toNat ≤ 0x27) || (0x40 ≤ i.opcode.toNat && i.opcode.toNat ≤ 0x45)

/-- The fields of a command that name a vector (the table of R181). -/
def vectorFields : Instr → List PReg
  | .vadd d a b => [d, a, b]
  | .vsub d a b => [d, a, b]
  | .vreduce d a => [d, a]
  | .vcsubq d a => [d, a]
  | .vntt d a => [d, a]
  | .vinvntt d a => [d, a]
  | .vacc _ a b => [a, b]
  | .vtobytes _ a => [a]
  | .vcomp10 _ a => [a]
  | .vcomp11 _ a => [a]
  | .vfrombytes d _ => [d]
  | .vdecomp10 d _ => [d]
  | .vdecomp11 d _ => [d]
  | _ => []

/-- The bytes of BUF a command moves: the offset and the byte count L (the table of R222). -/
def bufferRange (i : Instr) (s : State) : Option (BufOffset × Nat) :=
  match i with
  | .ptobytes off _ => some (off, 384)
  | .pfrombytes _ off => some (off, 384)
  | .pcomp4 off _ => some (off, 128)
  | .pdecomp4 _ off => some (off, 128)
  | .pcomp5 off _ => some (off, 160)
  | .pdecomp5 _ off => some (off, 160)
  | .pfrommsg _ off => some (off, 32)
  | .ptomsg off _ => some (off, 32)
  | .vtobytes off _ => some (off, 384 * s.k.toNat)
  | .vfrombytes _ off => some (off, 384 * s.k.toNat)
  | .vcomp10 off _ => some (off, 320 * s.k.toNat)
  | .vdecomp10 _ off => some (off, 320 * s.k.toNat)
  | .vcomp11 off _ => some (off, 352 * s.k.toNat)
  | .vdecomp11 _ off => some (off, 352 * s.k.toNat)
  | .rej _ off a => some (off, (s.getS a).toNat)
  | _ => none

/-- PARAM.K is legal and every vector field fits (R181). -/
def vectorsOk (i : Instr) (s : State) : Prop :=
  (s.k.toNat = 2 ∨ s.k.toNat = 3 ∨ s.k.toNat = 4) ∧ ∀ b ∈ vectorFields i, b.toNat + s.k.toNat ≤ 16

/-- The byte range of a command lies within BUF (R60). -/
def bufferOk (i : Instr) (s : State) : Prop :=
  ∀ off len, bufferRange i s = some (off, len) → off.toNat + len ≤ 4096

/-- None of the checks of R90 steps 3 and 4 finds an error. -/
def checksPass (i : Instr) (s : State) : Prop :=
  (isVCommand i = true → vectorsOk i s) ∧ bufferOk i s

/-! ### What a command may write (R33) -/

/-- The base of the polynomial registers a command writes, and how many (R33). -/
def destinations (i : Instr) (s : State) : Option (PReg × Nat) :=
  match i with
  | .padd d _ _ => some (d, 1)
  | .psub d _ _ => some (d, 1)
  | .preduce d _ => some (d, 1)
  | .pcsubq d _ => some (d, 1)
  | .ptomont d _ => some (d, 1)
  | .pntt d _ => some (d, 1)
  | .pinvntt d _ => some (d, 1)
  | .pbasemul d _ _ => some (d, 1)
  | .vadd d _ _ => some (d, s.k.toNat)
  | .vsub d _ _ => some (d, s.k.toNat)
  | .vreduce d _ => some (d, s.k.toNat)
  | .vcsubq d _ => some (d, s.k.toNat)
  | .vntt d _ => some (d, s.k.toNat)
  | .vinvntt d _ => some (d, s.k.toNat)
  | .vacc d _ _ => some (d, 1)
  | .pfrombytes d _ => some (d, 1)
  | .pdecomp4 d _ => some (d, 1)
  | .pdecomp5 d _ => some (d, 1)
  | .pfrommsg d _ => some (d, 1)
  | .vfrombytes d _ => some (d, s.k.toNat)
  | .vdecomp10 d _ => some (d, s.k.toNat)
  | .vdecomp11 d _ => some (d, s.k.toNat)
  | .rej d _ _ => some (d, 1)
  | _ => none

/-- The command writes P[n]. -/
def writesP (i : Instr) (s : State) (n : PReg) : Prop :=
  ∃ d count, destinations i s = some (d, count) ∧ d.toNat ≤ n.toNat ∧ n.toNat < d.toNat + count

/-- The command writes S[r] (R33): the destination of a field operation. -/
def writesS (i : Instr) (r : BitVec 3) : Prop :=
  match i with
  | .montred d _ => r = d.setWidth 3
  | .montmul d _ _ => r = d.setWidth 3
  | .barrett d _ => r = d.setWidth 3
  | .csubq d _ => r = d.setWidth 3
  | _ => False

/-- A store-type command (R207), format ST. -/
def isStore (i : Instr) : Bool := i.format == .ST

/-- The command stores to the byte at offset `a`: `a` is one of the L bytes from `off` on of a store-type command (R60). -/
def storesByte (i : Instr) (s : State) (a : Nat) : Prop :=
  isStore i = true ∧ ∃ off len, bufferRange i s = some (off, len) ∧ off.toNat ≤ a ∧ a < off.toNat + len

/-! ### Frames -/

/-- The scalar register with number `r`. -/
def State.scalar (s : State) (r : BitVec 3) : Word := s.getS (r.setWidth 4)

/-- STATUS and PARAM are as before, and so is the model's record of the host's side. -/
def sameControl (s t : State) : Prop :=
  t.err = s.err ∧ t.code = s.code ∧ t.k = s.k ∧
    t.pending = s.pending ∧ t.responses = s.responses ∧ t.freeCount = s.freeCount

/-- Every byte of BUF reads as before. -/
def sameBytes (s t : State) : Prop := ∀ a, t.buf.read a = s.buf.read a

/-- Every scalar register is as before. -/
def sameScalars (s t : State) : Prop := ∀ r, t.scalar r = s.scalar r

/-- Every polynomial register is as before. -/
def samePolys (s t : State) : Prop := ∀ n, t.getP n = s.getP n

/-- Only S[d] may differ (R33). -/
def onlyScalar (d : SReg) (s t : State) : Prop :=
  (∀ r, r ≠ d.setWidth 3 → t.scalar r = s.scalar r) ∧
    samePolys s t ∧ sameBytes s t ∧ sameControl s t ∧ t.ctr = s.ctr

/-- Only the `count` polynomial registers from P[d] on may differ (R33). -/
def onlyPolys (d : PReg) (count : Nat) (s t : State) : Prop :=
  (∀ n : PReg, n.toNat < d.toNat ∨ d.toNat + count ≤ n.toNat → t.getP n = s.getP n) ∧
    sameScalars s t ∧ sameBytes s t ∧ sameControl s t ∧ t.ctr = s.ctr

/-- Only the `len` bytes of BUF from `off` on may differ (R207 (d)). -/
def onlyBytes (off len : Nat) (s t : State) : Prop :=
  (∀ a, a < off ∨ off + len ≤ a → t.buf.read a = s.buf.read a) ∧
    samePolys s t ∧ sameScalars s t ∧ sameControl s t ∧ t.ctr = s.ctr

/-- Only STATUS differs: ERR is 1 and CODE is the given code (R263). -/
def onlyStatus (code : BitVec 4) (s t : State) : Prop := t = { s with err := true, code := code }

end Sys2Proof.Machine

namespace Sys2Proof.Spec

/-! ### The field functions on integers, as 40_field_ops.md writes them -/

/-- MontReduce (R112): wrap16 of a*62209, wrap32 of a - u*3329, and floor division by 2^16. -/
def montReduce (a : Int) : Int := Int.bmod (a - Int.bmod (a * 62209) 65536 * 3329) 4294967296 / 65536

/-- BarrettReduce (R115). -/
def barrett (a : Int) : Int := a - 20159 * a / 67108864 * 3329

/-- CondSubQ (R116). -/
def condSubQ (a : Int) : Int := if a < 3329 then a else a - 3329

/-- wrap16 (R8). -/
def wrap16 (v : Int) : Int := Int.bmod v 65536

/-- An integer as the int16 with its low 16 bits (R8). -/
def int16 (v : Int) : Coeff := BitVec.ofInt 16 v

/-- MontMul (R113): MontReduce of the exact product. -/
def montMul (a b : Int) : Int := montReduce (a * b)

/-- CT(x, y, z) (R134): t = MontMul(z, y); (wrap16(x + t), wrap16(x - t)). -/
def ctPair (z x y : Coeff) : Coeff × Coeff :=
  let t := montMul z.toInt y.toInt
  (int16 (x.toInt + t), int16 (x.toInt - t))

/-- GS(x, y, z) (R135): (BarrettReduce(wrap16(x + y)), MontMul(z, wrap16(x - y))). -/
def gsPair (z x y : Coeff) : Coeff × Coeff :=
  (int16 (barrett (wrap16 (x.toInt + y.toInt))), int16 (montMul z.toInt (wrap16 (x.toInt - y.toInt))))

/-- The forward loop of R136 on one pair: `j` and `j + len`, with table entry `z`. -/
def ctAt (z : Coeff) (len : Nat) (r : List Coeff) (j : Nat) : List Coeff :=
  let pair := ctPair z (r.getD j 0) (r.getD (j + len) 0)
  (r.set j pair.1).set (j + len) pair.2

/-- The inverse loop of R138 on one pair. -/
def gsAt (z : Coeff) (len : Nat) (r : List Coeff) (j : Nat) : List Coeff :=
  let pair := gsPair z (r.getD j 0) (r.getD (j + len) 0)
  (r.set j pair.1).set (j + len) pair.2

/-- One layer of R136 or R138 as the loops write it: for every block `b`, start = 2*len*b, z = table[k + b], and j from
start to start + len - 1, each pair updated in place. -/
def loopLayer (pairAt : Coeff → Nat → List Coeff → Nat → List Coeff) (table : List Coeff) (len k : Nat)
    (r : List Coeff) : List Coeff :=
  (List.range (128 / len)).foldl (fun r b =>
    (List.range len).foldl (fun r j => pairAt (table.getD (k + b) 0) len r (2 * len * b + j)) r) r

/-- The layers in order, k advanced by one entry for each block. -/
def loopLayers (pairAt : Coeff → Nat → List Coeff → Nat → List Coeff) (table : List Coeff) :
    List Nat → Nat → List Coeff → List Coeff
  | [], _, r => r
  | len :: lens, k, r => loopLayers pairAt table lens (k + 128 / len) (loopLayer pairAt table len k r)

/-- Coefficient `i` of a*b in Zq[X]/(X^256 + 1) before reduction mod q: X^256 = -1. -/
def ringProduct (a b : Poly256) (i : Nat) : Int :=
  ((List.range 256).map fun j =>
    (a.coeffs.getD j 0).toInt *
      if j ≤ i then (b.coeffs.getD (i - j) 0).toInt else -(b.coeffs.getD (256 + i - j) 0).toInt).sum

/-! ### The words of the commands, as R80, R84 and R88 write them -/

/-- word = (op << 24) | (rd << 20) | (ra << 16) | (rb << 12) | imm (R88). -/
def word (op rd ra rb imm : Nat) : Nat := op * 2 ^ 24 + rd * 2 ^ 20 + ra * 2 ^ 16 + rb * 2 ^ 12 + imm

/-- The word of each command as a number: the op column of R84, and each operand in the field that R81 gives its format. -/
def commandWord : Instr → Nat
  | .nop => word 0x00 0 0 0 0
  | .montred d a => word 0x01 d.toNat a.toNat 0 0
  | .montmul d a b => word 0x02 d.toNat a.toNat b.toNat 0
  | .barrett d a => word 0x03 d.toNat a.toNat 0 0
  | .csubq d a => word 0x04 d.toNat a.toNat 0 0
  | .padd d a b => word 0x10 d.toNat a.toNat b.toNat 0
  | .psub d a b => word 0x11 d.toNat a.toNat b.toNat 0
  | .preduce d a => word 0x12 d.toNat a.toNat 0 0
  | .pcsubq d a => word 0x13 d.toNat a.toNat 0 0
  | .ptomont d a => word 0x14 d.toNat a.toNat 0 0
  | .pntt d a => word 0x15 d.toNat a.toNat 0 0
  | .pinvntt d a => word 0x16 d.toNat a.toNat 0 0
  | .pbasemul d a b => word 0x17 d.toNat a.toNat b.toNat 0
  | .vadd d a b => word 0x20 d.toNat a.toNat b.toNat 0
  | .vsub d a b => word 0x21 d.toNat a.toNat b.toNat 0
  | .vreduce d a => word 0x22 d.toNat a.toNat 0 0
  | .vcsubq d a => word 0x23 d.toNat a.toNat 0 0
  | .vntt d a => word 0x25 d.toNat a.toNat 0 0
  | .vinvntt d a => word 0x26 d.toNat a.toNat 0 0
  | .vacc d a b => word 0x27 d.toNat a.toNat b.toNat 0
  | .ptobytes off a => word 0x30 0 a.toNat 0 off.toNat
  | .pfrombytes d off => word 0x31 d.toNat 0 0 off.toNat
  | .pcomp4 off a => word 0x32 0 a.toNat 0 off.toNat
  | .pcomp5 off a => word 0x33 0 a.toNat 0 off.toNat
  | .pdecomp4 d off => word 0x34 d.toNat 0 0 off.toNat
  | .pdecomp5 d off => word 0x35 d.toNat 0 0 off.toNat
  | .pfrommsg d off => word 0x36 d.toNat 0 0 off.toNat
  | .ptomsg off a => word 0x37 0 a.toNat 0 off.toNat
  | .vtobytes off a => word 0x40 0 a.toNat 0 off.toNat
  | .vfrombytes d off => word 0x41 d.toNat 0 0 off.toNat
  | .vcomp10 off a => word 0x42 0 a.toNat 0 off.toNat
  | .vcomp11 off a => word 0x43 0 a.toNat 0 off.toNat
  | .vdecomp10 d off => word 0x44 d.toNat 0 0 off.toNat
  | .vdecomp11 d off => word 0x45 d.toNat 0 0 off.toNat
  | .rej d off a => word 0x50 d.toNat a.toNat 0 off.toNat

end Sys2Proof.Spec
end

