-- ==== Sys2Proof/Certificates/Slice0/Obligations.lean ====
section
/-! DEFINITION. The statements for the provers. Each docstring says which sentence of the spec it formalises. -/

open Sys2Proof Sys2Proof.Machine

/-! ## Encoding -/

/-- R80, R81, R84, R88: for every command whose scalar fields are 0 to 7, decoding its word gives it back, with every
operand at every value. -/
def Obligations.DecodeOfEncodeIsTheCommand : Prop :=
  ∀ i : Instr, i.wellFormed = true → decode (encode i) = .ok i

/-- R85, R86: no word but its own decodes to a command. -/
def Obligations.EncodeOfDecodeIsTheWord : Prop :=
  ∀ (w : Word) (i : Instr), decode w = .ok i → encode i = w ∧ i.wellFormed = true

/-- R80, R81, R84, R88: a word is a command exactly when (w & mask) = (o << 24) for a row of the opcode map; then that row
is the command's own; and each of the 35 commands has the word (op << 24) | (rd << 20) | (ra << 16) | (rb << 12) | imm, with the
op of R84 and each operand in its field. -/
def Obligations.DecodeAcceptsExactlyTheOpcodeMap : Prop :=
  (∀ w : Word, (∃ i, decode w = .ok i) ↔ ∃ row ∈ opcodeTable, w &&& row.format.mask = matchWord row.op) ∧
    (∀ (w : Word) (i : Instr), decode w = .ok i → w &&& i.format.mask = matchWord i.opcode ∧
      w.toNat = Spec.commandWord i) ∧
    ∀ i : Instr, (encode i).toNat = Spec.commandWord i

/-- R88: the eight example words of the assembler syntax. -/
def Obligations.AssemblerExamplesDecode : Prop :=
  decode 0x00000000 = .ok .nop ∧ decode 0x01310000 = .ok (.montred 3 1) ∧
    decode 0x02312000 = .ok (.montmul 3 1 2) ∧ decode 0x15200000 = .ok (.pntt 2 0) ∧
    decode 0x10554000 = .ok (.padd 5 5 4) ∧ decode 0x30050180 = .ok (.ptobytes 0x180 5) ∧
    decode 0x31100180 = .ok (.pfrombytes 1 384) ∧ decode 0x50010000 = .ok (.rej 0 0 1)

/-! ## A write to CMD -/

/-- R90, R56: when the host's next access writes to CMD a word that decodes to a command and the block is not halted, the
step is that command's meaning on the state with the access taken and answered. The second clause is the model's choice
(DESIGN CHOICE, log entry 4), not a rule's: `State.withFetchWord` places a table row's word as the host's next access and
clears ERR, and then the step runs what the decoder reads from the row. -/
def Obligations.StepRunsTheDecodedCommand : Prop :=
  (∀ (s : State) (rest : List HostEvent) (w : Word) (i : Instr),
    s.pending = commandWrite w :: rest → s.err = false → decode w = .ok i →
      step s = exec i { s with pending := rest, responses := .writeDone :: s.responses }) ∧
  ∀ (s : State) (nbits w : Nat) (i : Instr), decodeTableWord nbits w = some i →
    step (s.withFetchWord nbits w) = exec i { s with err := false, responses := .writeDone :: s.responses }

/-- R85: a word that is an instance of no row raises Error(1) and changes nothing else; the bus write completes normally
(R263). -/
def Obligations.IllegalWordRaisesErrorOne : Prop :=
  ∀ (s : State) (rest : List HostEvent) (w : Word),
    s.pending = commandWrite w :: rest → s.err = false →
      (∀ row ∈ opcodeTable, w &&& row.format.mask ≠ matchWord row.op) →
        step s = .next { s with pending := rest, responses := .writeDone :: s.responses, err := true, code := 1 }

/-- R264, R292: while STATUS.ERR = 1 every write to CMD is dropped without being decoded, so CODE keeps the first error;
with no access pending the block waits and nothing changes. -/
def Obligations.HaltedBlockDropsCommandsAndIdleBlockWaits : Prop :=
  (∀ (s : State) (rest : List HostEvent) (w : Word), s.pending = commandWrite w :: rest → s.err = true →
    step s = .next { s with pending := rest, responses := .writeDone :: s.responses }) ∧
  ∀ s : State, s.pending = [] → step s = .next s

/-! ## The bus window -/

/-- R51, R53: which accesses of 8, 16 or 32 bits are legal; the model has no access of another width (DESIGN CHOICE, log
entry 15). -/
def Obligations.LegalAccessesAreThoseOfTheBusMap : Prop :=
  ∀ (w : BusWidth) (addr : BusAddr), busLocation w addr ≠ none ↔
    addr.toNat % w.bytes = 0 ∧
      ((w = .word ∧ (addr.toNat = 0 ∨ addr.toNat = 4 ∨ addr.toNat = 8 ∨ addr.toNat = 12 ∨ addr.toNat = 16)) ∨
        (w = .word ∧ 0x20 ≤ addr.toNat ∧ addr.toNat < 0x40) ∨
        (0x1000 ≤ addr.toNat ∧ addr.toNat < 0x2000) ∨
        (w ≠ .byte ∧ 0x2000 ≤ addr.toNat))

/-- R53, R271: a refused access changes no state of the block: a write nothing, a read nothing but the model's count of
free values; the value it returns is unspecified. The accesses are those of 8, 16 or 32 bits (DESIGN CHOICE, log entry 15). -/
def Obligations.RefusedAccessChangesNothing : Prop :=
  ∀ (s : State) (rest : List HostEvent) (w : BusWidth) (addr : BusAddr) (data : Word), busLocation w addr = none →
    (s.pending = .write w addr data :: rest →
      step s = .next { s with pending := rest, responses := .writeRefused :: s.responses }) ∧
    (s.pending = .read w addr :: rest →
      ∃ v, step s = .next { s with pending := rest, responses := .readRefused v :: s.responses,
                                   freeCount := s.freeCount + 1 })

/-- R55: reads have no side effect anywhere in the window, at 8, 16 and 32 bits (DESIGN CHOICE, log entry 15). -/
def Obligations.ReadsHaveNoSideEffect : Prop :=
  ∀ (s : State) (rest : List HostEvent) (w : BusWidth) (addr : BusAddr), s.pending = .read w addr :: rest →
    ∃ r n, step s = .next { s with pending := rest, responses := r :: s.responses, freeCount := n }

/-- R24 to R28: the control registers. CMD and CTRL read 0; STATUS reads ERR | CODE << 4 and ignores writes; PARAM stores
and reads K in bits 2:0, CTR its 9 bits; the reserved bits read 0; CTRL with bit 0 = 0 does nothing. -/
def Obligations.ControlRegistersReadAndWrite : Prop :=
  ∀ (s : State) (rest : List HostEvent) (v : Word),
    (s.pending = .read .word 0x00 :: rest →
      step s = .next { s with pending := rest, responses := .readData 0 :: s.responses }) ∧
    (s.pending = .read .word 0x10 :: rest →
      step s = .next { s with pending := rest, responses := .readData 0 :: s.responses }) ∧
    (s.pending = .read .word 0x04 :: rest → ∃ x : Word, x.toNat = s.err.toNat + 16 * s.code.toNat ∧
      step s = .next { s with pending := rest, responses := .readData x :: s.responses }) ∧
    (s.pending = .read .word 0x08 :: rest → ∃ x : Word, x.toNat = s.k.toNat ∧
      step s = .next { s with pending := rest, responses := .readData x :: s.responses }) ∧
    (s.pending = .read .word 0x0C :: rest → ∃ x : Word, x.toNat = s.ctr.toNat ∧
      step s = .next { s with pending := rest, responses := .readData x :: s.responses }) ∧
    (s.pending = .write .word 0x04 v :: rest →
      step s = .next { s with pending := rest, responses := .writeDone :: s.responses }) ∧
    (s.pending = .write .word 0x08 v :: rest → ∃ k : BitVec 3, k.toNat = v.toNat % 8 ∧
      step s = .next { s with pending := rest, responses := .writeDone :: s.responses, k := k }) ∧
    (s.pending = .write .word 0x0C v :: rest → ∃ c : BitVec 9, c.toNat = v.toNat % 512 ∧
      step s = .next { s with pending := rest, responses := .writeDone :: s.responses, ctr := c }) ∧
    (s.pending = .write .word 0x10 v :: rest → v.toNat % 2 = 0 →
      step s = .next { s with pending := rest, responses := .writeDone :: s.responses })

/-- R51: S[i] is at 0x0020 + 4*i: a 32-bit write stores all of it and changes nothing else, a 32-bit read returns it. -/
def Obligations.ScalarRegistersOnTheBus : Prop :=
  ∀ (s : State) (rest : List HostEvent) (r : BitVec 3) (v : Word),
    (s.pending = .write .word (BitVec.ofNat 14 (0x20 + 4 * r.toNat)) v :: rest →
      ∃ t, step s = .next t ∧ t.scalar r = v ∧ (∀ r', r' ≠ r → t.scalar r' = s.scalar r') ∧
        samePolys s t ∧ sameBytes s t ∧ t.err = s.err ∧ t.code = s.code ∧ t.k = s.k ∧ t.ctr = s.ctr ∧
        t.pending = rest ∧ t.responses = .writeDone :: s.responses) ∧
    (s.pending = .read .word (BitVec.ofNat 14 (0x20 + 4 * r.toNat)) :: rest →
      step s = .next { s with pending := rest, responses := .readData (s.scalar r) :: s.responses })

/-- R51, R52: BUF[a] is at 0x1000 + a, and the bus is little-endian: an aligned access of n bytes moves byte j in bits
8*j + 7 to 8*j. Bytes outside the access are as before. That a narrow write's data stands in the low bits and that a narrow
read is answered zero-extended (x < 256^n) is the model's choice (DESIGN CHOICE, log entry 11). -/
def Obligations.BufferOnTheBusIsLittleEndian : Prop :=
  ∀ (s : State) (rest : List HostEvent) (w : BusWidth) (a : Nat) (v : Word), a < 4096 → a % w.bytes = 0 →
    (s.pending = .write w (BitVec.ofNat 14 (0x1000 + a)) v :: rest →
      ∃ t, step s = .next t ∧ (∀ j, j < w.bytes → (t.buf.read (a + j)).toNat = v.toNat / 256 ^ j % 256) ∧
        (∀ x, x < a ∨ a + w.bytes ≤ x → t.buf.read x = s.buf.read x) ∧
        samePolys s t ∧ sameScalars s t ∧ t.err = s.err ∧ t.code = s.code ∧ t.k = s.k ∧ t.ctr = s.ctr ∧
        t.pending = rest ∧ t.responses = .writeDone :: s.responses) ∧
    (s.pending = .read w (BitVec.ofNat 14 (0x1000 + a)) :: rest →
      ∃ x : Word, (∀ j, j < w.bytes → x.toNat / 256 ^ j % 256 = (s.buf.read (a + j)).toNat) ∧
        x.toNat < 256 ^ w.bytes ∧
        step s = .next { s with pending := rest, responses := .readData x :: s.responses })

/-- R51, R52: P[n][i] is at 0x2000 + 512*n + 2*i. A 16-bit access moves one coefficient; a 32-bit access moves coefficient i
(i even) in bits 15:0 and coefficient i+1 in bits 31:16. Every other coefficient is as before. That a 16-bit write takes the
low bits of the data and that a 16-bit read is answered zero-extended is the model's choice (DESIGN CHOICE, log entry 11). -/
def Obligations.CoefficientsOnTheBus : Prop :=
  ∀ (s : State) (rest : List HostEvent) (n : PReg) (i : Fin 256) (v : Word),
    (s.pending = .write .half (BitVec.ofNat 14 (0x2000 + 512 * n.toNat + 2 * i.val)) v :: rest →
      ∃ t, step s = .next t ∧ (lane (t.getP n) i).toNat = v.toNat % 65536 ∧
        (∀ m j, m ≠ n ∨ j ≠ i → lane (t.getP m) j = lane (s.getP m) j) ∧
        sameScalars s t ∧ sameBytes s t ∧ t.err = s.err ∧ t.code = s.code ∧ t.k = s.k ∧ t.ctr = s.ctr) ∧
    (s.pending = .read .half (BitVec.ofNat 14 (0x2000 + 512 * n.toNat + 2 * i.val)) :: rest →
      ∃ x : Word, x.toNat = (lane (s.getP n) i).toNat ∧
        step s = .next { s with pending := rest, responses := .readData x :: s.responses }) ∧
    ∀ h : i.val + 1 < 256, i.val % 2 = 0 →
      (s.pending = .write .word (BitVec.ofNat 14 (0x2000 + 512 * n.toNat + 2 * i.val)) v :: rest →
        ∃ t, step s = .next t ∧ (lane (t.getP n) i).toNat = v.toNat % 65536 ∧
          (lane (t.getP n) ⟨i.val + 1, h⟩).toNat = v.toNat / 65536 ∧
          (∀ m (j : Fin 256), m ≠ n ∨ (j.val ≠ i.val ∧ j.val ≠ i.val + 1) → lane (t.getP m) j = lane (s.getP m) j) ∧
          sameScalars s t ∧ sameBytes s t ∧ t.err = s.err ∧ t.code = s.code ∧ t.k = s.k ∧ t.ctr = s.ctr) ∧
      (s.pending = .read .word (BitVec.ofNat 14 (0x2000 + 512 * n.toNat + 2 * i.val)) :: rest →
        ∃ x : Word, x.toNat = (lane (s.getP n) i).toNat + 65536 * (lane (s.getP n) ⟨i.val + 1, h⟩).toNat ∧
          step s = .next { s with pending := rest, responses := .readData x :: s.responses })

/-! ## Reset -/

/-- R291, R264: a write to CTRL with bit 0 = 1 sets S0..S7, STATUS, PARAM.K and CTR to 0 and leaves every P coefficient and
every BUF byte as it was, in a halted block too. -/
def Obligations.SoftResetClearsAllButPAndBuf : Prop :=
  ∀ (s : State) (rest : List HostEvent) (v : Word), s.pending = .write .word 0x10 v :: rest → v.toNat % 2 = 1 →
    ∃ t, step s = .next t ∧ (∀ r, t.scalar r = 0) ∧ t.err = false ∧ t.code = 0 ∧ t.k = 0 ∧ t.ctr = 0 ∧
      samePolys s t ∧ sameBytes s t ∧ t.pending = rest ∧ t.responses = .writeDone :: s.responses

/-- R290, R34: after a hard reset S, STATUS, PARAM.K and CTR are 0, and P and BUF hold the parameters INIT_P and INIT_BUF,
whatever those are. -/
def Obligations.HardResetTakesAnyInitialContents : Prop :=
  ∀ (s : State) (rest : List HostEvent) (initP : Vector Poly256 16) (initBuf : List Byte) (hb : initBuf.length = 4096),
    s.pending = .hardReset initP initBuf :: rest →
      ∃ t, step s = .next t ∧ (∀ n : PReg, t.getP n = initP[n.toNat]'(n.isLt)) ∧
        (∀ a (h : a < 4096), t.buf.read a = initBuf[a]) ∧
        (∀ r, t.scalar r = 0) ∧ t.err = false ∧ t.code = 0 ∧ t.k = 0 ∧ t.ctr = 0 ∧ t.pending = rest

/-! ## Invariant, totality, errors, frames -/

/-- R34: the registers whose reset value the spec gives are 0 in `State.reset`, and it meets the invariant. -/
def Obligations.ResetStateMeetsTheInvariant : Prop :=
  State.reset.Inv ∧ (∀ r, State.reset.scalar r = 0) ∧ State.reset.err = false ∧ State.reset.code = 0 ∧
    State.reset.k = 0 ∧ State.reset.ctr = 0

/-- R25, R261: in every state that meets it, a step keeps it: BUF in canonical form, CODE 0 while ERR = 0, and one of the
four codes while ERR = 1. -/
def Obligations.StepKeepsTheInvariant : Prop :=
  ∀ s t : State, s.Inv → step s = .next t → t.Inv

/-- No step of the model ends in a fault or a refusal. That is the model's reading (DEDUCED, log entry 8) of R263, R271 and
R272: an error is a next state with STATUS changed, in which the block is halted and drops commands (R264), and a bus error
is an answer on the bus. -/
def Obligations.EveryStepAnswersANextState : Prop := ∀ s : State, ∃ t, step s = .next t

/-- R263: `raise Error(code)` sets CODE and ERR if ERR = 0 and changes nothing else; the codes are those of R261; and
whatever word it carries, the bus write to CMD completes normally. -/
def Obligations.RaiseErrorChangesOnlyStatus : Prop :=
  (∀ (c : ErrorCode) (s : State), (s.err = false → onlyStatus c.code s (raiseError c s)) ∧
    (s.err = true → raiseError c s = s)) ∧
  (∀ c : ErrorCode, c = .illegalCommand ∧ c.code = 1 ∨ c = .badK ∧ c.code = 2 ∨ c = .registerRange ∧ c.code = 3 ∨
    c = .bufferRange ∧ c.code = 4) ∧
  ∀ (s : State) (rest : List HostEvent) (w : Word), s.pending = commandWrite w :: rest →
    ∃ t, step s = .next t ∧ t.responses = .writeDone :: s.responses ∧ t.pending = rest

/-- R261, R262, R90 steps 3 and 4: a V-command with an illegal K raises Error(2); with a legal K and a vector past P15,
Error(3); any command that passes those checks and whose bytes do not fit in BUF, Error(4). Nothing else changes. -/
def Obligations.FirstFailedCheckIsTheError : Prop :=
  ∀ (i : Instr) (s : State), s.err = false →
    (isVCommand i = true → ¬ (s.k.toNat = 2 ∨ s.k.toNat = 3 ∨ s.k.toNat = 4) →
      exec i s = .next { s with err := true, code := 2 }) ∧
    (isVCommand i = true → (s.k.toNat = 2 ∨ s.k.toNat = 3 ∨ s.k.toNat = 4) →
      (∃ b ∈ vectorFields i, 16 < b.toNat + s.k.toNat) → exec i s = .next { s with err := true, code := 3 }) ∧
    ((isVCommand i = true → vectorsOk i s) → ∀ off len, bufferRange i s = some (off, len) →
      4096 < off.toNat + len → exec i s = .next { s with err := true, code := 4 })

/-- R90: "A command that passes them cannot fail": for each of the 35 commands, when the checks pass the command completes,
with STATUS and PARAM as before. -/
def Obligations.CommandCompletesWhenTheChecksPass : Prop :=
  ∀ (i : Instr) (s : State), checksPass i s → ∃ t, exec i s = .next t ∧ sameControl s t

/-- R33: no command writes PARAM, no command but REJ writes CTR, and no command touches the host's side. -/
def Obligations.NoCommandWritesParamAndOnlyRejWritesCtr : Prop :=
  ∀ (i : Instr) (s t : State), exec i s = .next t →
    t.k = s.k ∧ t.pending = s.pending ∧ t.responses = s.responses ∧ t.freeCount = s.freeCount ∧
      ((∀ d off a, i ≠ .rej d off a) → t.ctr = s.ctr)

/-- R33, R207 (c), R60: for each of the 35 commands, every polynomial register that is no destination, every scalar register
that is no destination and every byte outside the stored range is as before; so a source is never modified. -/
def Obligations.CommandChangesOnlyItsDestinations : Prop :=
  ∀ (i : Instr) (s t : State), exec i s = .next t →
    (∀ n, ¬ writesP i s n → t.getP n = s.getP n) ∧
    (∀ r, ¬ writesS i r → t.scalar r = s.scalar r) ∧
    (∀ a, ¬ storesByte i s a → t.buf.read a = s.buf.read a)

/-! ## Field operations -/

/-- R118: NOP is the all-zero word of format Z, and leaves all state unchanged; writing it to CMD, also while the block is
halted, does nothing but answer the write. -/
def Obligations.NopChangesNothing : Prop :=
  (Instr.nop.opcode = 0 ∧ Instr.nop.format = .Z ∧ encode .nop = 0 ∧ decode 0 = .ok .nop) ∧
    (∀ s : State, exec .nop s = .next s) ∧
    ∀ (s : State) (rest : List HostEvent), s.pending = commandWrite 0 :: rest →
      step s = .next { s with pending := rest, responses := .writeDone :: s.responses }

/-- R119: MONTRED reads all 32 bits of Sa and writes MontReduce, sign-extended, to Sd. -/
def Obligations.MontredWritesTheReduction : Prop :=
  ∀ (d a : SReg) (s : State), (Instr.montred d a).opcode = 0x01 ∧ (Instr.montred d a).format = .S2 ∧
    ∃ t, exec (.montred d a) s = .next t ∧ (t.getS d).toInt = Spec.montReduce (s.getS a).toInt ∧ onlyScalar d s t

/-- R120: MONTMUL reads bits 15:0 of Sa and Sb as int16 and writes MontReduce of the exact product, sign-extended. -/
def Obligations.MontmulWritesTheMontgomeryProduct : Prop :=
  ∀ (d a b : SReg) (s : State), (Instr.montmul d a b).opcode = 0x02 ∧ (Instr.montmul d a b).format = .S3 ∧
    ∃ t, exec (.montmul d a b) s = .next t ∧
      (t.getS d).toInt = Spec.montReduce (Int.bmod (s.getS a).toNat 65536 * Int.bmod (s.getS b).toNat 65536) ∧
      onlyScalar d s t

/-- R121: BARRETT reads bits 15:0 of Sa as int16 and writes BarrettReduce, always 0..3329. -/
def Obligations.BarrettWritesTheReduction : Prop :=
  ∀ (d a : SReg) (s : State), (Instr.barrett d a).opcode = 0x03 ∧ (Instr.barrett d a).format = .S2 ∧
    ∃ t, exec (.barrett d a) s = .next t ∧ (t.getS d).toInt = Spec.barrett (Int.bmod (s.getS a).toNat 65536) ∧
      0 ≤ (t.getS d).toInt ∧ (t.getS d).toInt ≤ 3329 ∧ onlyScalar d s t

/-- R122: CSUBQ reads bits 15:0 of Sa as int16 and writes CondSubQ, sign-extended. -/
def Obligations.CsubqWritesTheConditionalDifference : Prop :=
  ∀ (d a : SReg) (s : State), (Instr.csubq d a).opcode = 0x04 ∧ (Instr.csubq d a).format = .S2 ∧
    ∃ t, exec (.csubq d a) s = .next t ∧ (t.getS d).toInt = Spec.condSubQ (Int.bmod (s.getS a).toNat 65536) ∧
      onlyScalar d s t

/-- R112: under |a| < q*2^15 MontReduce is congruent to a*R^-1 and lies in (-q, q). -/
def Obligations.MontReduceIsCongruentAndBounded : Prop :=
  ∀ a : Word, -109084672 < a.toInt → a.toInt < 109084672 →
    ((montReduce a).toInt * 65536 - a.toInt) % 3329 = 0 ∧ -3329 < (montReduce a).toInt ∧ (montReduce a).toInt < 3329

/-- R113: MontMul with one operand in (-q, q) and any int16 is congruent to a*b*R^-1 and lies in (-q, q); it is commutative;
the pair |a| = q, b = -32768 returns 0 or q. -/
def Obligations.MontMulOfASmallOperand : Prop :=
  (∀ a b : Coeff, -3329 < a.toInt → a.toInt < 3329 →
    ((montMul a b).toInt * 65536 - a.toInt * b.toInt) % 3329 = 0 ∧
      -3329 < (montMul a b).toInt ∧ (montMul a b).toInt < 3329) ∧
  (∀ a b : Coeff, montMul a b = montMul b a) ∧
  montMul 3329 (-32768) = 0 ∧ montMul (-3329) (-32768) = 3329

/-- R115: BarrettReduce is a - ((20159*a) >> 26)*q, and that is a mod q for every int16 except a = -3329*m, m = 1..9,
where it is 3329. -/
def Obligations.BarrettReduceOverAllInputs : Prop :=
  ∀ a : Coeff, (barrettReduce a).toInt = Spec.barrett a.toInt ∧ (barrettReduce a).toInt =
    if a.toInt < 0 ∧ -29961 ≤ a.toInt ∧ a.toInt % 3329 = 0 then 3329 else a.toInt % 3329

/-- R116: CondSubQ: a negative input is unchanged, [0, 2q) goes to [0, q), 2q and more has q subtracted once; and it is the
branchless formula with the exact difference. -/
def Obligations.CondSubQOverAllInputs : Prop :=
  ∀ a : Coeff, (a.toInt < 3329 → condSubQ a = a) ∧ (3329 ≤ a.toInt → (condSubQ a).toInt = a.toInt - 3329) ∧
    (0 ≤ a.toInt → a.toInt < 6658 → 0 ≤ (condSubQ a).toInt ∧ (condSubQ a).toInt < 3329) ∧
    (condSubQ a).toInt = Spec.wrap16 (a.toInt - 3329 + if a.toInt - 3329 < 0 then 3329 else 0)

/-! ## Polynomial arithmetic -/

/-- R161, R162: PADD and PSUB, lane by lane, with wrap16. -/
def Obligations.PolyAddAndSubLanes : Prop :=
  ∀ (d a b : PReg) (s : State),
    ((Instr.padd d a b).opcode = 0x10 ∧ (Instr.padd d a b).format = .P3 ∧
      ∃ t, exec (.padd d a b) s = .next t ∧
        (∀ i, (lane (t.getP d) i).toInt = Spec.wrap16 ((lane (s.getP a) i).toInt + (lane (s.getP b) i).toInt)) ∧
        onlyPolys d 1 s t) ∧
    ((Instr.psub d a b).opcode = 0x11 ∧ (Instr.psub d a b).format = .P3 ∧
      ∃ t, exec (.psub d a b) s = .next t ∧
        (∀ i, (lane (t.getP d) i).toInt = Spec.wrap16 ((lane (s.getP a) i).toInt - (lane (s.getP b) i).toInt)) ∧
        onlyPolys d 1 s t)

/-- R163, R164, R166: PREDUCE, PCSUBQ and PTOMONT, op 0x12, 0x13 and 0x14, lane by lane. -/
def Obligations.PolyReduceCsubqToMontLanes : Prop :=
  ∀ (d a : PReg) (s : State),
    ((Instr.preduce d a).opcode = 0x12 ∧ (Instr.preduce d a).format = .P2 ∧
      ∃ t, exec (.preduce d a) s = .next t ∧
      (∀ i, (lane (t.getP d) i).toInt = Spec.barrett (lane (s.getP a) i).toInt) ∧ onlyPolys d 1 s t) ∧
    ((Instr.pcsubq d a).opcode = 0x13 ∧ (Instr.pcsubq d a).format = .P2 ∧
      ∃ t, exec (.pcsubq d a) s = .next t ∧
      (∀ i, (lane (t.getP d) i).toInt = Spec.condSubQ (lane (s.getP a) i).toInt) ∧ onlyPolys d 1 s t) ∧
    ((Instr.ptomont d a).opcode = 0x14 ∧ (Instr.ptomont d a).format = .P2 ∧
      ∃ t, exec (.ptomont d a) s = .next t ∧
      (∀ i, (lane (t.getP d) i).toInt = Spec.montReduce ((lane (s.getP a) i).toInt * 1353) ∧
        ((lane (t.getP d) i).toInt - (lane (s.getP a) i).toInt * 65536) % 3329 = 0 ∧
        -3329 < (lane (t.getP d) i).toInt ∧ (lane (t.getP d) i).toInt < 3329) ∧ onlyPolys d 1 s t)

/-! ## Transforms -/

/-- R84, R142, R143, R144: PNTT, PINVNTT and PBASEMUL write NTT, InvNTT and BaseMul of their sources. -/
def Obligations.TransformCommandsWriteTheirResult : Prop :=
  ∀ (d a b : PReg) (s : State),
    ((Instr.pntt d a).opcode = 0x15 ∧ (Instr.pntt d a).format = .P2 ∧
      ∃ t, exec (.pntt d a) s = .next t ∧ t.getP d = ntt (s.getP a) ∧ onlyPolys d 1 s t) ∧
    ((Instr.pinvntt d a).opcode = 0x16 ∧ (Instr.pinvntt d a).format = .P2 ∧
      ∃ t, exec (.pinvntt d a) s = .next t ∧ t.getP d = invNtt (s.getP a) ∧ onlyPolys d 1 s t) ∧
    ((Instr.pbasemul d a b).opcode = 0x17 ∧ (Instr.pbasemul d a b).format = .P3 ∧
      ∃ t, exec (.pbasemul d a b) s = .next t ∧ t.getP d = baseMul (s.getP a) (s.getP b) ∧ onlyPolys d 1 s t)

/-- R132, R133: the two tables are what their formulas give: zetas[i] = 2^16 * 17^brv7(i) mod q, zetas_inv[i] =
(q - zetas[127-i]) mod q and zetas_inv[127] = 1441. -/
def Obligations.ZetaTablesMatchTheirFormulas : Prop :=
  Config.zetas.length = 128 ∧ Config.zetasInv.length = 128 ∧
    (∀ i : BitVec 7, (Config.zetas.getD i.toNat 0).toNat = 65536 * 17 ^ i.reverse.toNat % 3329) ∧
    (∀ i < 127, (Config.zetasInv.getD i 0).toNat = (3329 - (Config.zetas.getD (127 - i) 0).toNat) % 3329) ∧
    Config.zetasInv.getD 127 0 = 1441

/-- R134 to R136, R138: the transforms are, bit for bit, the loops the spec writes over the butterflies the spec writes,
every pair updated in place: NTT with k from 1 and len from 128 down to 2, InvNTT with k from 0 and len from 2 up to 128, then
every coefficient times entry 127. Nothing of the right-hand sides but the tables is the model's. -/
def Obligations.TransformsAreTheLoopsOfTheSpec : Prop :=
  (∀ p : Poly256, (ntt p).coeffs = Spec.loopLayers Spec.ctAt Config.zetas [128, 64, 32, 16, 8, 4, 2] 1 p.coeffs) ∧
  ∀ p : Poly256, (invNtt p).coeffs =
    (Spec.loopLayers Spec.gsAt Config.zetasInv [2, 4, 8, 16, 32, 64, 128] 0 p.coeffs).map fun c =>
      Spec.int16 (Spec.montMul c.toInt 1441)

/-- R137: if every |p[i]| <= B and B <= 9471, no wrap fires and every |NTT(p)[i]| <= B + 7*(q-1). -/
def Obligations.NttGrowsByAtMostSevenTimesQ : Prop :=
  ∀ (p : Poly256) (B : Int), B ≤ 9471 → (∀ i, -B ≤ (lane p i).toInt ∧ (lane p i).toInt ≤ B) →
    ∀ i, -(B + 7 * 3328) ≤ (lane (ntt p) i).toInt ∧ (lane (ntt p) i).toInt ≤ B + 7 * 3328

/-- R145: what the positions of NTT(p) mean when no wrap fires: the residues of p modulo X^2 - zeta_b and X^2 + zeta_b,
zeta_b = 17^brv7(64+b). -/
def Obligations.NttGivesTheResiduesModuloTheQuadraticFactors : Prop :=
  ∀ (p : Poly256), (∀ i, -9464 ≤ (lane p i).toInt ∧ (lane p i).toInt ≤ 9464) →
    ∀ (b : BitVec 6) (e : Nat) (_ : e < 2),
      ((ntt p).coeffs.getD (4 * b.toNat + e) 0).toInt % 3329 =
        ((List.range 128).map fun j =>
          (p.coeffs.getD (2 * j + e) 0).toInt * ((17 : Int) ^ (BitVec.ofNat 7 (64 + b.toNat)).reverse.toNat) ^ j).sum % 3329 ∧
      ((ntt p).coeffs.getD (4 * b.toNat + 2 + e) 0).toInt % 3329 =
        ((List.range 128).map fun j =>
          (p.coeffs.getD (2 * j + e) 0).toInt * (-(17 : Int) ^ (BitVec.ofNat 7 (64 + b.toNat)).reverse.toNat) ^ j).sum % 3329

/-- R139: every output of InvNTT is in (-q, q), and with no wrap InvNTT(NTT(p))[i] = p[i] * R (mod q). -/
def Obligations.InvNttUndoesNttUpToTheMontgomeryFactor : Prop :=
  (∀ (p : Poly256) (i : Fin 256), -3329 < (lane (invNtt p) i).toInt ∧ (lane (invNtt p) i).toInt < 3329) ∧
  ∀ p : Poly256, (∀ i, -9464 ≤ (lane p i).toInt ∧ (lane p i).toInt ≤ 9464) →
    (∀ i, -16383 ≤ (lane (ntt p) i).toInt ∧ (lane (ntt p) i).toInt ≤ 16383) →
      ∀ i, ((lane (invNtt (ntt p)) i).toInt - (lane p i).toInt * 65536) % 3329 = 0

/-- R140, R141: the four coefficients of BaseMul at 4i to 4i+3, from MontMul with zetas[64+i] and its negation. -/
def Obligations.BaseMulLanes : Prop :=
  ∀ (a b : Poly256) (i : Nat), i < 64 →
    let z := Config.zetas.getD (64 + i) 0
    let x := fun j => a.coeffs.getD (4 * i + j) 0
    let y := fun j => b.coeffs.getD (4 * i + j) 0
    let r := fun j => (baseMul a b).coeffs.getD (4 * i + j) 0
    r 0 = addCoeff (montMul (montMul (x 1) (y 1)) z) (montMul (x 0) (y 0)) ∧
      r 1 = addCoeff (montMul (x 0) (y 1)) (montMul (x 1) (y 0)) ∧
      r 2 = addCoeff (montMul (montMul (x 3) (y 3)) (-z)) (montMul (x 2) (y 2)) ∧
      r 3 = addCoeff (montMul (x 2) (y 3)) (montMul (x 3) (y 2))

/-- R140: when every coefficient product is inside MontMul's precondition, the base product of a pair carries one factor
R^-1: r0 = (a0 b0 + zeta a1 b1) * R^-1 and r1 = (a0 b1 + a1 b0) * R^-1 (mod q), both in (-2q, 2q), for z = zeta * R. -/
def Obligations.BaseMulPairCarriesOneInverseFactor : Prop :=
  ∀ (a0 a1 b0 b1 z : Coeff) (zeta : Int), -3329 < z.toInt → z.toInt < 3329 → (z.toInt - zeta * 65536) % 3329 = 0 →
    (∀ x y : Int, (x = a0.toInt ∨ x = a1.toInt) → (y = b0.toInt ∨ y = b1.toInt) →
      -109084672 < x * y ∧ x * y < 109084672) →
    let r := baseMul2 a0 a1 b0 b1 z
    (r.1.toInt * 65536 - (a0.toInt * b0.toInt + zeta * a1.toInt * b1.toInt)) % 3329 = 0 ∧
      (r.2.toInt * 65536 - (a0.toInt * b1.toInt + a1.toInt * b0.toInt)) % 3329 = 0 ∧
      -6658 < r.1.toInt ∧ r.1.toInt < 6658 ∧ -6658 < r.2.toInt ∧ r.2.toInt < 6658

/-! ## Polynomial vectors -/

/-- R84, R182, R183: VADD and VSUB add and subtract component by component, on the sources before any write. -/
def Obligations.VectorAddAndSubComponents : Prop :=
  ∀ (d a b : PReg) (s : State), (s.k.toNat = 2 ∨ s.k.toNat = 3 ∨ s.k.toNat = 4) →
    d.toNat + s.k.toNat ≤ 16 → a.toNat + s.k.toNat ≤ 16 → b.toNat + s.k.toNat ≤ 16 →
    ((Instr.vadd d a b).opcode = 0x20 ∧ (Instr.vadd d a b).format = .P3 ∧
      ∃ t, exec (.vadd d a b) s = .next t ∧
      (∀ j < s.k.toNat, ∀ i, (lane (t.getP (d + BitVec.ofNat 4 j)) i).toInt =
        Spec.wrap16 ((lane (s.getP (a + BitVec.ofNat 4 j)) i).toInt + (lane (s.getP (b + BitVec.ofNat 4 j)) i).toInt)) ∧
      onlyPolys d s.k.toNat s t) ∧
    ((Instr.vsub d a b).opcode = 0x21 ∧ (Instr.vsub d a b).format = .P3 ∧
      ∃ t, exec (.vsub d a b) s = .next t ∧
      (∀ j < s.k.toNat, ∀ i, (lane (t.getP (d + BitVec.ofNat 4 j)) i).toInt =
        Spec.wrap16 ((lane (s.getP (a + BitVec.ofNat 4 j)) i).toInt - (lane (s.getP (b + BitVec.ofNat 4 j)) i).toInt)) ∧
      onlyPolys d s.k.toNat s t)

/-- R84, R184 to R187: VREDUCE, VCSUBQ, VNTT and VINVNTT apply the polynomial function to each component. -/
def Obligations.VectorMapComponents : Prop :=
  ∀ (d a : PReg) (s : State), (s.k.toNat = 2 ∨ s.k.toNat = 3 ∨ s.k.toNat = 4) →
    d.toNat + s.k.toNat ≤ 16 → a.toNat + s.k.toNat ≤ 16 →
    ((Instr.vreduce d a).opcode = 0x22 ∧ (Instr.vreduce d a).format = .P2 ∧
      ∃ t, exec (.vreduce d a) s = .next t ∧
      (∀ j < s.k.toNat, ∀ i, (lane (t.getP (d + BitVec.ofNat 4 j)) i).toInt =
        Spec.barrett (lane (s.getP (a + BitVec.ofNat 4 j)) i).toInt) ∧ onlyPolys d s.k.toNat s t) ∧
    ((Instr.vcsubq d a).opcode = 0x23 ∧ (Instr.vcsubq d a).format = .P2 ∧
      ∃ t, exec (.vcsubq d a) s = .next t ∧
      (∀ j < s.k.toNat, ∀ i, (lane (t.getP (d + BitVec.ofNat 4 j)) i).toInt =
        Spec.condSubQ (lane (s.getP (a + BitVec.ofNat 4 j)) i).toInt) ∧ onlyPolys d s.k.toNat s t) ∧
    ((Instr.vntt d a).opcode = 0x25 ∧ (Instr.vntt d a).format = .P2 ∧
      ∃ t, exec (.vntt d a) s = .next t ∧
      (∀ j < s.k.toNat, t.getP (d + BitVec.ofNat 4 j) = ntt (s.getP (a + BitVec.ofNat 4 j))) ∧
      onlyPolys d s.k.toNat s t) ∧
    ((Instr.vinvntt d a).opcode = 0x26 ∧ (Instr.vinvntt d a).format = .P2 ∧
      ∃ t, exec (.vinvntt d a) s = .next t ∧
      (∀ j < s.k.toNat, t.getP (d + BitVec.ofNat 4 j) = invNtt (s.getP (a + BitVec.ofNat 4 j))) ∧
      onlyPolys d s.k.toNat s t)

/-- R84, R188: VACC writes to the one register Pd the Barrett reduction of the int16 sum of the base products of the K
components, in [0, q] whatever the operands. -/
def Obligations.VaccAccumulatesBaseProducts : Prop :=
  ∀ (d a b : PReg) (s : State), (s.k.toNat = 2 ∨ s.k.toNat = 3 ∨ s.k.toNat = 4) →
    a.toNat + s.k.toNat ≤ 16 → b.toNat + s.k.toNat ≤ 16 →
    (Instr.vacc d a b).opcode = 0x27 ∧ (Instr.vacc d a b).format = .P3 ∧ ∃ t, exec (.vacc d a b) s = .next t ∧
      (∀ i, (lane (t.getP d) i).toInt = Spec.barrett (Spec.wrap16
        ((List.range s.k.toNat).map fun j =>
          (lane (baseMul (s.getP (a + BitVec.ofNat 4 j)) (s.getP (b + BitVec.ofNat 4 j))) i).toInt).sum)) ∧
      (∀ i, 0 ≤ (lane (t.getP d) i).toInt ∧ (lane (t.getP d) i).toInt ≤ 3329) ∧
      onlyPolys d 1 s t

/-! ## Codec: pure functions -/

/-- R200: Pack(d, t) has m*d/8 bytes, value i stands in bits d*i to d*i + d - 1 of the stream of its bytes, and Unpack is
its inverse. -/
def Obligations.PackPlacesEachValueAndUnpackInverts : Prop :=
  ∀ (d : Nat) (ts : List Nat), (∀ t ∈ ts, t < 2 ^ d) → ts.length * d % 8 = 0 →
    (pack d ts).length = ts.length * d / 8 ∧
      (∀ i (h : i < ts.length), bytesToNat (pack d ts) / 2 ^ (d * i) % 2 ^ d = ts[i]) ∧
      unpack d (pack d ts) ts.length = ts

/-- R201, R202: Compress_d and Decompress_d, as the rounding formulas, with their ranges; on [0, 2q) Compress_d is that of
c mod q. -/
def Obligations.CompressAndDecompressFormulas : Prop :=
  ∀ d, (d = 1 ∨ d = 4 ∨ d = 5 ∨ d = 10 ∨ d = 11) →
    (∀ c : Coeff, compress d c = ((condSubQ c).toNat * 2 ^ d + 1664) / 3329 % 2 ^ d ∧ compress d c < 2 ^ d) ∧
    (∀ c : Coeff, c.toNat < 6658 → compress d c = (c.toNat % 3329 * 2 ^ d + 1664) / 3329 % 2 ^ d) ∧
    (∀ t, t < 2 ^ d → (decompress d t).toNat = (t * 3329 + 2 ^ (d - 1)) / 2 ^ d ∧ (decompress d t).toNat < 3329)

/-- R203: the three bytes of each pair of coefficients, from the 16-bit patterns that CondSubQ leaves. -/
def Obligations.ToBytesFormulas : Prop :=
  ∀ (p : Poly256) (i : Nat), i < 128 →
    let c0 := (condSubQ (p.coeffs.getD (2 * i) 0)).toNat
    let c1 := (condSubQ (p.coeffs.getD (2 * i + 1) 0)).toNat
    (toBytes p).length = 384 ∧ ((toBytes p).getD (3 * i) 0).toNat = c0 % 256 ∧
      ((toBytes p).getD (3 * i + 1) 0).toNat = (c0 / 256 ||| c1 % 16 * 16) % 256 ∧
      ((toBytes p).getD (3 * i + 2) 0).toNat = c1 / 16 % 256

/-- R204: the two coefficients of each three bytes, every output in [0, 4095], nothing reduced. -/
def Obligations.FromBytesFormulas : Prop :=
  ∀ bs : List Byte, bs.length = 384 → ∀ i < 128,
    ((fromBytes bs).coeffs.getD (2 * i) 0).toNat =
      (bs.getD (3 * i) 0).toNat + 256 * ((bs.getD (3 * i + 1) 0).toNat % 16) ∧
    ((fromBytes bs).coeffs.getD (2 * i + 1) 0).toNat =
      (bs.getD (3 * i + 1) 0).toNat / 16 + 16 * (bs.getD (3 * i + 2) 0).toNat

/-- R223, P4: for every p with coefficients in [0, 2q), fromBytes(toBytes(p)) = csubq(p). -/
def Obligations.FromBytesOfToBytesIsCsubq : Prop :=
  ∀ p : Poly256, (∀ i, 0 ≤ (lane p i).toInt ∧ (lane p i).toInt < 6658) → fromBytes (toBytes p) = mapLanes condSubQ p

/-- R223, P5: decompress_d(compress_d(c)) differs from c by at most ceil(q/2^(d+1)), mod q, with the worst cases the rule
lists. -/
def Obligations.DecompressOfCompressIsClose : Prop :=
  ∀ (c : Coeff), c.toNat < 3329 → ∀ d bound, (d, bound) ∈ [(1, 832), (4, 104), (5, 52), (10, 2), (11, 1)] →
    ∃ e : Int, -bound ≤ e ∧ e ≤ bound ∧ ((decompress d (compress d c)).toInt - c.toInt - e) % 3329 = 0

/-- R205, R206: coefficient i of FromMsg is 1665 times bit i of the message, least significant first; bit i of ToMsg is the
rounded value of coefficient i after CondSubQ; and ToMsg(FromMsg(m)) = m. -/
def Obligations.MessageBitsRoundTrip : Prop :=
  (∀ p : Poly256, (toMsg p).length = 32 ∧ ∀ i : Fin 256, ((toMsg p).getD (i.val / 8) 0).toNat / 2 ^ (i.val % 8) % 2 =
    (2 * (condSubQ (lane p i)).toNat + 1664) / 3329 % 2) ∧
  ∀ m : List Byte, m.length = 32 →
    (∀ i : Fin 256, (lane (fromMsg m) i).toNat = 1665 * ((m.getD (i.val / 8) 0).toNat / 2 ^ (i.val % 8) % 2)) ∧
      toMsg (fromMsg m) = m

/-! ## Codec: commands -/

/-- R84, R207, R208, R210, R211, R215: the store-type commands on one register write exactly their L bytes at off and modify no
register. -/
def Obligations.PolyStoresWriteTheirBytes : Prop :=
  ∀ (off : BufOffset) (a : PReg) (s : State),
    ((Instr.ptobytes off a).opcode = 0x30 ∧ (Instr.ptobytes off a).format = .ST) ∧
    (off.toNat + 384 ≤ 4096 → ∃ t, exec (.ptobytes off a) s = .next t ∧
      t.memRead off.toNat 384 = toBytes (s.getP a) ∧ onlyBytes off.toNat 384 s t) ∧
    ((Instr.pcomp4 off a).opcode = 0x32 ∧ (Instr.pcomp4 off a).format = .ST) ∧
    (off.toNat + 128 ≤ 4096 → ∃ t, exec (.pcomp4 off a) s = .next t ∧
      t.memRead off.toNat 128 = pack 4 ((s.getP a).coeffs.map (compress 4)) ∧ onlyBytes off.toNat 128 s t) ∧
    ((Instr.pcomp5 off a).opcode = 0x33 ∧ (Instr.pcomp5 off a).format = .ST) ∧
    (off.toNat + 160 ≤ 4096 → ∃ t, exec (.pcomp5 off a) s = .next t ∧
      t.memRead off.toNat 160 = pack 5 ((s.getP a).coeffs.map (compress 5)) ∧ onlyBytes off.toNat 160 s t) ∧
    ((Instr.ptomsg off a).opcode = 0x37 ∧ (Instr.ptomsg off a).format = .ST) ∧
    (off.toNat + 32 ≤ 4096 → ∃ t, exec (.ptomsg off a) s = .next t ∧
      t.memRead off.toNat 32 = pack 1 ((s.getP a).coeffs.map (compress 1)) ∧ onlyBytes off.toNat 32 s t)

/-- R84, R207, R209, R212, R213, R214: the load-type commands on one register write all 256 coefficients of Pd from L bytes. -/
def Obligations.PolyLoadsWriteTheirRegister : Prop :=
  ∀ (d : PReg) (off : BufOffset) (s : State),
    ((Instr.pfrombytes d off).opcode = 0x31 ∧ (Instr.pfrombytes d off).format = .LD) ∧
    (off.toNat + 384 ≤ 4096 → ∃ t, exec (.pfrombytes d off) s = .next t ∧
      t.getP d = fromBytes (s.memRead off.toNat 384) ∧ onlyPolys d 1 s t) ∧
    ((Instr.pdecomp4 d off).opcode = 0x34 ∧ (Instr.pdecomp4 d off).format = .LD) ∧
    (off.toNat + 128 ≤ 4096 → ∃ t, exec (.pdecomp4 d off) s = .next t ∧
      (∀ i : Fin 256, lane (t.getP d) i =
        decompress 4 (bytesToNat (s.memRead off.toNat 128) / 2 ^ (4 * i.val) % 2 ^ 4)) ∧ onlyPolys d 1 s t) ∧
    ((Instr.pdecomp5 d off).opcode = 0x35 ∧ (Instr.pdecomp5 d off).format = .LD) ∧
    (off.toNat + 160 ≤ 4096 → ∃ t, exec (.pdecomp5 d off) s = .next t ∧
      (∀ i : Fin 256, lane (t.getP d) i =
        decompress 5 (bytesToNat (s.memRead off.toNat 160) / 2 ^ (5 * i.val) % 2 ^ 5)) ∧ onlyPolys d 1 s t) ∧
    ((Instr.pfrommsg d off).opcode = 0x36 ∧ (Instr.pfrommsg d off).format = .LD) ∧
    (off.toNat + 32 ≤ 4096 → ∃ t, exec (.pfrommsg d off) s = .next t ∧
      t.getP d = fromMsg (s.memRead off.toNat 32) ∧ onlyPolys d 1 s t)

/-- R62, R84, R207, R216, R218, R219: the store-type commands on a vector write component j at off + (L/K)*j and nothing else. -/
def Obligations.VectorStoresWriteTheirBytes : Prop :=
  ∀ (off : BufOffset) (a : PReg) (s : State), (s.k.toNat = 2 ∨ s.k.toNat = 3 ∨ s.k.toNat = 4) →
    a.toNat + s.k.toNat ≤ 16 →
    ((Instr.vtobytes off a).opcode = 0x40 ∧ (Instr.vtobytes off a).format = .ST) ∧
    (off.toNat + 384 * s.k.toNat ≤ 4096 → ∃ t, exec (.vtobytes off a) s = .next t ∧
      (∀ j < s.k.toNat, t.memRead (off.toNat + 384 * j) 384 = toBytes (s.getP (a + BitVec.ofNat 4 j))) ∧
      onlyBytes off.toNat (384 * s.k.toNat) s t) ∧
    ((Instr.vcomp10 off a).opcode = 0x42 ∧ (Instr.vcomp10 off a).format = .ST) ∧
    (off.toNat + 320 * s.k.toNat ≤ 4096 → ∃ t, exec (.vcomp10 off a) s = .next t ∧
      (∀ j < s.k.toNat, t.memRead (off.toNat + 320 * j) 320 =
        pack 10 ((s.getP (a + BitVec.ofNat 4 j)).coeffs.map (compress 10))) ∧
      onlyBytes off.toNat (320 * s.k.toNat) s t) ∧
    ((Instr.vcomp11 off a).opcode = 0x43 ∧ (Instr.vcomp11 off a).format = .ST) ∧
    (off.toNat + 352 * s.k.toNat ≤ 4096 → ∃ t, exec (.vcomp11 off a) s = .next t ∧
      (∀ j < s.k.toNat, t.memRead (off.toNat + 352 * j) 352 =
        pack 11 ((s.getP (a + BitVec.ofNat 4 j)).coeffs.map (compress 11))) ∧
      onlyBytes off.toNat (352 * s.k.toNat) s t)

/-- R62, R84, R207, R217, R220, R221: the load-type commands on a vector fill P[d+j] from the bytes at off + (L/K)*j. -/
def Obligations.VectorLoadsWriteTheirRegisters : Prop :=
  ∀ (d : PReg) (off : BufOffset) (s : State), (s.k.toNat = 2 ∨ s.k.toNat = 3 ∨ s.k.toNat = 4) →
    d.toNat + s.k.toNat ≤ 16 →
    ((Instr.vfrombytes d off).opcode = 0x41 ∧ (Instr.vfrombytes d off).format = .LD) ∧
    (off.toNat + 384 * s.k.toNat ≤ 4096 → ∃ t, exec (.vfrombytes d off) s = .next t ∧
      (∀ j < s.k.toNat, t.getP (d + BitVec.ofNat 4 j) = fromBytes (s.memRead (off.toNat + 384 * j) 384)) ∧
      onlyPolys d s.k.toNat s t) ∧
    ((Instr.vdecomp10 d off).opcode = 0x44 ∧ (Instr.vdecomp10 d off).format = .LD) ∧
    (off.toNat + 320 * s.k.toNat ≤ 4096 → ∃ t, exec (.vdecomp10 d off) s = .next t ∧
      (∀ j < s.k.toNat, ∀ i : Fin 256, lane (t.getP (d + BitVec.ofNat 4 j)) i =
        decompress 10 (bytesToNat (s.memRead (off.toNat + 320 * j) 320) / 2 ^ (10 * i.val) % 2 ^ 10)) ∧
      onlyPolys d s.k.toNat s t) ∧
    ((Instr.vdecomp11 d off).opcode = 0x45 ∧ (Instr.vdecomp11 d off).format = .LD) ∧
    (off.toNat + 352 * s.k.toNat ≤ 4096 → ∃ t, exec (.vdecomp11 d off) s = .next t ∧
      (∀ j < s.k.toNat, ∀ i : Fin 256, lane (t.getP (d + BitVec.ofNat 4 j)) i =
        decompress 11 (bytesToNat (s.memRead (off.toNat + 352 * j) 352) / 2 ^ (11 * i.val) % 2 ^ 11)) ∧
      onlyPolys d s.k.toNat s t)

/-! ## Sampler -/

/-- R84, R242, R243: REJ puts the candidates below q, in order, into the places from CTR on until 256 are there; every other
coefficient is as before, and CTR advances by the number stored. The candidates are the 12-bit values of each three bytes
(R241); a tail of one or two bytes gives none. -/
def Obligations.RejStoresTheAcceptedCandidates : Prop :=
  ∀ (d : PReg) (off : BufOffset) (a : SReg) (s : State), off.toNat + (s.getS a).toNat ≤ 4096 →
    let candidates := fromBytesList (s.memRead off.toNat (s.getS a).toNat)
    let stored := (candidates.filter fun v => v.toNat < 3329).take (256 - s.ctr.toNat)
    (Instr.rej d off a).opcode = 0x50 ∧ (Instr.rej d off a).format = .RJ ∧
    ∃ t, exec (.rej d off a) s = .next t ∧ t.ctr.toNat = s.ctr.toNat + stored.length ∧
      (∀ i : Fin 256, lane (t.getP d) i =
        if s.ctr.toNat ≤ i.val ∧ i.val < s.ctr.toNat + stored.length then stored.getD (i.val - s.ctr.toNat) 0
        else lane (s.getP d) i) ∧
      (∀ n, n ≠ d → t.getP n = s.getP n) ∧ sameScalars s t ∧ sameBytes s t ∧ sameControl s t

/-- R240, R243: one polynomial can be filled from several buffers. REJ on a buffer of whole triples, then REJ on another
buffer in any state with the P[d] and CTR that the first leaves, gives the P[d] and CTR of one sampling of the joined bytes;
where those fit in BUF, that is what one REJ on them gives. -/
def Obligations.SamplingResumesAcrossBuffers : Prop :=
  (∀ (xs ys : List Byte) (pc : Poly256 × Nat), xs.length % 3 = 0 →
    rejUniform (xs ++ ys) pc = rejUniform ys (rejUniform xs pc)) ∧
  ∀ (d : PReg) (off off' : BufOffset) (a a' : SReg) (s s' t : State),
    off.toNat + (s.getS a).toNat ≤ 4096 → off'.toNat + (s'.getS a').toNat ≤ 4096 → (s.getS a).toNat % 3 = 0 →
    exec (.rej d off a) s = .next t → s'.getP d = t.getP d → s'.ctr = t.ctr →
    let joined := s.memRead off.toNat (s.getS a).toNat ++ s'.memRead off'.toNat (s'.getS a').toNat
    ∃ t', exec (.rej d off' a') s' = .next t' ∧
      (t'.getP d, t'.ctr.toNat) = rejUniform joined (s.getP d, s.ctr.toNat) ∧
      ∀ (off'' : BufOffset) (a'' : SReg) (s'' : State), off''.toNat + (s''.getS a'').toNat ≤ 4096 →
        s''.memRead off''.toNat (s''.getS a'').toNat = joined → s''.getP d = s.getP d → s''.ctr = s.ctr →
        ∃ t'', exec (.rej d off'' a'') s'' = .next t'' ∧ t''.getP d = t'.getP d ∧ t''.ctr = t'.ctr

/-! ## The product in Rq -/

/-- R139: InvNTT(BaseMul(NTT(a), NTT(b))) = a * b in Rq, mod q and with no factor left, when no wrap fires: the inputs within
R137's bound, and every product of two coefficients in the base multiplication inside MontMul's precondition (R140). -/
def Obligations.InvNttOfBaseMulIsTheRingProduct : Prop :=
  ∀ a b : Poly256, (∀ i, -9464 ≤ (lane a i).toInt ∧ (lane a i).toInt ≤ 9464) →
    (∀ i, -9464 ≤ (lane b i).toInt ∧ (lane b i).toInt ≤ 9464) →
    (∀ i j : Fin 256, i.val / 2 = j.val / 2 →
      -109084672 < (lane (ntt a) i).toInt * (lane (ntt b) j).toInt ∧
        (lane (ntt a) i).toInt * (lane (ntt b) j).toInt < 109084672) →
    ∀ i : Fin 256, ((lane (invNtt (baseMul (ntt a) (ntt b))) i).toInt - Spec.ringProduct a b i.val) % 3329 = 0
end

