-- ==== Sys2Proof/Laws/State.lean ====
section
/-! SUPPORT. The fields of a state after each update: one lemma per field per update. -/

namespace Sys2Proof.Machine

/-! ### setS -/

@[simp] theorem State.setS_pRegs (s : State) (r : SReg) (v : Word) : (s.setS r v).pRegs = s.pRegs := rfl
@[simp] theorem State.setS_buf (s : State) (r : SReg) (v : Word) : (s.setS r v).buf = s.buf := rfl
@[simp] theorem State.setS_err (s : State) (r : SReg) (v : Word) : (s.setS r v).err = s.err := rfl
@[simp] theorem State.setS_code (s : State) (r : SReg) (v : Word) : (s.setS r v).code = s.code := rfl
@[simp] theorem State.setS_k (s : State) (r : SReg) (v : Word) : (s.setS r v).k = s.k := rfl
@[simp] theorem State.setS_ctr (s : State) (r : SReg) (v : Word) : (s.setS r v).ctr = s.ctr := rfl
@[simp] theorem State.setS_pending (s : State) (r : SReg) (v : Word) : (s.setS r v).pending = s.pending := rfl
@[simp] theorem State.setS_responses (s : State) (r : SReg) (v : Word) : (s.setS r v).responses = s.responses := rfl
@[simp] theorem State.setS_freeCount (s : State) (r : SReg) (v : Word) : (s.setS r v).freeCount = s.freeCount := rfl

/-! ### setP -/

@[simp] theorem State.setP_sRegs (s : State) (n : PReg) (p : Poly256) : (s.setP n p).sRegs = s.sRegs := rfl
@[simp] theorem State.setP_buf (s : State) (n : PReg) (p : Poly256) : (s.setP n p).buf = s.buf := rfl
@[simp] theorem State.setP_err (s : State) (n : PReg) (p : Poly256) : (s.setP n p).err = s.err := rfl
@[simp] theorem State.setP_code (s : State) (n : PReg) (p : Poly256) : (s.setP n p).code = s.code := rfl
@[simp] theorem State.setP_k (s : State) (n : PReg) (p : Poly256) : (s.setP n p).k = s.k := rfl
@[simp] theorem State.setP_ctr (s : State) (n : PReg) (p : Poly256) : (s.setP n p).ctr = s.ctr := rfl
@[simp] theorem State.setP_pending (s : State) (n : PReg) (p : Poly256) : (s.setP n p).pending = s.pending := rfl
@[simp] theorem State.setP_responses (s : State) (n : PReg) (p : Poly256) : (s.setP n p).responses = s.responses := rfl
@[simp] theorem State.setP_freeCount (s : State) (n : PReg) (p : Poly256) : (s.setP n p).freeCount = s.freeCount := rfl

/-! ### memWrite -/

@[simp] theorem State.memWrite_pRegs (s : State) (a : Nat) (bs : List Byte) : (s.memWrite a bs).pRegs = s.pRegs := rfl
@[simp] theorem State.memWrite_sRegs (s : State) (a : Nat) (bs : List Byte) : (s.memWrite a bs).sRegs = s.sRegs := rfl
@[simp] theorem State.memWrite_err (s : State) (a : Nat) (bs : List Byte) : (s.memWrite a bs).err = s.err := rfl
@[simp] theorem State.memWrite_code (s : State) (a : Nat) (bs : List Byte) : (s.memWrite a bs).code = s.code := rfl
@[simp] theorem State.memWrite_k (s : State) (a : Nat) (bs : List Byte) : (s.memWrite a bs).k = s.k := rfl
@[simp] theorem State.memWrite_ctr (s : State) (a : Nat) (bs : List Byte) : (s.memWrite a bs).ctr = s.ctr := rfl
@[simp] theorem State.memWrite_pending (s : State) (a : Nat) (bs : List Byte) : (s.memWrite a bs).pending = s.pending := rfl
@[simp] theorem State.memWrite_responses (s : State) (a : Nat) (bs : List Byte) : (s.memWrite a bs).responses = s.responses := rfl
@[simp] theorem State.memWrite_freeCount (s : State) (a : Nat) (bs : List Byte) : (s.memWrite a bs).freeCount = s.freeCount := rfl

/-! ### setSampled -/

@[simp] theorem State.setSampled_sRegs (s : State) (d : PReg) (pc : Poly256 × Nat) : (s.setSampled d pc).sRegs = s.sRegs := rfl
@[simp] theorem State.setSampled_buf (s : State) (d : PReg) (pc : Poly256 × Nat) : (s.setSampled d pc).buf = s.buf := rfl
@[simp] theorem State.setSampled_err (s : State) (d : PReg) (pc : Poly256 × Nat) : (s.setSampled d pc).err = s.err := rfl
@[simp] theorem State.setSampled_code (s : State) (d : PReg) (pc : Poly256 × Nat) : (s.setSampled d pc).code = s.code := rfl
@[simp] theorem State.setSampled_k (s : State) (d : PReg) (pc : Poly256 × Nat) : (s.setSampled d pc).k = s.k := rfl
@[simp] theorem State.setSampled_pending (s : State) (d : PReg) (pc : Poly256 × Nat) : (s.setSampled d pc).pending = s.pending := rfl
@[simp] theorem State.setSampled_responses (s : State) (d : PReg) (pc : Poly256 × Nat) : (s.setSampled d pc).responses = s.responses := rfl
@[simp] theorem State.setSampled_freeCount (s : State) (d : PReg) (pc : Poly256 × Nat) : (s.setSampled d pc).freeCount = s.freeCount := rfl

/-! ### setCoeff -/

@[simp] theorem State.setCoeff_sRegs (s : State) (n : PReg) (i : BitVec 8) (c : Coeff) : (s.setCoeff n i c).sRegs = s.sRegs := rfl
@[simp] theorem State.setCoeff_buf (s : State) (n : PReg) (i : BitVec 8) (c : Coeff) : (s.setCoeff n i c).buf = s.buf := rfl
@[simp] theorem State.setCoeff_err (s : State) (n : PReg) (i : BitVec 8) (c : Coeff) : (s.setCoeff n i c).err = s.err := rfl
@[simp] theorem State.setCoeff_code (s : State) (n : PReg) (i : BitVec 8) (c : Coeff) : (s.setCoeff n i c).code = s.code := rfl
@[simp] theorem State.setCoeff_k (s : State) (n : PReg) (i : BitVec 8) (c : Coeff) : (s.setCoeff n i c).k = s.k := rfl
@[simp] theorem State.setCoeff_ctr (s : State) (n : PReg) (i : BitVec 8) (c : Coeff) : (s.setCoeff n i c).ctr = s.ctr := rfl
@[simp] theorem State.setCoeff_pending (s : State) (n : PReg) (i : BitVec 8) (c : Coeff) : (s.setCoeff n i c).pending = s.pending := rfl
@[simp] theorem State.setCoeff_responses (s : State) (n : PReg) (i : BitVec 8) (c : Coeff) : (s.setCoeff n i c).responses = s.responses := rfl
@[simp] theorem State.setCoeff_freeCount (s : State) (n : PReg) (i : BitVec 8) (c : Coeff) : (s.setCoeff n i c).freeCount = s.freeCount := rfl

@[simp] theorem State.memWrite_buf (s : State) (a : Nat) (bs : List Byte) :
    (s.memWrite a bs).buf = s.buf.writeBytes a bs := rfl
@[simp] theorem State.setSampled_ctr (s : State) (d : PReg) (pc : Poly256 × Nat) :
    (s.setSampled d pc).ctr = BitVec.ofNat 9 pc.2 := rfl
@[simp] theorem State.setSampled_pRegs (s : State) (d : PReg) (pc : Poly256 × Nat) :
    (s.setSampled d pc).pRegs = (s.setP d pc.1).pRegs := rfl

/-! ### setVec -/

@[simp] theorem State.setVec_sRegs (ps : List Poly256) : ∀ (s : State) (b : PReg), (s.setVec b ps).sRegs = s.sRegs := by
  induction ps with
  | nil => intros; rfl
  | cons p ps ih => intro s b; exact (ih _ _).trans rfl
@[simp] theorem State.setVec_buf (ps : List Poly256) : ∀ (s : State) (b : PReg), (s.setVec b ps).buf = s.buf := by
  induction ps with
  | nil => intros; rfl
  | cons p ps ih => intro s b; exact (ih _ _).trans rfl
@[simp] theorem State.setVec_err (ps : List Poly256) : ∀ (s : State) (b : PReg), (s.setVec b ps).err = s.err := by
  induction ps with
  | nil => intros; rfl
  | cons p ps ih => intro s b; exact (ih _ _).trans rfl
@[simp] theorem State.setVec_code (ps : List Poly256) : ∀ (s : State) (b : PReg), (s.setVec b ps).code = s.code := by
  induction ps with
  | nil => intros; rfl
  | cons p ps ih => intro s b; exact (ih _ _).trans rfl
@[simp] theorem State.setVec_k (ps : List Poly256) : ∀ (s : State) (b : PReg), (s.setVec b ps).k = s.k := by
  induction ps with
  | nil => intros; rfl
  | cons p ps ih => intro s b; exact (ih _ _).trans rfl
@[simp] theorem State.setVec_ctr (ps : List Poly256) : ∀ (s : State) (b : PReg), (s.setVec b ps).ctr = s.ctr := by
  induction ps with
  | nil => intros; rfl
  | cons p ps ih => intro s b; exact (ih _ _).trans rfl
@[simp] theorem State.setVec_pending (ps : List Poly256) : ∀ (s : State) (b : PReg), (s.setVec b ps).pending = s.pending := by
  induction ps with
  | nil => intros; rfl
  | cons p ps ih => intro s b; exact (ih _ _).trans rfl
@[simp] theorem State.setVec_responses (ps : List Poly256) : ∀ (s : State) (b : PReg), (s.setVec b ps).responses = s.responses := by
  induction ps with
  | nil => intros; rfl
  | cons p ps ih => intro s b; exact (ih _ _).trans rfl
@[simp] theorem State.setVec_freeCount (ps : List Poly256) : ∀ (s : State) (b : PReg), (s.setVec b ps).freeCount = s.freeCount := by
  induction ps with
  | nil => intros; rfl
  | cons p ps ih => intro s b; exact (ih _ _).trans rfl

/-! ### raiseError -/

@[simp] theorem raiseError_pRegs (c : ErrorCode) (s : State) : (raiseError c s).pRegs = s.pRegs := by
  unfold raiseError; split <;> rfl
@[simp] theorem raiseError_sRegs (c : ErrorCode) (s : State) : (raiseError c s).sRegs = s.sRegs := by
  unfold raiseError; split <;> rfl
@[simp] theorem raiseError_buf (c : ErrorCode) (s : State) : (raiseError c s).buf = s.buf := by
  unfold raiseError; split <;> rfl
@[simp] theorem raiseError_k (c : ErrorCode) (s : State) : (raiseError c s).k = s.k := by
  unfold raiseError; split <;> rfl
@[simp] theorem raiseError_ctr (c : ErrorCode) (s : State) : (raiseError c s).ctr = s.ctr := by
  unfold raiseError; split <;> rfl
@[simp] theorem raiseError_pending (c : ErrorCode) (s : State) : (raiseError c s).pending = s.pending := by
  unfold raiseError; split <;> rfl
@[simp] theorem raiseError_responses (c : ErrorCode) (s : State) : (raiseError c s).responses = s.responses := by
  unfold raiseError; split <;> rfl
@[simp] theorem raiseError_freeCount (c : ErrorCode) (s : State) : (raiseError c s).freeCount = s.freeCount := by
  unfold raiseError; split <;> rfl
@[simp] theorem raiseError_err (c : ErrorCode) (s : State) : (raiseError c s).err = true := by
  unfold raiseError; split
  · assumption
  · rfl
theorem raiseError_of_running {s : State} (c : ErrorCode) (h : s.err = false) :
    raiseError c s = { s with code := c.code, err := true } := by
  simp [raiseError, h]

/-! ### answer, softReset, hardReset -/

@[simp] theorem answer_pRegs (r : BusResponse) (s : State) : (answer r s).pRegs = s.pRegs := rfl
@[simp] theorem answer_sRegs (r : BusResponse) (s : State) : (answer r s).sRegs = s.sRegs := rfl
@[simp] theorem answer_buf (r : BusResponse) (s : State) : (answer r s).buf = s.buf := rfl
@[simp] theorem answer_err (r : BusResponse) (s : State) : (answer r s).err = s.err := rfl
@[simp] theorem answer_code (r : BusResponse) (s : State) : (answer r s).code = s.code := rfl
@[simp] theorem answer_k (r : BusResponse) (s : State) : (answer r s).k = s.k := rfl
@[simp] theorem answer_ctr (r : BusResponse) (s : State) : (answer r s).ctr = s.ctr := rfl
@[simp] theorem answer_pending (r : BusResponse) (s : State) : (answer r s).pending = s.pending := rfl
@[simp] theorem answer_freeCount (r : BusResponse) (s : State) : (answer r s).freeCount = s.freeCount := rfl
@[simp] theorem answer_responses (r : BusResponse) (s : State) : (answer r s).responses = r :: s.responses := rfl

@[simp] theorem softReset_pRegs (s : State) : (softReset s).pRegs = s.pRegs := rfl
@[simp] theorem softReset_sRegs (s : State) : (softReset s).sRegs = Vector.replicate 8 0 := rfl
@[simp] theorem softReset_buf (s : State) : (softReset s).buf = s.buf := rfl
@[simp] theorem softReset_err (s : State) : (softReset s).err = false := rfl
@[simp] theorem softReset_code (s : State) : (softReset s).code = 0 := rfl
@[simp] theorem softReset_k (s : State) : (softReset s).k = 0 := rfl
@[simp] theorem softReset_ctr (s : State) : (softReset s).ctr = 0 := rfl
@[simp] theorem softReset_pending (s : State) : (softReset s).pending = s.pending := rfl
@[simp] theorem softReset_responses (s : State) : (softReset s).responses = s.responses := rfl
@[simp] theorem softReset_freeCount (s : State) : (softReset s).freeCount = s.freeCount := rfl

@[simp] theorem hardReset_pRegs (p : Vector Poly256 16) (b : List Byte) (s : State) : (hardReset p b s).pRegs = p := rfl
@[simp] theorem hardReset_sRegs (p : Vector Poly256 16) (b : List Byte) (s : State) : (hardReset p b s).sRegs = Vector.replicate 8 0 := rfl
@[simp] theorem hardReset_buf (p : Vector Poly256 16) (b : List Byte) (s : State) :
    (hardReset p b s).buf = Memory.writeBytes [] 0 (b.take Config.bufSize) := rfl
@[simp] theorem hardReset_err (p : Vector Poly256 16) (b : List Byte) (s : State) : (hardReset p b s).err = false := rfl
@[simp] theorem hardReset_code (p : Vector Poly256 16) (b : List Byte) (s : State) : (hardReset p b s).code = 0 := rfl
@[simp] theorem hardReset_k (p : Vector Poly256 16) (b : List Byte) (s : State) : (hardReset p b s).k = 0 := rfl
@[simp] theorem hardReset_ctr (p : Vector Poly256 16) (b : List Byte) (s : State) : (hardReset p b s).ctr = 0 := rfl
@[simp] theorem hardReset_pending (p : Vector Poly256 16) (b : List Byte) (s : State) : (hardReset p b s).pending = s.pending := rfl
@[simp] theorem hardReset_responses (p : Vector Poly256 16) (b : List Byte) (s : State) : (hardReset p b s).responses = s.responses := rfl
@[simp] theorem hardReset_freeCount (p : Vector Poly256 16) (b : List Byte) (s : State) : (hardReset p b s).freeCount = s.freeCount := rfl

/-! ### What reads of registers see -/

/-- A read of a polynomial register depends on the polynomial registers only. -/
theorem State.getP_congr {s t : State} (h : t.pRegs = s.pRegs) (n : PReg) : t.getP n = s.getP n := by
  simp only [State.getP, h]

/-- A read of a scalar register depends on the scalar registers only. -/
theorem State.getS_congr {s t : State} (h : t.sRegs = s.sRegs) (r : SReg) : t.getS r = s.getS r := by
  simp only [State.getS, h]

/-- A read of a vector depends on the polynomial registers and on K only. -/
theorem State.getVec_congr {s t : State} (hp : t.pRegs = s.pRegs) (hk : t.k = s.k) (b : PReg) :
    t.getVec b = s.getVec b := by
  have h : t.getP = s.getP := funext (State.getP_congr hp)
  simp only [State.getVec, State.kNat, hk, h]

@[simp] theorem State.getS_setP (s : State) (n : PReg) (p : Poly256) (r : SReg) : (s.setP n p).getS r = s.getS r := rfl
@[simp] theorem State.getS_memWrite (s : State) (a : Nat) (bs : List Byte) (r : SReg) : (s.memWrite a bs).getS r = s.getS r := rfl
@[simp] theorem State.getS_setSampled (s : State) (d : PReg) (pc : Poly256 × Nat) (r : SReg) : (s.setSampled d pc).getS r = s.getS r := rfl
@[simp] theorem State.getS_setVec (s : State) (b : PReg) (ps : List Poly256) (r : SReg) : (s.setVec b ps).getS r = s.getS r :=
  State.getS_congr (State.setVec_sRegs ps s b) r
@[simp] theorem State.getP_setS (s : State) (r : SReg) (v : Word) (n : PReg) : (s.setS r v).getP n = s.getP n := rfl
@[simp] theorem State.getP_memWrite (s : State) (a : Nat) (bs : List Byte) (n : PReg) : (s.memWrite a bs).getP n = s.getP n := rfl
@[simp] theorem State.getP_setSampled (s : State) (d : PReg) (pc : Poly256 × Nat) (n : PReg) : (s.setSampled d pc).getP n = (s.setP d pc.1).getP n := rfl

end Sys2Proof.Machine
end

