-- ==== Sys2Proof/Laws/Memory.lean ====
section
/-! SUPPORT. BUF: a read after a write gives what was written, every other byte is as before, and every operation keeps the
canonical form. -/

namespace Sys2Proof.Machine

/-! ### Reading -/

theorem Memory.read_cons (c : Host.Cell) (m : Memory) (a : Nat) :
    Memory.read (c :: m) a = if a = c.1 then c.2 else Memory.read m a := by
  obtain ⟨x, b⟩ := c
  by_cases h : a = x
  · simp [Memory.read, List.lookup, h]
  · simp [Memory.read, List.lookup, beq_false_of_ne h, h]

@[simp] theorem Memory.read_nil (a : Nat) : Memory.read [] a = Config.unlistedByte := rfl

/-- An offset that no entry lists reads as an unlisted byte. -/
theorem Memory.read_of_not_listed {m : Memory} {a : Nat} (h : ∀ c ∈ m, c.1 ≠ a) :
    Memory.read m a = Config.unlistedByte := by
  induction m with
  | nil => rfl
  | cons c m ih =>
    rw [Memory.read_cons, if_neg (fun e => h c (by simp) e.symm)]
    exact ih fun c hc => h c (by simp [hc])

theorem Memory.read_append (m n : Memory) (a : Nat) :
    Memory.read (m ++ n) a = if ∃ c ∈ m, c.1 = a then Memory.read m a else Memory.read n a := by
  induction m with
  | nil => simp
  | cons c m ih =>
    rw [List.cons_append, Memory.read_cons, Memory.read_cons, ih]
    by_cases h : a = c.1
    · simp [h]
    · have h' : ¬ c.1 = a := fun e => h e.symm
      simp [h, h']

theorem Memory.read_filter (m : Memory) (p : Nat → Bool) (a : Nat) :
    Memory.read (m.filter fun c => p c.1) a = if p a then Memory.read m a else Config.unlistedByte := by
  induction m with
  | nil => simp
  | cons c m ih =>
    by_cases hc : p c.1
    · rw [List.filter_cons_of_pos (by simpa using hc), Memory.read_cons, Memory.read_cons, ih]
      by_cases h : a = c.1
      · simp [h, hc]
      · simp [h]
    · rw [List.filter_cons_of_neg (by simpa using hc), Memory.read_cons, ih]
      by_cases h : a = c.1
      · simp [h, hc]
      · simp [h]

/-! ### The entries of a list of bytes -/

theorem Memory.mem_cells {bs : List Byte} : ∀ {a : Nat} {c : Host.Cell}, c ∈ Memory.cells a bs →
    a ≤ c.1 ∧ c.1 < a + bs.length ∧ c.2 ≠ Config.unlistedByte := by
  induction bs with
  | nil => intro a c h; simp [Memory.cells] at h
  | cons b bs ih =>
    intro a c h
    rw [Memory.cells] at h
    split at h
    · obtain ⟨h1, h2, h3⟩ := ih h
      rw [List.length_cons]
      exact ⟨by omega, by omega, h3⟩
    · rename_i hb
      rcases List.mem_cons.mp h with rfl | h
      · exact ⟨le_refl _, by simp, hb⟩
      · obtain ⟨h1, h2, h3⟩ := ih h
        rw [List.length_cons]
        exact ⟨by omega, by omega, h3⟩

theorem Memory.cells_sorted (bs : List Byte) : ∀ a, (Memory.cells a bs).Pairwise (fun x y => x.1 < y.1) := by
  induction bs with
  | nil => intro a; exact List.Pairwise.nil
  | cons b bs ih =>
    intro a
    rw [Memory.cells]
    split
    · exact ih _
    · exact List.pairwise_cons.mpr ⟨fun c hc => Nat.lt_of_succ_le (Memory.mem_cells hc).1, ih _⟩

theorem Memory.read_cells {bs : List Byte} : ∀ {a j : Nat} (h : j < bs.length),
    Memory.read (Memory.cells a bs) (a + j) = bs[j] := by
  induction bs with
  | nil => intro a j h; simp at h
  | cons b bs ih =>
    intro a j h
    rw [Memory.cells]
    cases j with
    | zero =>
      split
      · rename_i hb
        rw [Memory.read_of_not_listed (fun c hc => by have := (Memory.mem_cells hc).1; omega)]
        simp [hb]
      · simp [Memory.read_cons]
    | succ j =>
      have hj : j < bs.length := by simpa using h
      have e : a + (j + 1) = (a + 1) + j := by omega
      split
      · rw [e, ih hj]; simp
      · rw [Memory.read_cons, if_neg (by simp), e, ih hj]; simp

/-! ### Writing -/

/-- A byte of the written range reads as the byte written there. -/
theorem Memory.read_writeBytes_inside (m : Memory) (a : Nat) {bs : List Byte} {j : Nat} (h : j < bs.length) :
    (m.writeBytes a bs).read (a + j) = bs[j] := by
  have hl : ¬ ∃ c ∈ m.filter (fun c => decide (c.1 < a)), c.1 = a + j := by
    rintro ⟨c, hc, e⟩
    have := List.mem_filter.mp hc
    simp at this; omega
  rw [Memory.writeBytes, List.append_assoc, Memory.read_append, if_neg hl, Memory.read_append]
  split
  · exact Memory.read_cells h
  · rename_i hn
    have hb : bs[j] = Config.unlistedByte := by
      rw [← Memory.read_cells (a := a) h]
      exact Memory.read_of_not_listed fun c hc e => hn ⟨c, hc, e⟩
    rw [hb]
    exact Memory.read_of_not_listed fun c hc e => by
      have := (List.mem_filter.mp hc).2
      simp at this; omega

/-- A byte outside the written range reads as before. -/
theorem Memory.read_writeBytes_outside (m : Memory) {a : Nat} {bs : List Byte} {x : Nat}
    (h : x < a ∨ a + bs.length ≤ x) : (m.writeBytes a bs).read x = m.read x := by
  have hc : ¬ ∃ c ∈ Memory.cells a bs, c.1 = x := by
    rintro ⟨c, hc, e⟩
    have := Memory.mem_cells hc; omega
  rw [Memory.writeBytes, List.append_assoc, Memory.read_append, Memory.read_append, if_neg hc]
  have f1 := Memory.read_filter m (fun n => decide (n < a)) x
  have f2 := Memory.read_filter m (fun n => decide (a + bs.length ≤ n)) x
  rw [f1, f2]
  rcases h with h | h
  · split
    · simp [h]
    · rename_i hn
      have : m.read x = Config.unlistedByte := by
        refine Memory.read_of_not_listed fun c hm e => hn ⟨c, List.mem_filter.mpr ⟨hm, ?_⟩, e⟩
        simp [e, h]
      rw [this]; split <;> rfl
  · have hx : ¬ x < a := by omega
    rw [if_neg]
    · simp [h]
    · rintro ⟨c, hm, e⟩
      have := (List.mem_filter.mp hm).2
      simp [e] at this; omega

/-- A write that stays within BUF keeps the canonical form. -/
theorem Memory.wf_writeBytes {m : Memory} (hm : m.wf) {a : Nat} {bs : List Byte}
    (h : a + bs.length ≤ Config.bufSize) : (m.writeBytes a bs).wf := by
  obtain ⟨hs, hb⟩ := hm
  refine ⟨?_, ?_⟩
  · rw [Memory.writeBytes, List.append_assoc]
    refine List.pairwise_append.mpr ⟨hs.filter _, List.pairwise_append.mpr
      ⟨Memory.cells_sorted bs a, hs.filter _, ?_⟩, ?_⟩
    · intro x hx y hy
      have h1 := Memory.mem_cells hx
      have h2 := (List.mem_filter.mp hy).2
      simp at h2; omega
    · intro x hx y hy
      have h1 := (List.mem_filter.mp hx).2
      simp at h1
      rcases List.mem_append.mp hy with hy | hy
      · have := Memory.mem_cells hy; omega
      · have h2 := (List.mem_filter.mp hy).2
        simp at h2; omega
  · intro c hc
    rw [Memory.writeBytes, List.append_assoc] at hc
    rcases List.mem_append.mp hc with hc | hc
    · exact hb c (List.mem_filter.mp hc).1
    · rcases List.mem_append.mp hc with hc | hc
      · have := Memory.mem_cells hc
        exact ⟨by omega, this.2.2⟩
      · exact hb c (List.mem_filter.mp hc).1

/-- A memory that lists nothing is in canonical form. -/
theorem Memory.wf_nil : Memory.wf [] := ⟨List.Pairwise.nil, by simp⟩

/-! ### Byte strings -/

@[simp] theorem Memory.length_readBytes (m : Memory) (a n : Nat) : (m.readBytes a n).length = n := by
  simp [Memory.readBytes]

theorem Memory.getElem_readBytes (m : Memory) (a n j : Nat) (h : j < (m.readBytes a n).length) :
    (m.readBytes a n)[j] = m.read (a + j) := by
  simp [Memory.readBytes]

/-- Reading back a written byte string gives it. -/
theorem Memory.readBytes_writeBytes (m : Memory) (a : Nat) (bs : List Byte) :
    (m.writeBytes a bs).readBytes a bs.length = bs := by
  refine List.ext_getElem (by simp) fun j h1 h2 => ?_
  rw [Memory.getElem_readBytes, Memory.read_writeBytes_inside m a h2]

/-- Part of a written byte string, read back. -/
theorem Memory.readBytes_writeBytes_part (m : Memory) (a : Nat) (xs ys zs : List Byte) :
    (m.writeBytes a (xs ++ ys ++ zs)).readBytes (a + xs.length) ys.length = ys := by
  refine List.ext_getElem (by simp) fun j h1 h2 => ?_
  have hj : xs.length + j < (xs ++ ys ++ zs).length := by simp; omega
  rw [Memory.getElem_readBytes, Nat.add_assoc, Memory.read_writeBytes_inside m a hj]
  simp [h2]

@[simp] theorem length_natToBytes (n w : Nat) : (natToBytes n w).length = n := by
  induction n generalizing w with
  | zero => rfl
  | succ n ih => simp [natToBytes, ih]

theorem bytesToNat_natToBytes (n w : Nat) : bytesToNat (natToBytes n w) = w % 256 ^ n := by
  induction n generalizing w with
  | zero => simp [natToBytes, bytesToNat, Nat.mod_one]
  | succ n ih =>
    rw [natToBytes, bytesToNat, ih, Nat.pow_succ', Nat.mod_mul]
    simp

theorem bytesToNat_lt (bs : List Byte) : bytesToNat bs < 256 ^ bs.length := by
  induction bs with
  | nil => simp [bytesToNat]
  | cons b bs ih =>
    have := b.isLt
    rw [bytesToNat, List.length_cons, Nat.pow_succ']
    omega

end Sys2Proof.Machine
end

