-- ==== Sys2Proof/Laws/Registers.lean ====
section
/-! SUPPORT. Registers, lanes and vectors: what is read after a write. -/

namespace Sys2Proof.Machine

/-! ### Polynomial registers -/

@[simp] theorem State.getP_setP_same (s : State) (n : PReg) (p : Poly256) : (s.setP n p).getP n = p := by
  simp [State.getP, State.setP]

theorem State.getP_setP_other (s : State) {m n : PReg} (p : Poly256) (h : m ≠ n) :
    (s.setP n p).getP m = s.getP m := by
  have h' : n.toNat ≠ m.toNat := fun e => h (BitVec.eq_of_toNat_eq e.symm)
  simp [State.getP, State.setP, h']

theorem State.getP_setP (s : State) (m n : PReg) (p : Poly256) :
    (s.setP n p).getP m = if m = n then p else s.getP m := by
  split
  · rename_i h; subst h; simp
  · rename_i h; exact State.getP_setP_other s p h

/-! ### Scalar registers -/

theorem State.scalar_def (s : State) (r : BitVec 3) : s.scalar r = s.sRegs[r.toNat]'(r.isLt) := by
  simp [State.scalar, State.getS]

theorem State.getS_eq_scalar (s : State) (r : SReg) : s.getS r = s.scalar (r.setWidth 3) := by
  rw [State.scalar_def]; rfl

@[simp] theorem State.getS_setS_same (s : State) (r : SReg) (v : Word) : (s.setS r v).getS r = v := by
  simp [State.getS, State.setS]

theorem State.scalar_setS_other (s : State) {r : BitVec 3} {d : SReg} (v : Word) (h : r ≠ d.setWidth 3) :
    (s.setS d v).scalar r = s.scalar r := by
  have h' : (d.setWidth 3).toNat ≠ r.toNat := fun e => h (BitVec.eq_of_toNat_eq e.symm)
  rw [State.scalar_def, State.scalar_def]
  simp only [State.setS]
  rw [Vector.getElem_set_ne]
  exact h'

/-! ### Lanes -/

theorem Poly256.ext_lane {p r : Poly256} (h : ∀ i, lane p i = lane r i) : p = r := by
  obtain ⟨ps, hp⟩ := p
  obtain ⟨rs, hr⟩ := r
  have : ps = rs := List.ext_getElem (hp.trans hr.symm) fun j h1 _ => h ⟨j, hp ▸ h1⟩
  subst this; rfl

theorem lane_eq_getElem (p : Poly256) (i : Fin 256) (h : i.val < p.coeffs.length) : lane p i = p.coeffs[i.val] := rfl

theorem lane_eq_getD (p : Poly256) (i : Fin 256) : lane p i = p.coeffs.getD i.val 0 := by
  have h : i.val < p.coeffs.length := by rw [p.size]; exact i.isLt
  rw [lane_eq_getElem p i h, List.getD_eq_getElem?_getD, List.getElem?_eq_getElem h]; rfl

@[simp] theorem lane_mapLanes (f : Coeff → Coeff) (p : Poly256) (i : Fin 256) :
    lane (mapLanes f p) i = f (lane p i) := by
  simp [lane, mapLanes]

@[simp] theorem lane_zipLanes (f : Coeff → Coeff → Coeff) (p r : Poly256) (i : Fin 256) :
    lane (zipLanes f p r) i = f (lane p i) (lane r i) := by
  simp [lane, zipLanes]

theorem coeffs_polyOfList {l : List Coeff} (h : l.length = 256) : (polyOfList l).coeffs = l := by
  simp only [polyOfList]
  rw [← h, List.take_left]

theorem lane_polyOfList {l : List Coeff} (h : l.length = 256) (i : Fin 256) :
    lane (polyOfList l) i = l.getD i.val 0 := by
  rw [lane_eq_getD, coeffs_polyOfList h]

theorem polyOfList_coeffs (p : Poly256) : polyOfList p.coeffs = p := by
  obtain ⟨ps, hp⟩ := p
  have := coeffs_polyOfList hp
  simp only [Poly256.mk.injEq, polyOfList] at *
  exact this

theorem lane_setLane (p : Poly256) (n : Nat) (c : Coeff) (i : Fin 256) :
    lane (setLane p n c) i = if i.val = n then c else lane p i := by
  simp only [lane, setLane, List.getElem_set]
  by_cases h : n = i.val
  · simp [h]
  · rw [if_neg h, if_neg (fun e => h e.symm)]

/-! ### Vectors -/

theorem length_vectorRegs (b : PReg) (n : Nat) : (vectorRegs b n).length = n := by simp [vectorRegs]

@[simp] theorem length_getVec (s : State) (b : PReg) : (s.getVec b).length = s.k.toNat := by
  simp [State.getVec, vectorRegs, State.kNat]

/-- Component `i` of a vector is P[b+i] (R180). -/
theorem getElem_getVec (s : State) (b : PReg) (i : Nat) (h : i < (s.getVec b).length) :
    (s.getVec b)[i] = s.getP (b + BitVec.ofNat 4 i) := by
  simp [State.getVec, vectorRegs]

theorem PReg.toNat_add_ofNat {b : PReg} {i : Nat} (h : b.toNat + i < 16) : (b + BitVec.ofNat 4 i).toNat = b.toNat + i := by
  rw [BitVec.toNat_add, BitVec.toNat_ofNat]; omega

/-- Registers outside the destination vector are as before. -/
theorem State.getP_setVec_outside (ps : List Poly256) : ∀ (s : State) (b n : PReg), b.toNat + ps.length ≤ 16 →
    n.toNat < b.toNat ∨ b.toNat + ps.length ≤ n.toNat → (s.setVec b ps).getP n = s.getP n := by
  induction ps with
  | nil => intros; rfl
  | cons p ps ih =>
    intro s b n hb hn
    rw [List.length_cons] at hb hn
    rw [State.setVec]
    by_cases hl : ps = []
    · subst hl
      exact State.getP_setP_other s p (fun e => by subst e; simp at hn)
    · have hpos : 0 < ps.length := List.length_pos_iff.mpr hl
      have e : (b + 1).toNat = b.toNat + 1 := PReg.toNat_add_ofNat (i := 1) (by omega)
      rw [ih _ _ _ (by omega) (by omega)]
      exact State.getP_setP_other s p (fun e => by subst e; omega)

/-- Component `i` of the destination vector holds polynomial `i` of the list. -/
theorem State.getP_setVec_inside (ps : List Poly256) : ∀ (s : State) (b : PReg) (i : Nat) (h : i < ps.length),
    b.toNat + ps.length ≤ 16 → (s.setVec b ps).getP (b + BitVec.ofNat 4 i) = ps[i] := by
  induction ps with
  | nil => intro s b i h; simp at h
  | cons p ps ih =>
    intro s b i h hb
    rw [List.length_cons] at hb h
    rw [State.setVec]
    cases i with
    | zero =>
      by_cases hl : ps = []
      · subst hl; simp [State.setVec]
      · have hpos : 0 < ps.length := List.length_pos_iff.mpr hl
        have e : (b + 1).toNat = b.toNat + 1 := PReg.toNat_add_ofNat (i := 1) (by omega)
        have e0 : b + BitVec.ofNat 4 0 = b := by simp
        rw [e0, State.getP_setVec_outside ps _ _ _ (by omega) (by omega)]
        simp
    | succ i =>
      have e : (b + 1).toNat = b.toNat + 1 := PReg.toNat_add_ofNat (i := 1) (by omega)
      have e1 : b + BitVec.ofNat 4 (i + 1) = (b + 1) + BitVec.ofNat 4 i := by
        apply BitVec.eq_of_toNat_eq
        rw [PReg.toNat_add_ofNat (by omega), PReg.toNat_add_ofNat (by omega), e]; omega
      rw [e1, ih _ _ i (by omega) (by omega)]
      simp

end Sys2Proof.Machine
end

