-- ==== Sys2Proof/Laws/Checks.lean ====
section
/-! SUPPORT. The checks before a command (R90 steps 3 and 4) and how a command ends. -/

namespace Sys2Proof.Machine

theorem legalK_iff (k : BitVec 3) : legalK k = true ↔ k.toNat = 2 ∨ k.toNat = 3 ∨ k.toNat = 4 := by
  simp only [legalK, Bool.and_eq_true, decide_eq_true_eq]; omega

theorem vectorFits_iff (k : BitVec 3) (b : PReg) : vectorFits k b = true ↔ b.toNat + k.toNat ≤ 16 := by
  simp [vectorFits]

/-- No vector check fails exactly when K is legal and every vector fits (R181). -/
theorem checkVectors_eq_none_iff (s : State) (bases : List PReg) :
    checkVectors s bases = none ↔
      (s.k.toNat = 2 ∨ s.k.toNat = 3 ∨ s.k.toNat = 4) ∧ ∀ b ∈ bases, b.toNat + s.k.toNat ≤ 16 := by
  rw [← legalK_iff, checkVectors]
  by_cases hk : legalK s.k = true
  · by_cases hb : bases.all (vectorFits s.k) = true
    · simp only [hk, hb, if_true, true_and, true_iff]
      intro b h; exact (vectorFits_iff _ _).mp (List.all_eq_true.mp hb b h)
    · simp only [hk, hb, if_true, true_and, Bool.false_eq_true, if_false, reduceCtorEq, false_iff]
      intro h; exact hb (List.all_eq_true.mpr fun b hm => (vectorFits_iff _ _).mpr (h b hm))
  · simp [hk]

/-- A bad K is found first (R262). -/
theorem checkVectors_badK {s : State} (bases : List PReg) (h : ¬ (s.k.toNat = 2 ∨ s.k.toNat = 3 ∨ s.k.toNat = 4)) :
    checkVectors s bases = some .badK := by
  have : ¬ legalK s.k = true := fun e => h ((legalK_iff _).mp e)
  simp [checkVectors, this]

theorem checkVectors_registerRange {s : State} {bases : List PReg}
    (hk : s.k.toNat = 2 ∨ s.k.toNat = 3 ∨ s.k.toNat = 4) (h : ∃ b ∈ bases, 16 < b.toNat + s.k.toNat) :
    checkVectors s bases = some .registerRange := by
  obtain ⟨b, hb, hlt⟩ := h
  have hk' := (legalK_iff s.k).mpr hk
  have : ¬ bases.all (vectorFits s.k) = true := fun e => by
    have := (vectorFits_iff _ _).mp (List.all_eq_true.mp e b hb); omega
  simp [checkVectors, hk', this]

theorem checkBuffer_eq_none_iff (off : BufOffset) (len : Nat) :
    checkBuffer off len = none ↔ off.toNat + len ≤ 4096 := by
  simp [checkBuffer]

theorem checkBuffer_bufferRange {off : BufOffset} {len : Nat} (h : 4096 < off.toNat + len) :
    checkBuffer off len = some .bufferRange := by
  have : ¬ off.toNat + len ≤ Config.bufSize := by simp only [Config.bufSize]; omega
  simp [checkBuffer, this]

@[simp] theorem firstError_none (f : Option ErrorCode) : firstError none f = f := rfl
@[simp] theorem firstError_some (c : ErrorCode) (f : Option ErrorCode) : firstError (some c) f = some c := rfl

theorem firstError_eq_none_iff (e f : Option ErrorCode) : firstError e f = none ↔ e = none ∧ f = none := by
  cases e <;> simp

@[simp] theorem finish_none (s t : State) : finish none s t = .next t := rfl
@[simp] theorem finish_some (c : ErrorCode) (s t : State) : finish (some c) s t = .next (raiseError c s) := rfl

/-- A command ends in an error and nothing else, or in the state it leaves when no check fails. -/
theorem finish_cases {e : Option ErrorCode} {s t u : State} (h : finish e s t = .next u) :
    (∃ c, e = some c ∧ u = raiseError c s) ∨ (e = none ∧ u = t) := by
  cases e with
  | none => exact .inr ⟨rfl, (Host.Outcome.next.inj h).symm⟩
  | some c => exact .inl ⟨c, rfl, (Host.Outcome.next.inj h).symm⟩

/-- A command always ends in a next state. -/
theorem finish_next (e : Option ErrorCode) (s t : State) : ∃ u, finish e s t = .next u := by
  cases e <;> exact ⟨_, rfl⟩

/-- REJ ends as every other command does. -/
theorem execRej_eq_finish (d : PReg) (off : BufOffset) (a : SReg) (s : State) :
    execRej d off a s = finish (checkBuffer off (rejLength a s)) s (s.setSampled d (rejResult d off a s)) := rfl

theorem ErrorCode.code_range (c : ErrorCode) : 1 ≤ c.code.toNat ∧ c.code.toNat ≤ 4 := by
  cases c <;> decide

end Sys2Proof.Machine
end

