-- ==== Sys2Proof/Laws/Encoding.lean ====
section
/-! SUPPORT. The word of five fields as a number. -/

namespace Sys2Proof

/-- Bits joined below others are added to them. -/
theorem shiftLeft_or_of_lt {a b k : Nat} (h : b < 2 ^ k) : a <<< k ||| b = a * 2 ^ k + b := by
  rw [← Nat.shiftLeft_add_eq_or_of_lt h, Nat.shiftLeft_eq]

/-- The fields of a word stand where R88 puts them. -/
theorem Fields.toNat_toWord (f : Fields) :
    f.toWord.toNat = Spec.word f.op.toNat f.rd.toNat f.ra.toNat f.rb.toNat f.imm.toNat := by
  simp only [Fields.toWord, BitVec.toNat_append, shiftLeft_or_of_lt (BitVec.isLt _), Spec.word]
  omega

end Sys2Proof
end

