-- ==== Sys2Proof/Laws/Lists.lean ====
section
/-! SUPPORT. How long the lists are that the transforms and the codec make, so that `polyOfList` only ever gets 256
coefficients and a store-type command writes exactly its L bytes. -/

namespace Sys2Proof.Machine

/-! ### Transforms -/

theorem length_blockStep (bf : Coeff → Coeff → Coeff × Coeff) {lo hi : List Coeff} (h : lo.length = hi.length) :
    (blockStep bf lo hi).length = 2 * lo.length := by
  simp [blockStep, h]; omega

theorem length_layerStep (bf : Coeff → Coeff → Coeff → Coeff × Coeff) (len : Nat) : ∀ (zs r : List Coeff),
    2 * len * zs.length ≤ r.length → (layerStep bf len zs r).length = r.length := by
  intro zs
  induction zs with
  | nil => intros; rfl
  | cons z zs ih =>
    intro r h
    rw [List.length_cons, Nat.mul_succ] at h
    rw [layerStep, List.length_append, length_blockStep, ih]
    · simp; omega
    · simp; omega
    · simp; omega

theorem length_transform (bf : Coeff → Coeff → Coeff → Coeff × Coeff) : ∀ (lens : List Nat) (zs r : List Coeff),
    (∀ len ∈ lens, 2 * len * (128 / len) ≤ r.length) → (transform bf lens zs r).length = r.length := by
  intro lens
  induction lens with
  | nil => intros; rfl
  | cons len lens ih =>
    intro zs r h
    have hl : (layerStep bf len (zs.take (128 / len)) r).length = r.length := by
      refine length_layerStep bf len _ _ (le_trans (Nat.mul_le_mul_left _ ?_) (h len (by simp)))
      simp
    rw [transform, ih _ _ (fun l hm => by rw [hl]; exact h l (by simp [hm])), hl]

theorem length_nttLayers (p : Poly256) : (nttLayers p.coeffs).length = 256 := by
  rw [nttLayers, length_transform, p.size]
  rw [p.size]; decide

theorem length_invNttLayers (p : Poly256) : (invNttLayers p.coeffs).length = 256 := by
  rw [invNttLayers, length_transform, p.size]
  rw [p.size]; decide

theorem length_baseMulList : ∀ (zs as bs : List Coeff), as.length = 4 * zs.length → bs.length = 4 * zs.length →
    (baseMulList zs as bs).length = 4 * zs.length := by
  intro zs
  induction zs with
  | nil => intros; rfl
  | cons z zs ih =>
    intro as bs ha hb
    match as, bs with
    | a0 :: a1 :: a2 :: a3 :: as, b0 :: b1 :: b2 :: b3 :: bs =>
      simp only [List.length_cons] at ha hb
      simp only [baseMulList, List.length_cons, ih as bs (by omega) (by omega)]
      omega
    | [], _ => simp at ha
    | [_], _ => simp at ha; omega
    | [_, _], _ => simp at ha; omega
    | [_, _, _], _ => simp at ha; omega
    | _ :: _ :: _ :: _ :: _, [] => simp at hb
    | _ :: _ :: _ :: _ :: _, [_] => simp at hb; omega
    | _ :: _ :: _ :: _ :: _, [_, _] => simp at hb; omega
    | _ :: _ :: _ :: _ :: _, [_, _, _] => simp at hb; omega

/-! ### Codec -/

@[simp] theorem length_pack (d : Nat) (ts : List Nat) : (pack d ts).length = ts.length * d / 8 := by simp [pack]

@[simp] theorem length_unpackNat (d m w : Nat) : (unpackNat d m w).length = m := by
  induction m generalizing w with
  | zero => rfl
  | succ m ih => simp [unpackNat, ih]

@[simp] theorem length_unpack (d : Nat) (bs : List Byte) (m : Nat) : (unpack d bs m).length = m := by simp [unpack]

theorem length_toBytesList : ∀ (n : Nat) (ps : List Coeff), ps.length = 2 * n → (toBytesList ps).length = 3 * n := by
  intro n
  induction n with
  | zero => intro ps h; have : ps = [] := List.length_eq_zero_iff.mp (by omega); subst this; rfl
  | succ n ih =>
    intro ps h
    match ps with
    | p0 :: p1 :: ps =>
      simp only [List.length_cons] at h
      simp only [toBytesList, List.length_cons, ih ps (by omega)]; omega
    | [] => simp at h
    | [_] => simp at h; omega

theorem length_fromBytesList : ∀ (n : Nat) (bs : List Byte), bs.length = 3 * n → (fromBytesList bs).length = 2 * n := by
  intro n
  induction n with
  | zero => intro bs h; have : bs = [] := List.length_eq_zero_iff.mp (by omega); subst this; rfl
  | succ n ih =>
    intro bs h
    match bs with
    | b0 :: b1 :: b2 :: bs =>
      simp only [List.length_cons] at h
      simp only [fromBytesList, List.length_cons, ih bs (by omega)]; omega
    | [] => simp at h
    | [_] => simp at h; omega
    | [_, _] => simp at h; omega

@[simp] theorem length_toBytes (p : Poly256) : (toBytes p).length = 384 :=
  length_toBytesList 128 p.coeffs p.size

@[simp] theorem length_compressPoly (d : Nat) (p : Poly256) : (compressPoly d p).length = 32 * d := by
  simp [compressPoly, p.size]; omega

@[simp] theorem length_toMsg (p : Poly256) : (toMsg p).length = 32 := length_compressPoly 1 p

/-- The bytes of a vector: `len` for each component. -/
theorem length_encodeVec {enc : Poly256 → List Byte} {len : Nat} (h : ∀ p, (enc p).length = len) (ps : List Poly256) :
    (encodeVec enc ps).length = len * ps.length := by
  induction ps with
  | nil => rfl
  | cons p ps ih => simp [encodeVec, h, ih, Nat.mul_succ, Nat.add_comm]

@[simp] theorem length_decodeVec (s : State) (len : Nat) (dec : List Byte → Poly256) (off n : Nat) :
    (decodeVec s len dec off n).length = n := by simp [decodeVec]

/-- The bytes of component `i` of a vector stand at len*i. -/
theorem encodeVec_split {enc : Poly256 → List Byte} {len : Nat} (h : ∀ p, (enc p).length = len) :
    ∀ (ps : List Poly256) (i : Nat) (hi : i < ps.length),
      ∃ xs zs, encodeVec enc ps = xs ++ enc ps[i] ++ zs ∧ xs.length = len * i := by
  intro ps
  induction ps with
  | nil => intro i hi; simp at hi
  | cons p ps ih =>
    intro i hi
    cases i with
    | zero => exact ⟨[], encodeVec enc ps, by simp [encodeVec], by simp⟩
    | succ i =>
      obtain ⟨xs, zs, e, hl⟩ := ih i (by simpa using hi)
      refine ⟨enc p ++ xs, zs, ?_, ?_⟩
      · simp [encodeVec, e]
      · simp [h, hl, Nat.mul_succ, Nat.add_comm]

end Sys2Proof.Machine
end

