-- ==== Sys2Proof/Laws/Exec.lean ====
section
/-! SUPPORT. What a command can do, said once: an error and nothing else, or one write of one kind. -/

namespace Sys2Proof.Machine

/-- The shapes of a command's effect: the state it leaves when no check fails. -/
inductive Effect (s : State) : State → Prop
  /-- NOP. -/
  | same : Effect s s
  /-- A field operation: one scalar register. -/
  | scalar (d : SReg) (c : Coeff) : Effect s (s.setS d (sext32 c))
  /-- One polynomial register. -/
  | poly (d : PReg) (p : Poly256) : Effect s (s.setP d p)
  /-- The K registers of a destination vector that fits. -/
  | vector (d : PReg) (ps : List Poly256) (hl : ps.length = s.k.toNat) (hd : d.toNat + s.k.toNat ≤ 16) :
      Effect s (s.setVec d ps)
  /-- Bytes within BUF. -/
  | bytes (off : BufOffset) (bs : List Byte) (h : off.toNat + bs.length ≤ 4096) : Effect s (s.memWrite off.toNat bs)
  /-- The sampler: one polynomial register and CTR. -/
  | sampled (d : PReg) (pc : Poly256 × Nat) : Effect s (s.setSampled d pc)

theorem vectorMap_effect {f : Poly256 → Poly256} {d a : PReg} {s : State}
    (h : checkVectors s [d, a] = none) : Effect s (s.setVec d ((s.getVec a).map f)) :=
  .vector d _ (by simp) (((checkVectors_eq_none_iff _ _).mp h).2 d (by simp))

theorem vectorZip_effect {f : Poly256 → Poly256 → Poly256} {d a b : PReg} {s : State}
    (h : checkVectors s [d, a, b] = none) : Effect s (s.setVec d (List.zipWith f (s.getVec a) (s.getVec b))) :=
  .vector d _ (by simp) (((checkVectors_eq_none_iff _ _).mp h).2 d (by simp))

theorem storePoly_effect {enc : Poly256 → List Byte} {len : Nat} (hl : ∀ p, (enc p).length = len) {off : BufOffset}
    {a : PReg} {s : State} (h : checkBuffer off len = none) : Effect s (s.memWrite off.toNat (enc (s.getP a))) :=
  .bytes off _ (by rw [hl]; exact (checkBuffer_eq_none_iff _ _).mp h)

theorem storeVec_effect {enc : Poly256 → List Byte} {len : Nat} (hl : ∀ p, (enc p).length = len) {off : BufOffset}
    {a : PReg} {s : State} (h : firstError (checkVectors s [a]) (checkBuffer off (len * s.kNat)) = none) :
    Effect s (s.memWrite off.toNat (encodeVec enc (s.getVec a))) :=
  .bytes off _ (by
    rw [length_encodeVec hl, length_getVec]
    exact (checkBuffer_eq_none_iff _ _).mp ((firstError_eq_none_iff _ _).mp h).2)

theorem loadVec_effect {dec : List Byte → Poly256} {len : Nat} {off : BufOffset} {d : PReg} {s : State}
    (h : firstError (checkVectors s [d]) (checkBuffer off (len * s.kNat)) = none) :
    Effect s (s.setVec d (decodeVec s len dec off.toNat s.kNat)) :=
  .vector d _ (by simp [State.kNat])
    (((checkVectors_eq_none_iff _ _).mp ((firstError_eq_none_iff _ _).mp h).1).2 d (by simp))

/-- A command that ends through `finish` raises one of the four errors, or has the effect it leaves. -/
theorem finish_effect {e : Option ErrorCode} {s t u : State} (h : finish e s t = .next u)
    (ht : e = none → Effect s t) : (∃ c, u = raiseError c s) ∨ Effect s u := by
  rcases finish_cases h with ⟨c, _, rfl⟩ | ⟨he, rfl⟩
  · exact .inl ⟨c, rfl⟩
  · exact .inr (ht he)

/-- Every command that ends in a next state has raised an error and done nothing else, or has one effect of one kind. -/
theorem exec_effect {i : Instr} {s u : State} (h : exec i s = .next u) :
    (∃ c, u = raiseError c s) ∨ Effect s u := by
  cases i with
  | nop => exact .inr (Host.Outcome.next.inj h ▸ .same)
  | montred d a => exact .inr (Host.Outcome.next.inj h ▸ .scalar d _)
  | montmul d a b => exact .inr (Host.Outcome.next.inj h ▸ .scalar d _)
  | barrett d a => exact .inr (Host.Outcome.next.inj h ▸ .scalar d _)
  | csubq d a => exact .inr (Host.Outcome.next.inj h ▸ .scalar d _)
  | padd d a b => exact .inr (Host.Outcome.next.inj h ▸ .poly d _)
  | psub d a b => exact .inr (Host.Outcome.next.inj h ▸ .poly d _)
  | preduce d a => exact .inr (Host.Outcome.next.inj h ▸ .poly d _)
  | pcsubq d a => exact .inr (Host.Outcome.next.inj h ▸ .poly d _)
  | ptomont d a => exact .inr (Host.Outcome.next.inj h ▸ .poly d _)
  | pntt d a => exact .inr (Host.Outcome.next.inj h ▸ .poly d _)
  | pinvntt d a => exact .inr (Host.Outcome.next.inj h ▸ .poly d _)
  | pbasemul d a b => exact .inr (Host.Outcome.next.inj h ▸ .poly d _)
  | vadd d a b => exact finish_effect h vectorZip_effect
  | vsub d a b => exact finish_effect h vectorZip_effect
  | vreduce d a => exact finish_effect h vectorMap_effect
  | vcsubq d a => exact finish_effect h vectorMap_effect
  | vntt d a => exact finish_effect h vectorMap_effect
  | vinvntt d a => exact finish_effect h vectorMap_effect
  | vacc d a b => exact finish_effect h fun _ => .poly d _
  | ptobytes off a => exact finish_effect h (storePoly_effect length_toBytes)
  | pfrombytes d off => exact finish_effect h fun _ => .poly d _
  | pcomp4 off a => exact finish_effect h (storePoly_effect (length_compressPoly 4))
  | pcomp5 off a => exact finish_effect h (storePoly_effect (length_compressPoly 5))
  | pdecomp4 d off => exact finish_effect h fun _ => .poly d _
  | pdecomp5 d off => exact finish_effect h fun _ => .poly d _
  | pfrommsg d off => exact finish_effect h fun _ => .poly d _
  | ptomsg off a => exact finish_effect h (storePoly_effect length_toMsg)
  | vtobytes off a => exact finish_effect h (storeVec_effect length_toBytes)
  | vfrombytes d off => exact finish_effect h loadVec_effect
  | vcomp10 off a => exact finish_effect h (storeVec_effect (length_compressPoly 10))
  | vcomp11 off a => exact finish_effect h (storeVec_effect (length_compressPoly 11))
  | vdecomp10 d off => exact finish_effect h loadVec_effect
  | vdecomp11 d off => exact finish_effect h loadVec_effect
  | rej d off a => exact finish_effect ((execRej_eq_finish d off a s).symm.trans h) fun _ => .sampled d _

/-- Every command ends in a next state (R266). -/
theorem exec_next (i : Instr) (s : State) : ∃ u, exec i s = .next u := by
  cases i with
  | nop => exact ⟨_, rfl⟩
  | montred d a => exact ⟨_, rfl⟩
  | montmul d a b => exact ⟨_, rfl⟩
  | barrett d a => exact ⟨_, rfl⟩
  | csubq d a => exact ⟨_, rfl⟩
  | padd d a b => exact ⟨_, rfl⟩
  | psub d a b => exact ⟨_, rfl⟩
  | preduce d a => exact ⟨_, rfl⟩
  | pcsubq d a => exact ⟨_, rfl⟩
  | ptomont d a => exact ⟨_, rfl⟩
  | pntt d a => exact ⟨_, rfl⟩
  | pinvntt d a => exact ⟨_, rfl⟩
  | pbasemul d a b => exact ⟨_, rfl⟩
  | vadd d a b => exact finish_next _ _ _
  | vsub d a b => exact finish_next _ _ _
  | vreduce d a => exact finish_next _ _ _
  | vcsubq d a => exact finish_next _ _ _
  | vntt d a => exact finish_next _ _ _
  | vinvntt d a => exact finish_next _ _ _
  | vacc d a b => exact finish_next _ _ _
  | ptobytes off a => exact finish_next _ _ _
  | pfrombytes d off => exact finish_next _ _ _
  | pcomp4 off a => exact finish_next _ _ _
  | pcomp5 off a => exact finish_next _ _ _
  | pdecomp4 d off => exact finish_next _ _ _
  | pdecomp5 d off => exact finish_next _ _ _
  | pfrommsg d off => exact finish_next _ _ _
  | ptomsg off a => exact finish_next _ _ _
  | vtobytes off a => exact finish_next _ _ _
  | vfrombytes d off => exact finish_next _ _ _
  | vcomp10 off a => exact finish_next _ _ _
  | vcomp11 off a => exact finish_next _ _ _
  | vdecomp10 d off => exact finish_next _ _ _
  | vdecomp11 d off => exact finish_next _ _ _
  | rej d off a => 
    obtain ⟨u, hu⟩ := finish_next (checkBuffer off (rejLength a s)) s (s.setSampled d (rejResult d off a s))
    exact ⟨u, (execRej_eq_finish d off a s).trans hu⟩

/-! ### What an effect leaves -/

theorem Effect.err {s u : State} (h : Effect s u) : u.err = s.err := by cases h <;> simp
theorem Effect.code {s u : State} (h : Effect s u) : u.code = s.code := by cases h <;> simp
theorem Effect.k {s u : State} (h : Effect s u) : u.k = s.k := by cases h <;> simp
theorem Effect.pending {s u : State} (h : Effect s u) : u.pending = s.pending := by cases h <;> simp
theorem Effect.responses {s u : State} (h : Effect s u) : u.responses = s.responses := by cases h <;> simp
theorem Effect.freeCount {s u : State} (h : Effect s u) : u.freeCount = s.freeCount := by cases h <;> simp

/-- A command keeps BUF in canonical form. -/
theorem Effect.buf_wf {s u : State} (h : Effect s u) (hw : s.buf.wf) : u.buf.wf := by
  cases h with
  | bytes off bs hl => exact Memory.wf_writeBytes hw hl
  | vector d ps hl hd => rw [State.setVec_buf]; exact hw
  | same => exact hw
  | scalar d c => exact hw
  | poly d p => exact hw
  | sampled d pc => exact hw

end Sys2Proof.Machine
end

