-- ==== Sys2Proof/Laws/Field.lean ====
section
/-! SUPPORT. The field functions against their integer formulas: one lemma per function. -/

namespace Sys2Proof.Machine

@[simp] theorem toInt_wrap16 (v : Int) : (wrap16 v).toInt = Spec.wrap16 v := by
  simp [wrap16, Spec.wrap16, BitVec.toInt_ofInt]

theorem toInt_wrap32 (v : Int) : (wrap32 v).toInt = Int.bmod v 4294967296 := by
  simp [wrap32, BitVec.toInt_ofInt]

theorem Coeff.toInt_range (c : Coeff) : -32768 ≤ c.toInt ∧ c.toInt < 32768 := by
  have h1 := BitVec.le_toInt c
  have h2 := BitVec.toInt_lt (x := c)
  simp at h1 h2; omega

theorem Word.toInt_range (w : Word) : -2147483648 ≤ w.toInt ∧ w.toInt < 2147483648 := by
  have h1 := BitVec.le_toInt w
  have h2 := BitVec.toInt_lt (x := w)
  simp at h1 h2; omega

/-- wrap16 does nothing to a value that fits an int16. -/
theorem Spec.wrap16_of_fits {v : Int} (h : -32768 ≤ v ∧ v < 32768) : Spec.wrap16 v = v := by
  rw [Spec.wrap16, Int.bmod_def]; split <;> omega

theorem Spec.wrap16_range (v : Int) : -32768 ≤ Spec.wrap16 v ∧ Spec.wrap16 v < 32768 := by
  simp only [Spec.wrap16, Int.bmod_def]; split <;> omega

/-- `sext32` keeps the value. -/
@[simp] theorem toInt_sext32 (c : Coeff) : (sext32 c).toInt = c.toInt := by
  rw [sext32, BitVec.toInt_signExtend_of_le (by decide)]

theorem shiftRight16 (v : Int) : v >>> (16 : Nat) = v / 65536 := by
  rw [Int.shiftRight_eq_div_pow]; norm_num

theorem shiftRight26 (v : Int) : v >>> (26 : Nat) = v / 67108864 := by
  rw [Int.shiftRight_eq_div_pow]; norm_num

theorem bmod32_range (v : Int) : -2147483648 ≤ Int.bmod v 4294967296 ∧ Int.bmod v 4294967296 < 2147483648 := by
  simp only [Int.bmod_def]; split <;> omega

/-- MontReduce (R112) on integers. -/
theorem toInt_montReduce (a : Word) : (montReduce a).toInt = Spec.montReduce a.toInt := by
  have hr := bmod32_range (a.toInt - Int.bmod (a.toInt * 62209) 65536 * 3329)
  simp only [montReduce, toInt_wrap16, toInt_wrap32, shiftRight16, Config.q, Config.qInv, Spec.montReduce]
  rw [Spec.wrap16_of_fits]
  · rfl
  · simp only [Spec.wrap16]; omega

/-- MontMul (R113) on integers: the product of two int16 fits an int32. -/
theorem toInt_montMul (a b : Coeff) : (montMul a b).toInt = Spec.montReduce (a.toInt * b.toInt) := by
  have ha := Coeff.toInt_range a
  have hb := Coeff.toInt_range b
  have h1 : a.toInt * b.toInt ≤ 1073741824 := by nlinarith
  have h2 : -1073741824 ≤ a.toInt * b.toInt := by nlinarith
  have e : Int.bmod (a.toInt * b.toInt) 4294967296 = a.toInt * b.toInt := by simp only [Int.bmod_def]; split <;> omega
  rw [montMul, toInt_montReduce, toInt_wrap32, e]

/-- BarrettReduce (R115) on integers: no intermediate overflows. -/
theorem toInt_barrettReduce (a : Coeff) : (barrettReduce a).toInt = Spec.barrett a.toInt := by
  have ha := Coeff.toInt_range a
  simp only [barrettReduce, toInt_wrap16, shiftRight26, Config.q, Config.barrettV, Spec.barrett]
  exact Spec.wrap16_of_fits (by omega)

/-- CondSubQ (R116) on integers: the comparison is exact and nothing wraps. -/
theorem toInt_condSubQ (a : Coeff) : (condSubQ a).toInt = Spec.condSubQ a.toInt := by
  have ha := Coeff.toInt_range a
  simp only [condSubQ, Spec.condSubQ, Config.q]
  split
  · rfl
  · rw [toInt_wrap16]; exact Spec.wrap16_of_fits (by omega)

@[simp] theorem toInt_addCoeff (x y : Coeff) : (addCoeff x y).toInt = Spec.wrap16 (x.toInt + y.toInt) := by
  rw [addCoeff, toInt_wrap16]

@[simp] theorem toInt_subCoeff (x y : Coeff) : (subCoeff x y).toInt = Spec.wrap16 (x.toInt - y.toInt) := by
  rw [subCoeff, toInt_wrap16]

/-- A coefficient is the int16 of its own value. -/
theorem int16_toInt (c : Coeff) : Spec.int16 c.toInt = c := BitVec.ofInt_toInt

theorem toInt_int16 (v : Int) : (Spec.int16 v).toInt = Spec.wrap16 v := toInt_wrap16 v

/-- The forward butterfly is the pair of R134. -/
theorem ctButterfly_eq_ctPair (z x y : Coeff) : ctButterfly z x y = Spec.ctPair z x y := by
  simp only [ctButterfly, Spec.ctPair, Spec.montMul, addCoeff, subCoeff, toInt_montMul]; rfl

/-- The inverse butterfly is the pair of R135. -/
theorem gsButterfly_eq_gsPair (z x y : Coeff) : gsButterfly z x y = Spec.gsPair z x y := by
  refine Prod.ext ((int16_toInt _).symm.trans ?_) ((int16_toInt _).symm.trans ?_)
  · simp only [gsButterfly, Spec.gsPair, toInt_barrettReduce, toInt_addCoeff]
  · simp only [gsButterfly, Spec.gsPair, Spec.montMul, toInt_montMul, toInt_subCoeff]

/-- MontReduce inside its precondition (R112): congruent to a*R^-1 and in (-q, q). -/
theorem Spec.montReduce_spec {a : Int} (h : -109084672 < a ∧ a < 109084672) :
    (Spec.montReduce a * 65536 - a) % 3329 = 0 ∧ -3329 < Spec.montReduce a ∧ Spec.montReduce a < 3329 := by
  have hu : -32768 ≤ Int.bmod (a * 62209) 65536 ∧ Int.bmod (a * 62209) 65536 < 32768 := Spec.wrap16_range _
  have hm : (Int.bmod (a * 62209) 65536 - a * 62209) % 65536 = 0 := by simp only [Int.bmod_def]; split <;> omega
  have e : Spec.montReduce a = (a - Int.bmod (a * 62209) 65536 * 3329) / 65536 := by
    rw [Spec.montReduce]
    congr 1
    generalize Int.bmod (a * 62209) 65536 = u at *
    simp only [Int.bmod_def]; split <;> omega
  rw [e]
  generalize Int.bmod (a * 62209) 65536 = u at *
  omega

end Sys2Proof.Machine
end

