-- ==== Sys2Proof/Laws/PerInstr.lean ====
section
/-! SUPPORT. One lemma per command: its opcode and its format are a row of the opcode map (R84), and its word has that row's
op in bits 31:24 and zeros in the fields the format does not use (R81). -/

namespace Sys2Proof.Laws.TableRow

/-- The command stands in the opcode map, and the fields its format does not use are zero in its word. -/
def Statement (i : Instr) : Prop :=
  OpcodeRow.mk i.opcode i.format ∈ opcodeTable ∧ i.fields.op = i.opcode ∧
    (i.format = .Z → i.fields.rd = 0 ∧ i.fields.ra = 0 ∧ i.fields.rb = 0 ∧ i.fields.imm = 0) ∧
    (i.format = .S2 ∨ i.format = .P2 → i.fields.rb = 0 ∧ i.fields.imm = 0) ∧
    (i.format = .S3 ∨ i.format = .P3 → i.fields.imm = 0) ∧
    (i.format = .ST → i.fields.rd = 0 ∧ i.fields.rb = 0) ∧
    (i.format = .LD → i.fields.ra = 0 ∧ i.fields.rb = 0) ∧
    (i.format = .RJ → i.fields.rb = 0)

theorem nop : Statement (.nop) := by
  simp [Statement, opcodeTable, Instr.opcode, Instr.format, Instr.fields]
theorem montred (d a : SReg) : Statement (.montred d a) := by
  simp [Statement, opcodeTable, Instr.opcode, Instr.format, Instr.fields]
theorem montmul (d a b : SReg) : Statement (.montmul d a b) := by
  simp [Statement, opcodeTable, Instr.opcode, Instr.format, Instr.fields]
theorem barrett (d a : SReg) : Statement (.barrett d a) := by
  simp [Statement, opcodeTable, Instr.opcode, Instr.format, Instr.fields]
theorem csubq (d a : SReg) : Statement (.csubq d a) := by
  simp [Statement, opcodeTable, Instr.opcode, Instr.format, Instr.fields]
theorem padd (d a b : PReg) : Statement (.padd d a b) := by
  simp [Statement, opcodeTable, Instr.opcode, Instr.format, Instr.fields]
theorem psub (d a b : PReg) : Statement (.psub d a b) := by
  simp [Statement, opcodeTable, Instr.opcode, Instr.format, Instr.fields]
theorem preduce (d a : PReg) : Statement (.preduce d a) := by
  simp [Statement, opcodeTable, Instr.opcode, Instr.format, Instr.fields]
theorem pcsubq (d a : PReg) : Statement (.pcsubq d a) := by
  simp [Statement, opcodeTable, Instr.opcode, Instr.format, Instr.fields]
theorem ptomont (d a : PReg) : Statement (.ptomont d a) := by
  simp [Statement, opcodeTable, Instr.opcode, Instr.format, Instr.fields]
theorem pntt (d a : PReg) : Statement (.pntt d a) := by
  simp [Statement, opcodeTable, Instr.opcode, Instr.format, Instr.fields]
theorem pinvntt (d a : PReg) : Statement (.pinvntt d a) := by
  simp [Statement, opcodeTable, Instr.opcode, Instr.format, Instr.fields]
theorem pbasemul (d a b : PReg) : Statement (.pbasemul d a b) := by
  simp [Statement, opcodeTable, Instr.opcode, Instr.format, Instr.fields]
theorem vadd (d a b : PReg) : Statement (.vadd d a b) := by
  simp [Statement, opcodeTable, Instr.opcode, Instr.format, Instr.fields]
theorem vsub (d a b : PReg) : Statement (.vsub d a b) := by
  simp [Statement, opcodeTable, Instr.opcode, Instr.format, Instr.fields]
theorem vreduce (d a : PReg) : Statement (.vreduce d a) := by
  simp [Statement, opcodeTable, Instr.opcode, Instr.format, Instr.fields]
theorem vcsubq (d a : PReg) : Statement (.vcsubq d a) := by
  simp [Statement, opcodeTable, Instr.opcode, Instr.format, Instr.fields]
theorem vntt (d a : PReg) : Statement (.vntt d a) := by
  simp [Statement, opcodeTable, Instr.opcode, Instr.format, Instr.fields]
theorem vinvntt (d a : PReg) : Statement (.vinvntt d a) := by
  simp [Statement, opcodeTable, Instr.opcode, Instr.format, Instr.fields]
theorem vacc (d a b : PReg) : Statement (.vacc d a b) := by
  simp [Statement, opcodeTable, Instr.opcode, Instr.format, Instr.fields]
theorem ptobytes (off : BufOffset) (a : PReg) : Statement (.ptobytes off a) := by
  simp [Statement, opcodeTable, Instr.opcode, Instr.format, Instr.fields]
theorem pfrombytes (d : PReg) (off : BufOffset) : Statement (.pfrombytes d off) := by
  simp [Statement, opcodeTable, Instr.opcode, Instr.format, Instr.fields]
theorem pcomp4 (off : BufOffset) (a : PReg) : Statement (.pcomp4 off a) := by
  simp [Statement, opcodeTable, Instr.opcode, Instr.format, Instr.fields]
theorem pcomp5 (off : BufOffset) (a : PReg) : Statement (.pcomp5 off a) := by
  simp [Statement, opcodeTable, Instr.opcode, Instr.format, Instr.fields]
theorem pdecomp4 (d : PReg) (off : BufOffset) : Statement (.pdecomp4 d off) := by
  simp [Statement, opcodeTable, Instr.opcode, Instr.format, Instr.fields]
theorem pdecomp5 (d : PReg) (off : BufOffset) : Statement (.pdecomp5 d off) := by
  simp [Statement, opcodeTable, Instr.opcode, Instr.format, Instr.fields]
theorem pfrommsg (d : PReg) (off : BufOffset) : Statement (.pfrommsg d off) := by
  simp [Statement, opcodeTable, Instr.opcode, Instr.format, Instr.fields]
theorem ptomsg (off : BufOffset) (a : PReg) : Statement (.ptomsg off a) := by
  simp [Statement, opcodeTable, Instr.opcode, Instr.format, Instr.fields]
theorem vtobytes (off : BufOffset) (a : PReg) : Statement (.vtobytes off a) := by
  simp [Statement, opcodeTable, Instr.opcode, Instr.format, Instr.fields]
theorem vfrombytes (d : PReg) (off : BufOffset) : Statement (.vfrombytes d off) := by
  simp [Statement, opcodeTable, Instr.opcode, Instr.format, Instr.fields]
theorem vcomp10 (off : BufOffset) (a : PReg) : Statement (.vcomp10 off a) := by
  simp [Statement, opcodeTable, Instr.opcode, Instr.format, Instr.fields]
theorem vcomp11 (off : BufOffset) (a : PReg) : Statement (.vcomp11 off a) := by
  simp [Statement, opcodeTable, Instr.opcode, Instr.format, Instr.fields]
theorem vdecomp10 (d : PReg) (off : BufOffset) : Statement (.vdecomp10 d off) := by
  simp [Statement, opcodeTable, Instr.opcode, Instr.format, Instr.fields]
theorem vdecomp11 (d : PReg) (off : BufOffset) : Statement (.vdecomp11 d off) := by
  simp [Statement, opcodeTable, Instr.opcode, Instr.format, Instr.fields]
theorem rej (d : PReg) (off : BufOffset) (a : SReg) : Statement (.rej d off a) := by
  simp [Statement, opcodeTable, Instr.opcode, Instr.format, Instr.fields]

end Sys2Proof.Laws.TableRow
end

