-- ==== Sys2Proof/Laws/Sampler.lean ====
section
/-! SUPPORT. The sampler: what one candidate and one call do to the count, and what REJ leaves. -/

namespace Sys2Proof.Machine

theorem acceptCandidate_count (v : Coeff) (pc : Poly256 × Nat) :
    pc.2 ≤ (acceptCandidate v pc).2 ∧ (acceptCandidate v pc).2 ≤ max pc.2 256 := by
  unfold acceptCandidate; split
  · rename_i h; exact ⟨Nat.le_succ _, Nat.le_trans h.1 (Nat.le_max_right _ _)⟩
  · exact ⟨Nat.le_refl _, Nat.le_max_left _ _⟩

/-- The count never falls, and passes 256 only if it was past it at entry (R242). -/
theorem rejUniform_count : ∀ (bs : List Byte) (pc : Poly256 × Nat),
    pc.2 ≤ (rejUniform bs pc).2 ∧ (rejUniform bs pc).2 ≤ max pc.2 256
  | b0 :: b1 :: b2 :: bs, pc => by
    have h1 := acceptCandidate_count (tripleLow b0 b1) pc
    have h2 := acceptCandidate_count (tripleHigh b1 b2) (acceptCandidate (tripleLow b0 b1) pc)
    have h3 := rejUniform_count bs (acceptCandidate (tripleHigh b1 b2) (acceptCandidate (tripleLow b0 b1) pc))
    rw [rejUniform]; split <;> omega
  | [], _ | [_], _ | [_, _], _ => by simp [rejUniform]

/-- A full polynomial stays as it is (R243 corner case (b)). -/
theorem rejUniform_full (bs : List Byte) {pc : Poly256 × Nat} (h : 256 ≤ pc.2) : rejUniform bs pc = pc := by
  unfold rejUniform; split
  · rw [if_neg (by omega)]
  · rfl

/-- What REJ leaves in CTR fits its 9 bits. -/
theorem rejResult_count_lt (d : PReg) (off : BufOffset) (a : SReg) (s : State) : (rejResult d off a s).2 < 512 := by
  have h := (rejUniform_count (s.memRead off.toNat (rejLength a s)) (s.getP d, s.ctr.toNat)).2
  have hc := s.ctr.isLt
  simp only [rejResult] at *
  omega

theorem getP_setSampled (s : State) (d : PReg) (pc : Poly256 × Nat) : (s.setSampled d pc).getP d = pc.1 :=
  State.getP_setP_same s d pc.1

theorem ctr_setSampled (s : State) (d : PReg) {pc : Poly256 × Nat} (h : pc.2 < 512) :
    (s.setSampled d pc).ctr.toNat = pc.2 := by
  simp only [State.setSampled, BitVec.toNat_ofNat]; omega

end Sys2Proof.Machine
end

