-- ==== Sys2Proof/Tests/Slice0.lean ====
section
/-! SUPPORT. The model's own tests: the decoder on words written out from the spec's encodings (R80, R84, R88), the checks of
WellFormed, one step of each command on a small state with a result the spec's test vectors print (95_test_vectors.md),
and for every statement with hypotheses a state and operands that meet them. -/

namespace Sys2Proof.Tests

open Sys2Proof.Machine

-- One proof at a time: many at once ask for more threads than the memory limit leaves room for.
set_option Elab.async false

/-! ## WellFormed refuses an ill-formed term for each of its checks (R81) -/

theorem test_wf_montred_rd : (Instr.montred 8 0).wellFormed = false := by decide
theorem test_wf_montred_ra : (Instr.montred 7 8).wellFormed = false := by decide
theorem test_wf_montmul_rd : (Instr.montmul 15 0 0).wellFormed = false := by decide
theorem test_wf_montmul_ra : (Instr.montmul 0 8 0).wellFormed = false := by decide
theorem test_wf_montmul_rb : (Instr.montmul 0 0 8).wellFormed = false := by decide
theorem test_wf_barrett_rd : (Instr.barrett 8 7).wellFormed = false := by decide
theorem test_wf_barrett_ra : (Instr.barrett 7 8).wellFormed = false := by decide
theorem test_wf_csubq_rd : (Instr.csubq 8 7).wellFormed = false := by decide
theorem test_wf_csubq_ra : (Instr.csubq 7 8).wellFormed = false := by decide
theorem test_wf_rej_ra : (Instr.rej 15 4095 8).wellFormed = false := by decide
theorem test_wf_top_registers : (Instr.montmul 7 7 7).wellFormed = true ∧ (Instr.rej 15 4095 7).wellFormed = true := by
  decide

/-! ## Decoding: op in bits 31:24, rd in 23:20, ra in 19:16, rb in 15:12, imm in 11:0 (R80) -/

theorem test_decode_nop : decode 0x00000000 = .ok .nop ∧ encode .nop = 0x00000000 := ⟨rfl, rfl⟩
theorem test_decode_montred :
    decode 0x01310000 = .ok (.montred 3 1) ∧ encode (.montred 3 1) = 0x01310000 := ⟨rfl, rfl⟩
theorem test_decode_montmul :
    decode 0x02312000 = .ok (.montmul 3 1 2) ∧ encode (.montmul 3 1 2) = 0x02312000 := ⟨rfl, rfl⟩
theorem test_decode_barrett :
    decode 0x03210000 = .ok (.barrett 2 1) ∧ encode (.barrett 2 1) = 0x03210000 := ⟨rfl, rfl⟩
theorem test_decode_csubq : decode 0x04210000 = .ok (.csubq 2 1) ∧ encode (.csubq 2 1) = 0x04210000 := ⟨rfl, rfl⟩
theorem test_decode_padd : decode 0x10554000 = .ok (.padd 5 5 4) ∧ encode (.padd 5 5 4) = 0x10554000 := ⟨rfl, rfl⟩
theorem test_decode_psub : decode 0x11201000 = .ok (.psub 2 0 1) ∧ encode (.psub 2 0 1) = 0x11201000 := ⟨rfl, rfl⟩
theorem test_decode_preduce :
    decode 0x12100000 = .ok (.preduce 1 0) ∧ encode (.preduce 1 0) = 0x12100000 := ⟨rfl, rfl⟩
theorem test_decode_pcsubq : decode 0x13100000 = .ok (.pcsubq 1 0) ∧ encode (.pcsubq 1 0) = 0x13100000 := ⟨rfl, rfl⟩
theorem test_decode_ptomont :
    decode 0x14100000 = .ok (.ptomont 1 0) ∧ encode (.ptomont 1 0) = 0x14100000 := ⟨rfl, rfl⟩
theorem test_decode_pntt : decode 0x15200000 = .ok (.pntt 2 0) ∧ encode (.pntt 2 0) = 0x15200000 := ⟨rfl, rfl⟩
theorem test_decode_pinvntt :
    decode 0x16100000 = .ok (.pinvntt 1 0) ∧ encode (.pinvntt 1 0) = 0x16100000 := ⟨rfl, rfl⟩
theorem test_decode_pbasemul :
    decode 0x17201000 = .ok (.pbasemul 2 0 1) ∧ encode (.pbasemul 2 0 1) = 0x17201000 := ⟨rfl, rfl⟩
theorem test_decode_vadd : decode 0x20102000 = .ok (.vadd 1 0 2) ∧ encode (.vadd 1 0 2) = 0x20102000 := ⟨rfl, rfl⟩
theorem test_decode_vsub : decode 0x21630000 = .ok (.vsub 6 3 0) ∧ encode (.vsub 6 3 0) = 0x21630000 := ⟨rfl, rfl⟩
theorem test_decode_vreduce :
    decode 0x22010000 = .ok (.vreduce 0 1) ∧ encode (.vreduce 0 1) = 0x22010000 := ⟨rfl, rfl⟩
theorem test_decode_vcsubq : decode 0x23200000 = .ok (.vcsubq 2 0) ∧ encode (.vcsubq 2 0) = 0x23200000 := ⟨rfl, rfl⟩
theorem test_decode_vntt : decode 0x25E00000 = .ok (.vntt 14 0) ∧ encode (.vntt 14 0) = 0x25E00000 := ⟨rfl, rfl⟩
theorem test_decode_vinvntt :
    decode 0x26C30000 = .ok (.vinvntt 12 3) ∧ encode (.vinvntt 12 3) = 0x26C30000 := ⟨rfl, rfl⟩
theorem test_decode_vacc : decode 0x27502000 = .ok (.vacc 5 0 2) ∧ encode (.vacc 5 0 2) = 0x27502000 := ⟨rfl, rfl⟩
theorem test_decode_ptobytes :
    decode 0x30050180 = .ok (.ptobytes 0x180 5) ∧ encode (.ptobytes 0x180 5) = 0x30050180 := ⟨rfl, rfl⟩
theorem test_decode_pfrombytes :
    decode 0x31100180 = .ok (.pfrombytes 1 384) ∧ encode (.pfrombytes 1 384) = 0x31100180 := ⟨rfl, rfl⟩
theorem test_decode_pcomp4 :
    decode 0x32000F81 = .ok (.pcomp4 3969 0) ∧ encode (.pcomp4 3969 0) = 0x32000F81 := ⟨rfl, rfl⟩
theorem test_decode_pcomp5 :
    decode 0x33000F61 = .ok (.pcomp5 3937 0) ∧ encode (.pcomp5 3937 0) = 0x33000F61 := ⟨rfl, rfl⟩
theorem test_decode_pdecomp4 :
    decode 0x34100000 = .ok (.pdecomp4 1 0) ∧ encode (.pdecomp4 1 0) = 0x34100000 := ⟨rfl, rfl⟩
theorem test_decode_pdecomp5 :
    decode 0x35100000 = .ok (.pdecomp5 1 0) ∧ encode (.pdecomp5 1 0) = 0x35100000 := ⟨rfl, rfl⟩
theorem test_decode_pfrommsg :
    decode 0x36200200 = .ok (.pfrommsg 2 512) ∧ encode (.pfrommsg 2 512) = 0x36200200 := ⟨rfl, rfl⟩
theorem test_decode_ptomsg :
    decode 0x37020220 = .ok (.ptomsg 544 2) ∧ encode (.ptomsg 544 2) = 0x37020220 := ⟨rfl, rfl⟩
theorem test_decode_vtobytes :
    decode 0x400D0000 = .ok (.vtobytes 0 13) ∧ encode (.vtobytes 0 13) = 0x400D0000 := ⟨rfl, rfl⟩
theorem test_decode_vfrombytes :
    decode 0x41300000 = .ok (.vfrombytes 3 0) ∧ encode (.vfrombytes 3 0) = 0x41300000 := ⟨rfl, rfl⟩
theorem test_decode_vcomp10 :
    decode 0x42040040 = .ok (.vcomp10 64 4) ∧ encode (.vcomp10 64 4) = 0x42040040 := ⟨rfl, rfl⟩
theorem test_decode_vcomp11 :
    decode 0x43040040 = .ok (.vcomp11 64 4) ∧ encode (.vcomp11 64 4) = 0x43040040 := ⟨rfl, rfl⟩
theorem test_decode_vdecomp10 :
    decode 0x44800040 = .ok (.vdecomp10 8 64) ∧ encode (.vdecomp10 8 64) = 0x44800040 := ⟨rfl, rfl⟩
theorem test_decode_vdecomp11 :
    decode 0x45800040 = .ok (.vdecomp11 8 64) ∧ encode (.vdecomp11 8 64) = 0x45800040 := ⟨rfl, rfl⟩
theorem test_decode_rej : decode 0x50010000 = .ok (.rej 0 0 1) ∧ encode (.rej 0 0 1) = 0x50010000 := ⟨rfl, rfl⟩

/-- The illegal words of the table of L2.7: unassigned opcodes, with the slot left open on purpose (R84); a non-zero bit in a
field the format does not use; a scalar field of 8 to 15 (R85). -/
theorem test_decode_refuses_opcodes :
    decode 0x05000000 = .error .unassignedOpcode ∧ decode 0x24000000 = .error .unassignedOpcode ∧
      decode 0xFF000000 = .error .unassignedOpcode := ⟨rfl, rfl, rfl⟩

theorem test_decode_refuses_unused_fields :
    decode 0x00000001 = .error .unusedFieldNotZero ∧ decode 0x01311000 = .error .unusedFieldNotZero ∧
      decode 0x01310001 = .error .unusedFieldNotZero ∧ decode 0x12001000 = .error .unusedFieldNotZero ∧
      decode 0x10000001 = .error .unusedFieldNotZero ∧ decode 0x30100000 = .error .unusedFieldNotZero ∧
      decode 0x31010000 = .error .unusedFieldNotZero ∧ decode 0x50001000 = .error .unusedFieldNotZero :=
  ⟨rfl, rfl, rfl, rfl, rfl, rfl, rfl, rfl⟩

theorem test_decode_refuses_scalar_fields :
    decode 0x01800000 = .error .scalarFieldOutOfRange ∧ decode 0x01080000 = .error .scalarFieldOutOfRange ∧
      decode 0x02318000 = .error .scalarFieldOutOfRange ∧ decode 0x50080000 = .error .scalarFieldOutOfRange :=
  ⟨rfl, rfl, rfl, rfl⟩

theorem test_decode_table_word : decodeTableWord 32 0x10554000 = some (.padd 5 5 4) ∧
    decodeTableWord 32 0x24000000 = none := ⟨rfl, rfl⟩

/-! ## Small states and one step -/

/-- Every coefficient is `c`. -/
def all (c : Int) : Poly256 := polyOfList (List.replicate 256 (wrap16 c))

/-- The coefficients listed, all the others 0. -/
def first (cs : List Int) : Poly256 := polyOfList (cs.map wrap16)

/-- Coefficient `i` is `f i`. -/
def poly (f : Nat → Int) : Poly256 := polyOfList ((List.range 256).map fun i => wrap16 (f i))

/-- `s` with `ps` in P0, P1, ... -/
def withPolys (ps : List Poly256) (s : State) : State := s.setVec 0 ps

/-- `s` with S1 and S2. -/
def withScalars (a b : Word) (s : State) : State := (s.setS 1 a).setS 2 b

/-- `s` with bytes in BUF from an offset on. -/
def withBytes (a : Nat) (bs : List Nat) (s : State) : State := s.memWrite a (bs.map (BitVec.ofNat 8))

/-- `s` with PARAM.K. -/
def withK (k : BitVec 3) (s : State) : State := { s with k := k }

/-- `s` with the host's next access. -/
def does (e : HostEvent) (s : State) : State := { s with pending := [e] }

/-- The state after one step. -/
def after (s : State) : State :=
  match step s with
  | .next t => t
  | .fault _ => s
  | .refused _ => s

/-- The state after one command word. -/
def run (w : Nat) (s : State) : State := after (s.withFetchWord 32 w)

/-- Some coefficients of a register. -/
def lanes (s : State) (n : PReg) (i count : Nat) : List Int :=
  (((s.getP n).coeffs.drop i).take count).map BitVec.toInt

/-- Some bytes of BUF. -/
def bytes (s : State) (a count : Nat) : List Nat := (s.memRead a count).map BitVec.toNat

/-! ## Commands (the rows of L2 of 95_test_vectors.md) -/

theorem test_nop : step (State.reset.withFetchWord 32 0) = .next { State.reset with responses := [.writeDone] } := rfl
theorem test_montred_negative :
    (run 0x01310000 (withScalars 0xFFFFFFFF 0 State.reset)).getS 3 = 0xFFFFFF57 := by
  decide +kernel
theorem test_montred_in_place_far_outside :
    (run 0x01110000 (withScalars 0x7FFFFFFF 0 State.reset)).getS 1 = 0x00007F57 := by
  decide +kernel
theorem test_montmul_ignores_high_half :
    (run 0x02312000 (withScalars 0x12340005 0xABCD0007 State.reset)).getS 3 = 0xFFFFFD19 := by
  decide +kernel
theorem test_montmul_most_negative :
    (run 0x02312000 (withScalars 0xFFFF8000 0x00000D00 State.reset)).getS 3 = 0xFFFFF980 := by
  decide +kernel
theorem test_barrett_gives_q :
    (run 0x03210000 (withScalars 0xFFFFF2FF 0 State.reset)).getS 2 = 0x00000D01 := by
  decide +kernel
theorem test_barrett_ignores_high_half :
    (run 0x03210000 (withScalars 0xFFFF0D01 0 State.reset)).getS 2 = 0x00000000 := by
  decide +kernel
theorem test_csubq_exact_comparison :
    (run 0x04210000 (withScalars 0xFFFF8D00 0 State.reset)).getS 2 = 0xFFFF8D00 := by
  decide +kernel
theorem test_csubq_ignores_high_half :
    (run 0x04210000 (withScalars 0x00010D01 0 State.reset)).getS 2 = 0x00000000 := by
  decide +kernel
theorem test_padd_wraps :
    lanes (run 0x10201000 (withPolys [first [3000, 32767, -32768, -3328, 32767], first [3000, 1, -1, 3328, 32767]]
    State.reset)) 2 0 5 = [6000, -32768, 32767, 0, -2] := by
  decide +kernel
theorem test_psub_wraps :
    lanes (run 0x11201000 (withPolys [first [5, -32768, 32767, 0, 1234], first [3329, 1, -1, -32768, 1234]]
    State.reset)) 2 0 5 = [-3324, 32767, -32768, -32768, 0] := by
  decide +kernel
theorem test_preduce :
    lanes (run 0x12100000 (withPolys [first [6000, -1, -3329, 3329, 26631, -26631, 32767, -32768]] State.reset)) 1 0
    8 = [2671, 3328, 3329, 0, 3328, 1, 2806, 522] := by
  decide +kernel
theorem test_pcsubq :
    lanes (run 0x13100000 (withPolys [first [3329, 3328, 6657, 6658, -5, 0]] State.reset)) 1 0 6 = [0, 3328, 3328,
    3329, -5, 0] := by
  decide +kernel
theorem test_ptomont :
    lanes (run 0x14100000 (withPolys [first [1, 0, 169, -1, 3328, 32767, -32768, 2285]] State.reset)) 1 0 8 =
    [-1044, 0, 1, 1044, 1044, 56, 988, 1353] := by
  decide +kernel
theorem test_pntt_square :
    lanes (run 0x15100000 (withPolys [first [0, 0, 1]] State.reset)) 1 124 8 = [641, 0, -641, 0, 1584, 0, -1584, 0] := by
  decide +kernel
theorem test_pntt_ramp :
    lanes (run 0x15100000 (withPolys [poly fun i => i] State.reset)) 1 252 4 = [-827, 2134, -3941, -1026] := by
  decide +kernel
theorem test_pinvntt_ramp :
    lanes (run 0x16100000 (withPolys [poly fun i => i] State.reset)) 1 0 8 = [572, -472, 249, 249, -837, -837, 1401,
    1401] := by
  decide +kernel
theorem test_pinvntt_bound :
    lanes (run 0x16100000 (withPolys [all (-16383)] State.reset)) 1 0 8 = [-550, -550, 0, 0, 0, 0, 0, 0] := by
  decide +kernel
theorem test_pbasemul_first :
    lanes (run 0x17201000 (withPolys [first [1, 2, 3, 4], first [5, 6, 7, 8]] State.reset)) 2 0 4 = [2031, -625,
    1496, 2130] := by
  decide +kernel
theorem test_pbasemul_ramp :
    lanes (run 0x17201000 (withPolys [poly fun i => i, poly fun i => i] State.reset)) 2 252 4 = [365, -2418, 1328,
    756] := by
  decide +kernel
theorem test_vadd_overlap :
    (let t := run 0x20102000 (withK 2 (withPolys [all 1, all 2, all 10, all 20] State.reset)); lanes t 1 255 1 ++
    lanes t 2 0 1 ++ lanes t 0 0 1 ++ lanes t 3 0 1) = [11, 22, 1, 20] := by
  decide +kernel
theorem test_vsub :
    (let t := run 0x21630000 (withK 3 (withPolys [all 100, all 200, all 300, all 400, all 500, all 600]
    State.reset)); lanes t 6 0 1 ++ lanes t 7 255 1 ++ lanes t 8 9 1 ++ lanes t 9 0 1) = [300, 300, 300, 0] := by
  decide +kernel
theorem test_vreduce :
    (let t := run 0x22000000 (withK 2 (withPolys [all (-1), all 3329] State.reset)); lanes t 0 7 1 ++ lanes t 1 7 1)
    = [3328, 0] := by
  decide +kernel
theorem test_vcsubq :
    (let t := run 0x23200000 (withK 2 (withPolys [all 3328, all 3329] State.reset)); lanes t 2 7 1 ++ lanes t 3 7 1)
    = [3328, 0] := by
  decide +kernel
theorem test_vntt :
    (let t := run 0x25200000 (withK 2 (withPolys [first [1], first [0, 0, 1]] State.reset)); lanes t 2 0 4 ++ lanes
    t 3 0 4) = [1, 0, 1, 0, 17, 0, -17, 0] := by
  decide +kernel
theorem test_vinvntt :
    (let t := run 0x26200000 (withK 2 (withPolys [all 16383, all (-16383)] State.reset)); lanes t 2 0 3 ++ lanes t 3
    0 3) = [550, 550, 0, -550, -550, 0] := by
  decide +kernel
theorem test_vacc :
    (let p := poly fun i => 1 - i % 2; lanes (run 0x27502000 (withK 2 (withPolys [p, p, p, p] State.reset))) 5 252
    4) = [338, 0, 338, 0] := by
  decide +kernel
theorem test_ptobytes_out_of_domain :
    bytes (run 0x30000010 (withPolys [first [3329, 6657, -1, 4096]] State.reset)) 15 8 = [0, 0, 0, 208, 255, 255,
    47, 0] := by
  decide +kernel
theorem test_ptobytes_last_bytes :
    bytes (run 0x30000E80 (withPolys [poly fun i => 13 * i % 3329] State.reset)) 4093 3 = [230, 60, 207] := by
  decide +kernel
theorem test_pfrombytes :
    lanes (run 0x31300000 (withBytes 0 (List.replicate 384 255) State.reset)) 3 254 2 = [4095, 4095] := by
  decide +kernel
theorem test_pcomp4 :
    bytes (run 0x32000000 (withPolys [poly fun i => 13 * i % 3329] State.reset)) 0 10 = [0, 0, 0, 0, 16, 17, 17, 17,
    17, 17] := by
  decide +kernel
theorem test_pcomp5 :
    bytes (run 0x33000000 (withPolys [poly fun i => 13 * i % 3329] State.reset)) 0 10 = [0, 0, 0, 66, 8, 33, 132,
    16, 132, 16] := by
  decide +kernel
theorem test_pdecomp4 :
    lanes (run 0x34100000 (withBytes 0 [0x10, 0x98, 0x0F] State.reset)) 1 0 6 = [0, 208, 1665, 1873, 3121, 0] := by
  decide +kernel
theorem test_pdecomp5 :
    lanes (run 0x35100000 (withBytes 0 [0x41, 0x0C, 0x52, 0xCC, 0x41] State.reset)) 1 0 2 = [104, 208] := by
  decide +kernel
theorem test_pfrommsg :
    lanes (run 0x36200200 (withBytes 512 [0x0B, 0x30] State.reset)) 2 0 16 = [1665, 1665, 0, 1665, 0, 0, 0, 0, 0, 0,
    0, 0, 1665, 1665, 0, 0] := by
  decide +kernel
theorem test_ptomsg_thresholds :
    bytes (run 0x37000000 (withPolys [first [833, 832, 2496, 2497, 1665, 0, 3328, 3329]] State.reset)) 0 2 = [21, 0] := by
  decide +kernel
theorem test_vtobytes :
    bytes (run 0x40000000 (withK 3 (withPolys [poly fun i => 13 * i % 3329, poly fun i => (13 * i + 1) % 3329, poly
    fun i => (13 * i + 2) % 3329] State.reset))) 768 6 = [2, 240, 0, 28, 144, 2] := by
  decide +kernel
theorem test_vfrombytes :
    (let t := run 0x41300000 (withK 2 (withBytes 384 [0x23, 0x61, 0x45] State.reset)); lanes t 3 0 2 ++ lanes t 4 0
    3) = [0, 0, 291, 1110, 0] := by
  decide +kernel
theorem test_vcomp10 :
    bytes (run 0x42000040 (withK 2 (withPolys [poly fun i => 13 * i % 3329, poly fun i => (3328 - 7 * i) % 3329]
    State.reset))) 384 5 = [0, 248, 191, 127, 254] := by
  decide +kernel
theorem test_vcomp11 :
    bytes (run 0x43000040 (withK 2 (withPolys [poly fun i => 13 * i % 3329, poly fun i => (3328 - 7 * i) % 3329]
    State.reset))) 416 5 = [255, 223, 255, 253, 229] := by
  decide +kernel
theorem test_vdecomp10 :
    lanes (run 0x44800040 (withK 2 (withBytes 384 [0x01, 0x08, 0x30, 0x00, 0x01] State.reset))) 9 0 4 = [3, 7, 10,
    13] := by
  decide +kernel
theorem test_vdecomp11 :
    lanes (run 0x45800040 (withK 2 (withBytes 416 [0x01, 0x10, 0xC0, 0x00, 0x08] State.reset))) 9 0 3 = [2, 3, 5] := by
  decide +kernel
theorem test_rej_fills_last_place :
    (let t := run 0x50010000 { withPolys [all 7777] (withBytes 0 [2, 48, 0, 4, 80, 0] (withScalars 6 0 State.reset))
    with ctr := 254 }; (lanes t 0 253 3, t.ctr)) = ([7777, 2, 3], 256) := by
  decide +kernel
theorem test_rej_ignores_tail :
    (let t := run 0x50010000 { withPolys [all 7777] (withBytes 0 [1, 48, 0, 4, 80] (withScalars 5 0 State.reset))
    with ctr := 0 }; (lanes t 0 0 3, t.ctr)) = ([1, 3, 7777], 2) := by
  decide +kernel

/-! ## Errors (L2.7): the state in which each is raised, and the priority of the checks (R262) -/

theorem test_error_illegal_before_bad_k :
    (let t := run 0x20000001 (withK 0 (withScalars 0 0 State.reset)); (t.err, t.code)) = (true, 1) := by
  decide +kernel
theorem test_error_bad_k_before_range :
    (let t := run 0x400F0FFF (withK 0 (withScalars 0 0 State.reset)); (t.err, t.code)) = (true, 2) := by
  decide +kernel
theorem test_error_register_before_buffer :
    (let t := run 0x400F0FFF (withK 4 (withScalars 0 0 State.reset)); (t.err, t.code)) = (true, 3) := by
  decide +kernel
theorem test_error_buffer :
    (let t := run 0x40000A01 (withK 4 (withScalars 0 0 State.reset)); (t.err, t.code)) = (true, 4) := by
  decide +kernel
theorem test_error_none_at_the_end_of_buf :
    (let t := run 0x40000A00 (withK 4 (withScalars 0 0 State.reset)); (t.err, t.code)) = (false, 0) := by
  decide +kernel
theorem test_error_rej_length :
    (let t := run 0x50010000 (withK 0 (withScalars 0xFFFFFFFF 0 State.reset)); (t.err, t.code)) = (true, 4) := by
  decide +kernel
theorem test_error_none_for_vacc_destination :
    (let t := run 0x27F02000 (withK 2 (withScalars 0 0 State.reset)); (t.err, t.code)) = (false, 0) := by
  decide +kernel

/-! ## The bus (L2.8) -/

theorem test_bus_write_word_of_two_lanes :
    lanes (after (does (.write .word 0x2000 0xFFFF0001) State.reset)) 0 0 3 = [1, -1, 0] := by
  decide +kernel
theorem test_bus_write_half_lane :
    lanes (after (does (.write .half 0x2202 0x0D00) State.reset)) 1 0 3 = [0, 3328, 0] := by
  decide +kernel
theorem test_bus_write_buf :
    bytes (after (does (.write .word 0x1000 0x44332211) State.reset)) 0 5 = [0x11, 0x22, 0x33, 0x44, 0] := by
  decide +kernel
theorem test_bus_read_buf_half :
    (after (does (.read .half 0x1002) (withBytes 0 [0x11, 0x22, 0x33, 0x44] State.reset))).responses = [.readData
    0x4433] := by
  decide +kernel
theorem test_bus_param_mask : (after (does (.write .word 0x0008 0xFFFFFFFF) State.reset)).k = 7 := by decide +kernel
theorem test_bus_ctr_mask : (after (does (.write .word 0x000C 0xFFFFFFFF) State.reset)).ctr = 511 := by decide +kernel
theorem test_bus_errors :
    [busLocation .word 0x0014, busLocation .word 0x0040, busLocation .word 0x0FFC, busLocation .half 0x1001,
    busLocation .half 0x0024, busLocation .byte 0x2000, busLocation .byte 0x3FFF, busLocation .word 0x1002] =
    List.replicate 8 none := by
  decide +kernel
theorem test_bus_status_after_error :
    (after (does (.read .word 0x0004) { State.reset with err := true, code := 3 })).responses = [.readData 0x31] := by
  decide +kernel

/-! ## A state and operands that meet the hypotheses of each statement, at the ends of their ranges -/

/-- A bound on a range that `bufferRange` names is the bound of `bufferOk`. -/
theorem bufferOk_of_range {i : Instr} {s : State}
    (h : ((bufferRange i s).all fun r => decide (r.1.toNat + r.2 ≤ 4096)) = true) : bufferOk i s := by
  intro off len hr
  rw [hr] at h
  exact of_decide_eq_true h

/-- A bound on every listed coefficient bounds every lane. -/
theorem lane_within {p : Poly256} {lo hi : Int}
    (h : (p.coeffs.all fun c => decide (lo ≤ c.toInt ∧ c.toInt ≤ hi)) = true) (i : Fin 256) :
    lo ≤ (lane p i).toInt ∧ (lane p i).toInt ≤ hi :=
  of_decide_eq_true (List.all_eq_true.mp h _ (List.getElem_mem _))

theorem witness_DecodeOfEncodeIsTheCommand :
    (Instr.montmul 7 0 7).wellFormed = true ∧ (Instr.rej 15 4095 7).wellFormed = true ∧
      (Instr.vtobytes 4095 15).wellFormed = true := by decide

theorem witness_EncodeOfDecodeIsTheWord :
    decode 0x50F70FFF = .ok (.rej 15 4095 7) ∧ decode 0x02777000 = .ok (.montmul 7 7 7) := ⟨rfl, rfl⟩

theorem witness_DecodeAcceptsExactlyTheOpcodeMap :
    (∃ row ∈ opcodeTable, (0x50F70FFF : Word) &&& row.format.mask = matchWord row.op) ∧
      (∀ row ∈ opcodeTable, (0x50F80FFF : Word) &&& row.format.mask ≠ matchWord row.op) ∧
      decode 0x50F70FFF = .ok (.rej 15 4095 7) :=
  ⟨by decide +kernel, by decide +kernel, rfl⟩

theorem witness_StepRunsTheDecodedCommand :
    (does (commandWrite 0x10554000) State.reset).pending = commandWrite 0x10554000 :: [] ∧
      (does (commandWrite 0x10554000) State.reset).err = false ∧ decode 0x10554000 = .ok (.padd 5 5 4) ∧
      decodeTableWord 32 0x10554000 = some (.padd 5 5 4) := ⟨rfl, rfl, rfl, rfl⟩

theorem witness_IllegalWordRaisesErrorOne :
    (does (commandWrite 0x24000000) State.reset).pending = commandWrite 0x24000000 :: [] ∧
      (does (commandWrite 0x24000000) State.reset).err = false ∧
      ∀ row ∈ opcodeTable, (0x24000000 : Word) &&& row.format.mask ≠ matchWord row.op :=
  ⟨rfl, rfl, by decide +kernel⟩

/-- A halted block, with a code that a command left. -/
def halted (e : HostEvent) : State := { does e State.reset with err := true, code := 3 }

theorem witness_HaltedBlockDropsCommandsAndIdleBlockWaits :
    (halted (commandWrite 0)).pending = commandWrite 0 :: [] ∧ (halted (commandWrite 0)).err = true ∧
      State.reset.pending = [] := ⟨rfl, rfl, rfl⟩

/-- R51 at the ends of each region: the last legal and the first refused access. -/
theorem witness_LegalAccessesAreThoseOfTheBusMap :
    busLocation .word 0x0010 ≠ none ∧ busLocation .word 0x0014 = none ∧ busLocation .word 0x0020 ≠ none ∧
    busLocation .word 0x003C ≠ none ∧ busLocation .word 0x0040 = none ∧ busLocation .byte 0x1FFF ≠ none ∧
    busLocation .byte 0x2000 = none ∧ busLocation .half 0x3FFE ≠ none ∧ busLocation .half 0x3FFF = none := by decide

theorem witness_RefusedAccessChangesNothing :
    busLocation .half 0x1001 = none ∧
      (does (.write .half 0x1001 7) State.reset).pending = .write .half 0x1001 7 :: [] ∧
      (does (.read .half 0x1001) State.reset).pending = .read .half 0x1001 :: [] := ⟨by decide, rfl, rfl⟩

theorem witness_ReadsHaveNoSideEffect :
    (does (.read .word 0x3FFC) State.reset).pending = .read .word 0x3FFC :: [] ∧
      (halted (.read .byte 0x0000)).pending = .read .byte 0x0000 :: [] := ⟨rfl, rfl⟩

theorem witness_ControlRegistersReadAndWrite (a : BusAddr) :
    (halted (.read .word a)).pending = .read .word a :: [] ∧
      (halted (.write .word a 0xFFFFFFFE)).pending = .write .word a 0xFFFFFFFE :: [] ∧
      (0xFFFFFFFE : Word).toNat % 2 = 0 := ⟨rfl, rfl, by decide⟩

theorem witness_ScalarRegistersOnTheBus :
    (does (.write .word 0x3C 5) State.reset).pending =
        .write .word (BitVec.ofNat 14 (0x20 + 4 * (7 : BitVec 3).toNat)) 5 :: [] ∧
      (does (.read .word 0x20) State.reset).pending =
        .read .word (BitVec.ofNat 14 (0x20 + 4 * (0 : BitVec 3).toNat)) :: [] :=
  ⟨rfl, rfl⟩

theorem witness_BufferOnTheBusIsLittleEndian :
    4095 < 4096 ∧ 4095 % BusWidth.byte.bytes = 0 ∧ 4094 % BusWidth.half.bytes = 0 ∧ 4092 % BusWidth.word.bytes = 0 ∧
      (does (.write .word 0x1FFC 5) State.reset).pending = .write .word (BitVec.ofNat 14 (0x1000 + 4092)) 5 :: [] ∧
      (does (.read .byte 0x1FFF) State.reset).pending = .read .byte (BitVec.ofNat 14 (0x1000 + 4095)) :: [] :=
  ⟨by decide, rfl, rfl, rfl, rfl, rfl⟩

theorem witness_CoefficientsOnTheBus :
    (does (.write .half 0x3FFE 5) State.reset).pending =
      .write .half (BitVec.ofNat 14 (0x2000 + 512 * (15 : PReg).toNat + 2 * (255 : Fin 256).val)) 5 :: [] ∧
    (does (.read .half 0x3FFE) State.reset).pending =
      .read .half (BitVec.ofNat 14 (0x2000 + 512 * (15 : PReg).toNat + 2 * (255 : Fin 256).val)) :: [] ∧
    (254 : Fin 256).val + 1 < 256 ∧ (254 : Fin 256).val % 2 = 0 ∧
    (does (.write .word 0x3FFC 5) State.reset).pending =
      .write .word (BitVec.ofNat 14 (0x2000 + 512 * (15 : PReg).toNat + 2 * (254 : Fin 256).val)) 5 :: [] ∧
    (does (.read .word 0x3FFC) State.reset).pending =
      .read .word (BitVec.ofNat 14 (0x2000 + 512 * (15 : PReg).toNat + 2 * (254 : Fin 256).val)) :: [] :=
  ⟨rfl, rfl, by decide, by decide, rfl, rfl⟩

theorem witness_SoftResetClearsAllButPAndBuf :
    (halted (.write .word 0x10 1)).pending = .write .word 0x10 1 :: [] ∧ (1 : Word).toNat % 2 = 1 := ⟨rfl, by decide⟩

theorem witness_HardResetTakesAnyInitialContents :
    (List.replicate 4096 (0xA5 : Byte)).length = 4096 ∧
      (does (.hardReset (Vector.replicate 16 (all 7)) (List.replicate 4096 0xA5)) State.reset).pending =
        .hardReset (Vector.replicate 16 (all 7)) (List.replicate 4096 0xA5) :: [] :=
  ⟨List.length_replicate, rfl⟩

theorem witness_StepKeepsTheInvariant :
    (does (.write .byte 0x1FFF 9) { withBytes 0 [1, 0, 2] State.reset with err := true, code := 4 }).Inv ∧
      step State.reset = .next State.reset := ⟨by decide +kernel, rfl⟩

theorem witness_RaiseErrorChangesOnlyStatus : (withK 7 State.reset).err = false := rfl

theorem witness_FirstFailedCheckIsTheError :
    (withK 1 State.reset).err = false ∧
      (isVCommand (.vadd 0 0 0) = true ∧
        ¬ ((withK 5 State.reset).k.toNat = 2 ∨ (withK 5 State.reset).k.toNat = 3 ∨ (withK 5 State.reset).k.toNat = 4)) ∧
      ((withK 2 State.reset).k.toNat = 2 ∧
        ∃ b ∈ vectorFields (.vadd 0 0 15), 16 < b.toNat + (withK 2 State.reset).k.toNat) ∧
      ((isVCommand (.vtobytes 2561 12) = true → vectorsOk (.vtobytes 2561 12) (withK 4 State.reset)) ∧
        bufferRange (.vtobytes 2561 12) (withK 4 State.reset) = some (2561, 1536) ∧
        4096 < (2561 : BufOffset).toNat + 1536) ∧
      ((isVCommand (.ptobytes 3713 0) = true → vectorsOk (.ptobytes 3713 0) State.reset) ∧
        bufferRange (.ptobytes 3713 0) State.reset = some (3713, 384) ∧ 4096 < (3713 : BufOffset).toNat + 384) :=
  ⟨rfl, ⟨rfl, by decide⟩, ⟨rfl, ⟨15, by decide, by decide⟩⟩,
    ⟨fun _ => ⟨by decide, by decide⟩, rfl, by decide⟩, ⟨fun h => absurd h (by decide), rfl, by decide⟩⟩

/-- One command of each of the 35, with vectors that end at P15 and ranges that end at the end of BUF. -/
def atTheEdge : List Instr :=
  .nop :: .montred 7 7 :: .montmul 7 7 7 :: .barrett 7 7 :: .csubq 7 7 ::
  .padd 15 15 15 :: .psub 15 15 15 :: .preduce 15 15 :: .pcsubq 15 15 :: .ptomont 15 15 :: .pntt 15 15 ::
  .pinvntt 15 15 :: .pbasemul 15 15 15 ::
  .vadd 12 12 12 :: .vsub 12 12 12 :: .vreduce 12 12 :: .vcsubq 12 12 :: .vntt 12 12 :: .vinvntt 12 12 ::
  .vacc 15 12 12 ::
  .ptobytes 3712 15 :: .pfrombytes 15 3712 :: .pcomp4 3968 15 :: .pcomp5 3936 15 :: .pdecomp4 15 3968 ::
  .pdecomp5 15 3936 :: .pfrommsg 15 4064 :: .ptomsg 4064 15 ::
  .vtobytes 2560 12 :: .vfrombytes 12 2560 :: .vcomp10 2816 12 :: .vcomp11 2688 12 :: .vdecomp10 12 2816 ::
  .vdecomp11 12 2688 :: .rej 15 4095 1 :: []

/-- K = 4, and S1 = 1 for the length of REJ. -/
def edgeState : State := withK 4 (withScalars 1 0 State.reset)

theorem witness_CommandCompletesWhenTheChecksPass : atTheEdge.map Instr.opcode = opcodeTable.map OpcodeRow.op ∧
    ∀ i ∈ atTheEdge, checksPass i edgeState :=
  ⟨by decide, fun i hi =>
    have hv : ∀ i ∈ atTheEdge, isVCommand i = true → ∀ b ∈ vectorFields i, b.toNat + edgeState.k.toNat ≤ 16 := by
      decide
    have hb : ∀ i ∈ atTheEdge, ((bufferRange i edgeState).all fun r => decide (r.1.toNat + r.2 ≤ 4096)) = true := by
      decide
    ⟨fun h => ⟨.inr (.inr rfl), hv i hi h⟩, bufferOk_of_range (hb i hi)⟩⟩

/-- The next state the two frames speak of, for a command of each kind; `lanes` above shows what it holds. -/
theorem witness_NoCommandWritesParamAndOnlyRejWritesCtr :
    (∃ t, exec (.montred 1 1) edgeState = .next t) ∧ ∀ d off a, Instr.montred 1 1 ≠ .rej d off a :=
  ⟨exec_next _ _, fun _ _ _ h => by cases h⟩

theorem witness_CommandChangesOnlyItsDestinations :
    (∃ t, exec (.vtobytes 2560 12) edgeState = .next t) ∧ ¬ writesP (.vtobytes 2560 12) edgeState 12 ∧
      ¬ writesS (.vtobytes 2560 12) 0 ∧ ¬ storesByte (.vtobytes 2560 12) edgeState 2559 ∧
      ¬ storesByte (.vadd 0 4 8) edgeState 0 ∧ ¬ writesP (.vadd 0 4 8) edgeState 4 := by
  refine ⟨exec_next _ _, ?_, ?_, ?_, ?_, ?_⟩
  · rintro ⟨d, c, h, -⟩
    cases h
  · exact id
  · rintro ⟨-, off, len, h, h1, -⟩
    cases h
    exact absurd h1 (by decide)
  · rintro ⟨h, -⟩
    exact absurd h (by decide)
  · rintro ⟨d, c, h, -, h2⟩
    cases h
    exact absurd h2 (by decide)

theorem witness_MontReduceIsCongruentAndBounded :
    (-109084672 < (109084671 : Word).toInt ∧ (109084671 : Word).toInt < 109084672) ∧
      -109084672 < (-109084671 : Word).toInt ∧ (-109084671 : Word).toInt < 109084672 := by decide

theorem witness_MontMulOfASmallOperand :
    (-3329 < (3328 : Coeff).toInt ∧ (3328 : Coeff).toInt < 3329) ∧
      -3329 < (-3328 : Coeff).toInt ∧ (-3328 : Coeff).toInt < 3329 := by decide

/-- R115 at both sides of its exceptions: -9q gives q, -9q - 1 and 9q do not. -/
theorem witness_BarrettReduceOverAllInputs :
    barrettReduce (-29961) = 3329 ∧ barrettReduce (-29962) = 3328 ∧ barrettReduce (29961) = 0 := by decide

theorem witness_CondSubQOverAllInputs :
    (3328 : Coeff).toInt < 3329 ∧ 3329 ≤ (3329 : Coeff).toInt ∧ 0 ≤ (6657 : Coeff).toInt ∧ (6657 : Coeff).toInt < 6658 ∧
      condSubQ 3328 = 3328 ∧ condSubQ 3329 = 0 ∧ condSubQ 6657 = 3328 := by decide

theorem witness_ZetaTablesMatchTheirFormulas :
    (126 < 127) ∧ Config.zetasInv.getD 126 0 = 758 ∧ Config.zetasInv.getD 0 0 = 1701 := by decide

theorem witness_NttGrowsByAtMostSevenTimesQ :
    (9471 : Int) ≤ 9471 ∧ ∀ i, -9471 ≤ (lane (all 9471) i).toInt ∧ (lane (all 9471) i).toInt ≤ 9471 :=
  ⟨by decide, lane_within (by decide +kernel)⟩

theorem witness_NttGivesTheResiduesModuloTheQuadraticFactors :
    (∀ i, -9464 ≤ (lane (all (-9464)) i).toInt ∧ (lane (all (-9464)) i).toInt ≤ 9464) ∧ 1 < 2 :=
  ⟨lane_within (by decide +kernel), by decide⟩

theorem witness_InvNttUndoesNttUpToTheMontgomeryFactor :
    (∀ i, -9464 ≤ (lane (poly fun i => i) i).toInt ∧ (lane (poly fun i => i) i).toInt ≤ 9464) ∧
      ∀ i, -16383 ≤ (lane (ntt (poly fun i => i)) i).toInt ∧ (lane (ntt (poly fun i => i)) i).toInt ≤ 16383 :=
  ⟨lane_within (by decide +kernel), lane_within (by decide +kernel)⟩

theorem witness_BaseMulLanes : 63 < 64 ∧ 4 * 63 + 3 = 255 := by decide

/-- zetas[64] = 2226 stands for 17 (R140), with the largest products of R113. -/
theorem witness_BaseMulPairCarriesOneInverseFactor :
    -3329 < (2226 : Coeff).toInt ∧ (2226 : Coeff).toInt < 3329 ∧ ((2226 : Coeff).toInt - 17 * 65536) % 3329 = 0 ∧
      ∀ x y : Int, (x = (3328 : Coeff).toInt ∨ x = (-3328 : Coeff).toInt) →
        (y = (32767 : Coeff).toInt ∨ y = (-32768 : Coeff).toInt) → -109084672 < x * y ∧ x * y < 109084672 := by
  refine ⟨by decide, by decide, by decide, ?_⟩
  rintro x y (rfl | rfl) (rfl | rfl) <;> decide

/-- Bounds on the coefficients of a pair bound the products of R140. -/
theorem products_within {p r : Poly256} (hp : (p.coeffs.all fun c => decide (-10444 ≤ c.toInt ∧ c.toInt ≤ 10444)) = true)
    (hr : (r.coeffs.all fun c => decide (-10444 ≤ c.toInt ∧ c.toInt ≤ 10444)) = true) (i j : Fin 256) :
    -109084672 < (lane p i).toInt * (lane r j).toInt ∧ (lane p i).toInt * (lane r j).toInt < 109084672 := by
  obtain ⟨h1, h2⟩ := lane_within hp i
  obtain ⟨h3, h4⟩ := lane_within hr j
  constructor <;> nlinarith

/-- 1 + 2X (program 2 of 95_test_vectors.md) and the ramp p[i] = i, whose transforms stay within 10444 (R140). -/
theorem witness_InvNttOfBaseMulIsTheRingProduct :
    (∀ i, -9464 ≤ (lane (first [1, 2]) i).toInt ∧ (lane (first [1, 2]) i).toInt ≤ 9464) ∧
    (∀ i, -9464 ≤ (lane (poly fun i => i) i).toInt ∧ (lane (poly fun i => i) i).toInt ≤ 9464) ∧
    ∀ i j : Fin 256, i.val / 2 = j.val / 2 →
      -109084672 < (lane (ntt (first [1, 2])) i).toInt * (lane (ntt (poly fun i => i)) j).toInt ∧
        (lane (ntt (first [1, 2])) i).toInt * (lane (ntt (poly fun i => i)) j).toInt < 109084672 :=
  ⟨lane_within (by decide +kernel), lane_within (by decide +kernel),
    fun i j _ => products_within (by decide +kernel) (by decide +kernel) i j⟩

/-- For every legal K the last base at which a vector fits, as the statements on vectors need it (R181). -/
theorem witness_VectorAddAndSubComponents :
    ((withK 2 State.reset).k.toNat = 2 ∧ (14 : PReg).toNat + (withK 2 State.reset).k.toNat ≤ 16) ∧
    ((withK 3 State.reset).k.toNat = 3 ∧ (13 : PReg).toNat + (withK 3 State.reset).k.toNat ≤ 16) ∧
    ((withK 4 State.reset).k.toNat = 4 ∧ (12 : PReg).toNat + (withK 4 State.reset).k.toNat ≤ 16 ∧
      (0 : PReg).toNat + (withK 4 State.reset).k.toNat ≤ 16) := by decide

theorem witness_VectorMapComponents :
    edgeState.k.toNat = 4 ∧ (12 : PReg).toNat + edgeState.k.toNat ≤ 16 ∧ (3 : PReg).toNat + edgeState.k.toNat ≤ 16 := by
  decide

theorem witness_VaccAccumulatesBaseProducts :
    edgeState.k.toNat = 4 ∧ (12 : PReg).toNat + edgeState.k.toNat ≤ 16 ∧ (0 : PReg).toNat + edgeState.k.toNat ≤ 16 := by
  decide

/-- The rows of R200's table of L2.5 for d = 12 and d = 11: the hypotheses, and the bytes the spec prints. -/
theorem witness_PackPlacesEachValueAndUnpackInverts :
    (∀ t ∈ [291, 1110], t < 2 ^ 12) ∧ [291, 1110].length * 12 % 8 = 0 ∧ pack 12 [291, 1110] = [0x23, 0x61, 0x45] ∧
      (∀ t ∈ [2047, 0, 2047, 0, 2047, 0, 2047, 0], t < 2 ^ 11) ∧ [2047, 0, 2047, 0, 2047, 0, 2047, 0].length * 11 % 8 = 0 ∧
      pack 11 [2047, 0, 2047, 0, 2047, 0, 2047, 0] =
        [0xFF, 0x07, 0xC0, 0xFF, 0x01, 0xF0, 0x7F, 0x00, 0xFC, 0x1F, 0x00] := by decide +kernel

/-- Rows of the two tables of L2.5 at the ends of the ranges. -/
theorem witness_CompressAndDecompressFormulas :
    (6657 : Coeff).toNat < 6658 ∧ 2047 < 2 ^ 11 ∧ compress 11 6657 = 2047 ∧ compress 10 6657 = 0 ∧
      decompress 11 2047 = 3327 ∧ decompress 1 1 = 1665 := by decide +kernel

theorem witness_ToBytesFormulas : 127 < 128 ∧ 3 * 127 + 2 = 383 := by decide

theorem witness_FromBytesFormulas : (List.replicate 384 (0xFF : Byte)).length = 384 ∧ 127 < 128 :=
  ⟨List.length_replicate, by decide⟩

theorem witness_FromBytesOfToBytesIsCsubq :
    ∀ i, 0 ≤ (lane (poly fun i => if i % 2 = 0 then 6657 else 0) i).toInt ∧
      (lane (poly fun i => if i % 2 = 0 then 6657 else 0) i).toInt < 6658 := fun i =>
  have h := lane_within (lo := 0) (hi := 6657) (p := poly fun i => if i % 2 = 0 then 6657 else 0) (by decide +kernel) i
  ⟨h.1, Int.lt_of_le_of_lt h.2 (by decide)⟩

theorem witness_DecompressOfCompressIsClose :
    (3328 : Coeff).toNat < 3329 ∧ ((1, 832) : Nat × Int) ∈ [(1, (832 : Int)), (4, 104), (5, 52), (10, 2), (11, 1)] ∧
      ((11, 1) : Nat × Int) ∈ [(1, (832 : Int)), (4, 104), (5, 52), (10, 2), (11, 1)] := by decide

theorem witness_MessageBitsRoundTrip : (List.replicate 32 (0xA5 : Byte)).length = 32 := List.length_replicate

theorem witness_PolyStoresWriteTheirBytes :
    (3712 : BufOffset).toNat + 384 ≤ 4096 ∧ (3968 : BufOffset).toNat + 128 ≤ 4096 ∧
      (3936 : BufOffset).toNat + 160 ≤ 4096 ∧ (4064 : BufOffset).toNat + 32 ≤ 4096 := by decide

theorem witness_PolyLoadsWriteTheirRegister :
    (3712 : BufOffset).toNat + 384 = 4096 ∧ (3968 : BufOffset).toNat + 128 = 4096 ∧
      (3936 : BufOffset).toNat + 160 = 4096 ∧ (4064 : BufOffset).toNat + 32 = 4096 := by decide

theorem witness_VectorStoresWriteTheirBytes :
    edgeState.k.toNat = 4 ∧ (12 : PReg).toNat + edgeState.k.toNat ≤ 16 ∧
      (2560 : BufOffset).toNat + 384 * edgeState.k.toNat ≤ 4096 ∧
      (2816 : BufOffset).toNat + 320 * edgeState.k.toNat ≤ 4096 ∧
      (2688 : BufOffset).toNat + 352 * edgeState.k.toNat ≤ 4096 := by decide

theorem witness_VectorLoadsWriteTheirRegisters :
    (withK 2 State.reset).k.toNat = 2 ∧ (14 : PReg).toNat + (withK 2 State.reset).k.toNat ≤ 16 ∧
      (3328 : BufOffset).toNat + 384 * (withK 2 State.reset).k.toNat ≤ 4096 ∧
      (3456 : BufOffset).toNat + 320 * (withK 2 State.reset).k.toNat ≤ 4096 ∧
      (3392 : BufOffset).toNat + 352 * (withK 2 State.reset).k.toNat ≤ 4096 := by decide

theorem witness_RejStoresTheAcceptedCandidates :
    (4095 : BufOffset).toNat + (edgeState.getS 1).toNat ≤ 4096 ∧ (4095 : BufOffset).toNat + (edgeState.getS 2).toNat ≤ 4096 ∧
      (0 : BufOffset).toNat + ((withScalars 4096 0 State.reset).getS 1).toNat ≤ 4096 := by decide

/-- Two buffers of one triple each, and one that holds both: the states of a polynomial filled by two REJ commands, and by
one, at the end of BUF. -/
def firstBuffer : State := withBytes 0 [0x01, 0x30, 0x00] (withScalars 3 0 State.reset)

/-- What the first REJ leaves, with S1 and BUF written anew by the host. -/
def secondBuffer : State := withBytes 4093 [0x04, 0x50, 0x00] (run 0x50010000 firstBuffer)

/-- Both triples in one buffer. -/
def joinedBuffer : State := withBytes 4090 [0x01, 0x30, 0x00, 0x04, 0x50, 0x00] (withScalars 6 0 State.reset)

/-- Only the bus side of a state that a command word ran on differs from that of `exec`, and REJ does not read it. -/
theorem witness_SamplingResumesAcrossBuffers :
    ([0x01, 0x30, 0x00] : List Byte).length % 3 = 0 ∧
    (0 : BufOffset).toNat + (firstBuffer.getS 1).toNat ≤ 4096 ∧ (firstBuffer.getS 1).toNat % 3 = 0 ∧
    (4093 : BufOffset).toNat + (secondBuffer.getS 1).toNat ≤ 4096 ∧
    (4090 : BufOffset).toNat + (joinedBuffer.getS 1).toNat ≤ 4096 ∧
    (∃ t, exec (.rej 0 0 1) firstBuffer = .next t ∧ secondBuffer.getP 0 = t.getP 0 ∧ secondBuffer.ctr = t.ctr ∧
      secondBuffer.ctr = 2) ∧
    joinedBuffer.memRead 4090 6 = firstBuffer.memRead 0 3 ++ secondBuffer.memRead 4093 3 ∧
    joinedBuffer.getP 0 = firstBuffer.getP 0 ∧ joinedBuffer.ctr = firstBuffer.ctr := by
  refine ⟨by decide, by decide, by decide, by decide, by decide, ?_, by decide +kernel, by decide +kernel, by decide⟩
  exact ⟨_, rfl, by decide +kernel, by decide +kernel, by decide +kernel⟩


end Sys2Proof.Tests
end

section
/-! PROOFS. The state of the block: one event at a time, the invariant, the bus access rules for the registers and BUF, and
what each command writes. -/

namespace Sys2Proof.Machine

/-! ### One step -/

/-- A step takes the host's oldest access (R57). -/
theorem step_of_pending {s : State} {e : HostEvent} {rest : List HostEvent} (h : s.pending = e :: rest) :
    step s = perform e { s with pending := rest } := by
  rw [step, nextEvent, h]

/-- A step waits (R292) or performs one event. -/
theorem step_cases {s t : State} (h : step s = .next t) :
    t = s ∨ ∃ e rest, s.pending = e :: rest ∧ perform e { s with pending := rest } = .next t := by
  cases hp : s.pending with
  | nil =>
    rw [step, nextEvent, hp] at h
    exact .inl (Host.Outcome.next.inj h).symm
  | cons e rest => exact .inr ⟨e, rest, rfl, step_of_pending hp ▸ h⟩

/-! ### Legal bus accesses -/

/-- What a read returns does not depend on the host's list. -/
theorem busValue_with_pending (w : BusWidth) (l : Location) (s : State) (rest : List HostEvent) :
    busValue w l { s with pending := rest } = busValue w l s := by
  cases l <;> rfl

/-- A legal read answers the value at its location and changes nothing else (R55). -/
theorem step_read {s : State} {rest : List HostEvent} {w : BusWidth} {addr : BusAddr} {l : Location}
    (h : s.pending = .read w addr :: rest) (hl : busLocation w addr = some l) :
    step s = .next { s with pending := rest, responses := .readData (busValue w l s) :: s.responses } := by
  rw [step_of_pending h, perform, busRead, hl, ← busValue_with_pending w l s rest]
  rfl

/-- A legal write other than one to CMD completes and stores (R55). -/
theorem step_write {s : State} {rest : List HostEvent} {w : BusWidth} {addr : BusAddr} {l : Location} {v : Word}
    (h : s.pending = .write w addr v :: rest) (hl : busLocation w addr = some l) (hc : l ≠ .cmd) :
    step s = .next (busStore w l v { s with pending := rest, responses := .writeDone :: s.responses }) := by
  rw [step_of_pending h, perform, busWrite, hl]
  cases l with
  | cmd => exact absurd rfl hc
  | _ => rfl

/-- The control and scalar registers hold no byte of BUF. -/
theorem controlLocation_ne_buffer (n : Nat) (a : BufOffset) : controlLocation n ≠ some (.buffer a) := by
  unfold controlLocation
  split_ifs <;> simp

/-- Which accesses reach BUF, and where (R51, R53). -/
theorem busLocation_eq_buffer_iff (w : BusWidth) (addr : BusAddr) (a : BufOffset) :
    busLocation w addr = some (.buffer a) ↔ addr.toNat % w.bytes = 0 ∧ addr.toNat = 0x1000 + a.toNat := by
  have ha := a.isLt
  have hb : BitVec.ofNat 12 (addr.toNat - 0x1000) = a ↔ (addr.toNat - 0x1000) % 4096 = a.toNat := by
    rw [← BitVec.toNat_inj, BitVec.toNat_ofNat]
  simp only [busLocation]
  split_ifs with h1 h2 h3 h4 h5
  · simp [h1]
  · simp only [controlLocation_ne_buffer, false_iff]; omega
  · simp; omega
  · simp only [Option.some.injEq, Location.buffer.injEq, hb]; omega
  · simp; omega
  · simp; omega

/-- An aligned access to BUF stays within BUF. -/
theorem aligned_access_fits {w : BusWidth} {a : Nat} (ha : a < Config.bufSize) (hw : a % w.bytes = 0) :
    a + w.bytes ≤ Config.bufSize := by
  cases w <;> simp only [BusWidth.bytes, Config.bufSize] at * <;> omega

theorem buffer_access_fits {w : BusWidth} {addr : BusAddr} {a : BufOffset}
    (h : busLocation w addr = some (.buffer a)) : a.toNat + w.bytes ≤ Config.bufSize := by
  obtain ⟨hw, ha⟩ := (busLocation_eq_buffer_iff w addr a).mp h
  refine aligned_access_fits a.isLt ?_
  cases w <;> simp only [BusWidth.bytes] at * <;> omega

/-! ### The invariant -/

/-- The invariant speaks of BUF and STATUS only. -/
theorem State.Inv.congr {s t : State} (h : s.Inv) (hb : t.buf = s.buf) (he : t.err = s.err) (hc : t.code = s.code) :
    t.Inv := by
  rw [State.Inv, hb, he, hc]; exact h

/-- STATUS at 0 meets the invariant with any BUF in canonical form. -/
theorem State.Inv.of_running {s : State} (hb : s.buf.wf) (he : s.err = false) (hc : s.code = 0) : s.Inv :=
  ⟨hb, fun _ => hc, fun h => absurd (he.symm.trans h) Bool.false_ne_true⟩

theorem raiseError_inv {s : State} (c : ErrorCode) (h : s.Inv) : (raiseError c s).Inv := by
  cases he : s.err with
  | true => rwa [raiseError, if_pos he]
  | false =>
    rw [raiseError_of_running c he]
    exact ⟨h.1, fun e => absurd e.symm Bool.false_ne_true, fun _ => c.code_range⟩

theorem Effect.inv {s t : State} (e : Effect s t) (h : s.Inv) : t.Inv := by
  rw [State.Inv, e.err, e.code]
  exact ⟨e.buf_wf h.1, h.2⟩

theorem exec_inv {i : Instr} {s t : State} (h : s.Inv) (ht : exec i s = .next t) : t.Inv := by
  rcases exec_effect ht with ⟨c, rfl⟩ | e
  · exact raiseError_inv c h
  · exact e.inv h

theorem runCommand_inv {w : Word} {s t : State} (h : s.Inv) (ht : runCommand w s = .next t) : t.Inv := by
  rw [runCommand] at ht
  split at ht
  · exact Host.Outcome.next.inj ht ▸ h
  · split at ht
    · exact Host.Outcome.next.inj ht ▸ raiseError_inv _ h
    · exact exec_inv h ht

theorem softReset_inv {s : State} (h : s.Inv) : (softReset s).Inv := .of_running h.1 rfl rfl

theorem hardReset_inv (p : Vector Poly256 16) (b : List Byte) (s : State) : (hardReset p b s).Inv :=
  .of_running (Memory.wf_writeBytes Memory.wf_nil (by simp)) rfl rfl

theorem setCoeff_inv {s : State} (n : PReg) (i : BitVec 8) (c : Coeff) (h : s.Inv) : (s.setCoeff n i c).Inv :=
  h.congr rfl rfl rfl

/-- A store keeps the invariant where a write to BUF stays within BUF. -/
theorem busStore_inv {w : BusWidth} {l : Location} {v : Word} {s : State} (h : s.Inv)
    (hl : ∀ a, l = .buffer a → a.toNat + w.bytes ≤ Config.bufSize) : (busStore w l v s).Inv := by
  cases l with
  | cmd | status => exact h
  | param | ctr | scalar i => exact h.congr rfl rfl rfl
  | ctrl =>
    rw [busStore]
    split
    · exact softReset_inv h
    · exact h
  | buffer a => exact ⟨Memory.wf_writeBytes h.1 (by simpa using hl a rfl), h.2⟩
  | lane n i =>
    cases w with
    | byte | half => exact setCoeff_inv _ _ _ h
    | word => exact setCoeff_inv _ _ _ (setCoeff_inv _ _ _ h)

theorem busRead_inv {w : BusWidth} {addr : BusAddr} {s : State} (h : s.Inv) : (busRead w addr s).Inv := by
  rw [busRead]
  split <;> exact h

theorem busWrite_inv {w : BusWidth} {addr : BusAddr} {v : Word} {s t : State} (h : s.Inv)
    (ht : busWrite w addr v s = .next t) : t.Inv := by
  rw [busWrite] at ht
  split at ht
  next => exact runCommand_inv (s := answer .writeDone s) h ht
  next l _ hl =>
    exact Host.Outcome.next.inj ht ▸ busStore_inv (s := answer .writeDone s) h
      fun a e => buffer_access_fits (e ▸ hl)
  next => exact Host.Outcome.next.inj ht ▸ h

theorem perform_inv {e : HostEvent} {s t : State} (h : s.Inv) (ht : perform e s = .next t) : t.Inv := by
  cases e with
  | read w addr => exact Host.Outcome.next.inj ht ▸ busRead_inv h
  | write w addr v => exact busWrite_inv h ht
  | hardReset p b => exact Host.Outcome.next.inj ht ▸ hardReset_inv p b s

/-- Settles O18: a step waits or performs one event, and every event keeps the invariant. -/
theorem stepKeepsTheInvariant : Obligations.StepKeepsTheInvariant := by
  intro s t h ht
  rcases step_cases ht with rfl | ⟨e, rest, _, he⟩
  · exact h
  · exact perform_inv (s := { s with pending := rest }) h he

/-! ### Registers on the bus -/

theorem busLocation_scalar (r : BitVec 3) :
    busLocation .word (BitVec.ofNat 14 (0x20 + 4 * r.toNat)) = some (.scalar (r.setWidth 4)) := by
  revert r; decide

@[simp] theorem State.scalar_setS_same (s : State) (r : BitVec 3) (v : Word) :
    (s.setS (r.setWidth 4) v).scalar r = v :=
  State.getS_setS_same s _ v

/-- A state whose scalar registers are all 0 reads 0 in each. -/
theorem State.scalar_of_zero {s : State} (h : s.sRegs = Vector.replicate 8 0) (r : BitVec 3) : s.scalar r = 0 := by
  rw [State.scalar_def]
  simp [h]

/-- Settles O12: the bus rules at the location of S[r], then the rules of `setS`. -/
theorem scalarRegistersOnTheBus : Obligations.ScalarRegistersOnTheBus := by
  refine fun s rest r v => ⟨fun h => ?_, fun h => step_read h (busLocation_scalar r)⟩
  refine ⟨_, step_write h (busLocation_scalar r) (by simp), State.scalar_setS_same _ r v, fun r' hr => ?_,
    fun _ => rfl, fun _ => rfl, rfl, rfl, rfl, rfl, rfl, rfl⟩
  exact State.scalar_setS_other _ v (by simpa using hr)

/-- What a read of STATUS returns as a number (R25). -/
theorem toNat_statusWord (s : State) : (statusWord s).toNat = s.err.toNat + 16 * s.code.toNat := by
  simp only [statusWord, BitVec.toNat_append, shiftLeft_or_of_lt (BitVec.isLt _)]
  simp only [BitVec.toNat_ofBool, BitVec.ofNat_eq_ofNat, BitVec.toNat_ofNat]
  omega

/-- Settles O11: the rule for a legal read or write at each of the five control registers. -/
theorem controlRegistersReadAndWrite : Obligations.ControlRegistersReadAndWrite := by
  intro s rest v
  refine ⟨fun h => step_read h (l := .cmd) rfl, fun h => step_read h (l := .ctrl) rfl,
    fun h => ⟨statusWord s, toNat_statusWord s, step_read h (l := .status) rfl⟩,
    fun h => ⟨paramWord s, ?_, step_read h (l := .param) rfl⟩,
    fun h => ⟨ctrWord s, ?_, step_read h (l := .ctr) rfl⟩,
    fun h => step_write h (l := .status) rfl (by simp),
    fun h => ⟨v.setWidth 3, BitVec.toNat_setWidth 3 v, step_write h (l := .param) rfl (by simp)⟩,
    fun h => ⟨v.setWidth 9, BitVec.toNat_setWidth 9 v, step_write h (l := .ctr) rfl (by simp)⟩, fun h hv => ?_⟩
  · exact BitVec.toNat_setWidth_of_le (by decide)
  · exact BitVec.toNat_setWidth_of_le (by decide)
  · have hbit : v.getLsbD 0 = false := by simp [BitVec.getLsbD, Nat.testBit_zero, hv]
    rw [step_write h (l := .ctrl) rfl (by simp), busStore, hbit]
    rfl

/-! ### BUF on the bus -/

/-- Byte `j` of a number written out little-endian (R52). -/
theorem getElem_natToBytes (n w j : Nat) (h : j < (natToBytes n w).length) :
    ((natToBytes n w)[j]).toNat = w / 256 ^ j % 256 := by
  induction n generalizing w j with
  | zero => simp [natToBytes] at h
  | succ n ih =>
    cases j with
    | zero => simp [natToBytes]
    | succ j =>
      have hj : j < (natToBytes n (w / 256)).length := by simpa using h
      simp only [natToBytes, List.getElem_cons_succ, ih _ _ hj, Nat.div_div_eq_div_mul, Nat.pow_succ']

/-- Byte `j` of a little-endian byte string's number (R52). -/
theorem bytesToNat_div_mod (bs : List Byte) (j : Nat) (h : j < bs.length) :
    bytesToNat bs / 256 ^ j % 256 = (bs[j]).toNat := by
  induction bs generalizing j with
  | nil => simp at h
  | cons b bs ih =>
    have hb := b.isLt
    cases j with
    | zero => simp only [bytesToNat, List.getElem_cons_zero]; omega
    | succ j =>
      have hd : (b.toNat + 256 * bytesToNat bs) / 256 = bytesToNat bs := by omega
      rw [bytesToNat, Nat.pow_succ', ← Nat.div_div_eq_div_mul, hd, ih j (by simpa using h), List.getElem_cons_succ]

theorem busLocation_buffer {w : BusWidth} {a : Nat} (ha : a < 4096) (hw : a % w.bytes = 0) :
    busLocation w (BitVec.ofNat 14 (0x1000 + a)) = some (.buffer (BitVec.ofNat 12 a)) := by
  have h1 : (BitVec.ofNat 14 (0x1000 + a)).toNat = 0x1000 + a := by rw [BitVec.toNat_ofNat]; omega
  have h2 : (BitVec.ofNat 12 a).toNat = a := by rw [BitVec.toNat_ofNat]; omega
  rw [busLocation_eq_buffer_iff, h1, h2]
  refine ⟨?_, rfl⟩
  cases w <;> simp only [BusWidth.bytes] at hw ⊢ <;> omega

/-- A number of at most four bytes is not cut off by the 32-bit answer. -/
theorem toNat_bufferValue (m : Memory) (a : Nat) (w : BusWidth) :
    (BitVec.ofNat 32 (bytesToNat (m.readBytes a w.bytes))).toNat = bytesToNat (m.readBytes a w.bytes) := by
  have hlt := bytesToNat_lt (m.readBytes a w.bytes)
  rw [Memory.length_readBytes] at hlt
  rw [BitVec.toNat_ofNat, Nat.mod_eq_of_lt]
  cases w <;> simp only [BusWidth.bytes] at * <;> omega

/-- Settles O13: the bus rules at BUF, with the little-endian bytes of the data and of the answer. -/
theorem bufferOnTheBusIsLittleEndian : Obligations.BufferOnTheBusIsLittleEndian := by
  intro s rest w a v ha hw
  have hl := busLocation_buffer ha hw
  have hoff : (BitVec.ofNat 12 a).toNat = a := by rw [BitVec.toNat_ofNat]; omega
  refine ⟨fun h => ?_, fun h => ?_⟩
  · refine ⟨_, step_write h hl (by simp), fun j hj => ?_, fun x hx => ?_,
      fun _ => rfl, fun _ => rfl, rfl, rfl, rfl, rfl, rfl, rfl⟩
    · rw [busStore, State.memWrite_buf, hoff, Memory.read_writeBytes_inside _ _ (by simpa using hj),
        getElem_natToBytes]
    · rw [busStore, State.memWrite_buf, hoff, Memory.read_writeBytes_outside _ (by simpa using hx)]
  · refine ⟨_, fun j hj => ?_, ?_, step_read h hl⟩
    · rw [busValue, hoff, State.memRead, toNat_bufferValue, bytesToNat_div_mod _ _ (by simpa using hj),
        Memory.getElem_readBytes]
    · rw [busValue, hoff, State.memRead, toNat_bufferValue]
      simpa using bytesToNat_lt (s.buf.readBytes a w.bytes)

/-! ### Reset -/

/-- Settles O16: BUF is the write of all of INIT_BUF at offset 0. -/
theorem hardResetTakesAnyInitialContents : Obligations.HardResetTakesAnyInitialContents := by
  intro s rest initP initBuf hb h
  refine ⟨_, step_of_pending h, fun _ => rfl, fun a ha => ?_, State.scalar_of_zero rfl, rfl, rfl, rfl, rfl, rfl⟩
  have hr := Memory.read_writeBytes_inside [] 0 (bs := initBuf) (hb ▸ ha)
  rw [Nat.zero_add] at hr
  rwa [hardReset_buf, List.take_of_length_le (Nat.le_of_eq hb)]

/-- Settles O17: an empty BUF is in canonical form and STATUS is 0. -/
theorem resetStateMeetsTheInvariant : Obligations.ResetStateMeetsTheInvariant :=
  ⟨.of_running Memory.wf_nil rfl rfl, State.scalar_of_zero rfl, rfl, rfl, rfl, rfl⟩

/-! ### What each command writes -/

/-- What command `i` can leave, with each write tied to the destinations of `i` (R33): as `Effect`, which does not say which
command wrote. -/
inductive Writes (i : Instr) (s : State) : State → Prop
  /-- An error, and nothing else. -/
  | error (c : ErrorCode) : Writes i s (raiseError c s)
  | nothing : Writes i s s
  | scalar (d : SReg) (v : Word) (hd : writesS i (d.setWidth 3)) : Writes i s (s.setS d v)
  | poly (d : PReg) (p : Poly256) (hd : destinations i s = some (d, 1)) : Writes i s (s.setP d p)
  | vector (d : PReg) (ps : List Poly256) (hd : destinations i s = some (d, ps.length))
      (hfit : d.toNat + ps.length ≤ 16) : Writes i s (s.setVec d ps)
  | bytes (off : BufOffset) (bs : List Byte) (hs : isStore i = true) (hr : bufferRange i s = some (off, bs.length)) :
      Writes i s (s.memWrite off.toNat bs)
  /-- Only REJ writes CTR. -/
  | sampled (d : PReg) (off : BufOffset) (a : SReg) (pc : Poly256 × Nat) (hi : i = .rej d off a) :
      Writes i s (s.setSampled d pc)

theorem finish_writes {i : Instr} {e : Option ErrorCode} {s t u : State} (h : finish e s t = .next u)
    (ht : e = none → Writes i s t) : Writes i s u := by
  rcases finish_cases h with ⟨c, _, rfl⟩ | ⟨he, rfl⟩
  · exact .error c
  · exact ht he

/-- The registers that a vector command writes: K of them, and they fit (R181). -/
theorem vector_writes {i : Instr} {s : State} {bases : List PReg} {d : PReg} {ps : List Poly256}
    (hd : destinations i s = some (d, s.k.toNat)) (hb : d ∈ bases) (hl : ps.length = s.k.toNat)
    (hc : checkVectors s bases = none) : Writes i s (s.setVec d ps) := by
  obtain ⟨_, hfit⟩ := (checkVectors_eq_none_iff s bases).mp hc
  exact .vector d ps (hl ▸ hd) (hl ▸ hfit d hb)

theorem vectorMap_writes {i : Instr} {f : Poly256 → Poly256} {d a : PReg} {s u : State}
    (h : vectorMap f d a s = .next u) (hd : destinations i s = some (d, s.k.toNat)) : Writes i s u :=
  finish_writes h (vector_writes hd (by simp) (by simp))

theorem vectorZip_writes {i : Instr} {f : Poly256 → Poly256 → Poly256} {d a b : PReg} {s u : State}
    (h : vectorZip f d a b s = .next u) (hd : destinations i s = some (d, s.k.toNat)) : Writes i s u :=
  finish_writes h (vector_writes hd (by simp) (by simp))

theorem loadPoly_writes {i : Instr} {len : Nat} {dec : List Byte → Poly256} {d : PReg} {off : BufOffset} {s u : State}
    (h : loadPoly len dec d off s = .next u) (hd : destinations i s = some (d, 1)) : Writes i s u :=
  finish_writes h fun _ => .poly d _ hd

theorem loadVec_writes {i : Instr} {len : Nat} {dec : List Byte → Poly256} {d : PReg} {off : BufOffset} {s u : State}
    (h : loadVec len dec d off s = .next u) (hd : destinations i s = some (d, s.k.toNat)) : Writes i s u :=
  finish_writes h fun hc => vector_writes hd (by simp) (by simp [State.kNat]) ((firstError_eq_none_iff _ _).mp hc).1

theorem storePoly_writes {i : Instr} {len : Nat} {enc : Poly256 → List Byte} {off : BufOffset} {a : PReg} {s u : State}
    (h : storePoly len enc off a s = .next u) (hl : ∀ p, (enc p).length = len) (hs : isStore i = true)
    (hr : bufferRange i s = some (off, len)) : Writes i s u :=
  finish_writes h fun _ => .bytes off _ hs (by rw [hl, hr])

theorem storeVec_writes {i : Instr} {len : Nat} {enc : Poly256 → List Byte} {off : BufOffset} {a : PReg} {s u : State}
    (h : storeVec len enc off a s = .next u) (hl : ∀ p, (enc p).length = len) (hs : isStore i = true)
    (hr : bufferRange i s = some (off, len * s.k.toNat)) : Writes i s u :=
  finish_writes h fun _ => .bytes off _ hs (by rw [length_encodeVec hl, length_getVec, hr])

/-- Every command writes its own destinations only. -/
theorem exec_writes {i : Instr} {s u : State} (h : exec i s = .next u) : Writes i s u := by
  cases i with
  | nop => exact Host.Outcome.next.inj h ▸ .nothing
  | montred d _ | montmul d _ _ | barrett d _ | csubq d _ => exact Host.Outcome.next.inj h ▸ .scalar d _ rfl
  | padd d _ _ | psub d _ _ | preduce d _ | pcsubq d _ | ptomont d _ | pntt d _ | pinvntt d _ | pbasemul d _ _ =>
    exact Host.Outcome.next.inj h ▸ .poly d _ rfl
  | vadd _ _ _ | vsub _ _ _ => exact vectorZip_writes h rfl
  | vreduce _ _ | vcsubq _ _ | vntt _ _ | vinvntt _ _ => exact vectorMap_writes h rfl
  | vacc d _ _ => exact finish_writes h fun _ => .poly d _ rfl
  | pfrombytes _ _ | pdecomp4 _ _ | pdecomp5 _ _ | pfrommsg _ _ => exact loadPoly_writes h rfl
  | vfrombytes _ _ | vdecomp10 _ _ | vdecomp11 _ _ => exact loadVec_writes h rfl
  | ptobytes _ _ => exact storePoly_writes h length_toBytes rfl rfl
  | pcomp4 _ _ => exact storePoly_writes h (length_compressPoly 4) rfl rfl
  | pcomp5 _ _ => exact storePoly_writes h (length_compressPoly 5) rfl rfl
  | ptomsg _ _ => exact storePoly_writes h length_toMsg rfl rfl
  | vtobytes _ _ => exact storeVec_writes h length_toBytes rfl rfl
  | vcomp10 _ _ => exact storeVec_writes h (length_compressPoly 10) rfl rfl
  | vcomp11 _ _ => exact storeVec_writes h (length_compressPoly 11) rfl rfl
  | rej d off a => exact finish_writes ((execRej_eq_finish d off a s).symm.trans h) fun _ => .sampled d off a _ rfl

theorem Writes.ctr {i : Instr} {s t : State} (h : Writes i s t) (hi : ∀ d off a, i ≠ .rej d off a) : t.ctr = s.ctr := by
  cases h with
  | sampled d off a _ he => exact absurd he (hi d off a)
  | error | nothing | scalar | poly | vector | bytes => simp

/-- Settles O23: PARAM and the host's side by `exec_effect`, CTR by `exec_writes`. -/
theorem noCommandWritesParamAndOnlyRejWritesCtr : Obligations.NoCommandWritesParamAndOnlyRejWritesCtr := by
  intro i s t h
  have hctr := (exec_writes h).ctr
  rcases exec_effect h with ⟨c, rfl⟩ | e
  · exact ⟨raiseError_k c s, raiseError_pending c s, raiseError_responses c s, raiseError_freeCount c s, hctr⟩
  · exact ⟨e.k, e.pending, e.responses, e.freeCount, hctr⟩

/-- A register that a command does not write lies outside its destinations. -/
theorem outside_of_not_writesP {i : Instr} {s : State} {n d : PReg} {count : Nat}
    (hd : destinations i s = some (d, count)) (hn : ¬ writesP i s n) :
    n.toNat < d.toNat ∨ d.toNat + count ≤ n.toNat := by
  by_contra hin
  exact hn ⟨d, count, hd, by omega, by omega⟩

theorem ne_of_not_writesP {i : Instr} {s : State} {n d : PReg} (hd : destinations i s = some (d, 1))
    (hn : ¬ writesP i s n) : n ≠ d := by
  rintro rfl
  exact hn ⟨n, 1, hd, Nat.le_refl _, Nat.lt_succ_self _⟩

theorem Writes.getP {i : Instr} {s t : State} (h : Writes i s t) {n : PReg} (hn : ¬ writesP i s n) :
    t.getP n = s.getP n := by
  cases h with
  | poly d p hd => exact State.getP_setP_other s p (ne_of_not_writesP hd hn)
  | vector d ps hd hfit => exact State.getP_setVec_outside ps s d n hfit (outside_of_not_writesP hd hn)
  | sampled d off a pc hi => exact State.getP_setP_other s pc.1 (ne_of_not_writesP (by rw [hi]; rfl) hn)
  | error c => exact State.getP_congr (raiseError_pRegs c s) n
  | nothing | scalar | bytes => rfl

theorem Writes.scalar_eq {i : Instr} {s t : State} (h : Writes i s t) {r : BitVec 3} (hr : ¬ writesS i r) :
    t.scalar r = s.scalar r := by
  cases h with
  | scalar d v hd => exact State.scalar_setS_other s v fun e => hr (e ▸ hd)
  | error c => exact State.getS_congr (raiseError_sRegs c s) _
  | vector d ps => exact State.getS_setVec s d ps _
  | nothing | poly | bytes | sampled => rfl

theorem Writes.read_buf {i : Instr} {s t : State} (h : Writes i s t) {a : Nat} (ha : ¬ storesByte i s a) :
    t.buf.read a = s.buf.read a := by
  cases h with
  | bytes off bs hs hr =>
    refine Memory.read_writeBytes_outside s.buf ?_
    by_contra hin
    exact ha ⟨hs, off, bs.length, hr, by omega, by omega⟩
  | error | nothing | scalar | poly | vector | sampled => simp

/-- Settles O24: each kind of write in `Writes` leaves what lies outside its destination. -/
theorem commandChangesOnlyItsDestinations : Obligations.CommandChangesOnlyItsDestinations := fun _ _ _ h =>
  have hw := exec_writes h
  ⟨fun _ => hw.getP, fun _ => hw.scalar_eq, fun _ => hw.read_buf⟩

end Sys2Proof.Machine
end

section
/-! PROOFS. The bus window (20_memory.md): the legal accesses and the refused ones, the coefficients on the bus, and the
placement of vectors in BUF (R62). -/

namespace Sys2Proof.Machine

/-! ### The bus map -/

/-- Below 0x1000 the window holds the five control registers and S0 to S7 (R51). -/
theorem controlLocation_ne_none_iff (a : Nat) :
    controlLocation a ≠ none ↔
      (a = 0 ∨ a = 4 ∨ a = 8 ∨ a = 12 ∨ a = 16) ∨ (0x20 ≤ a ∧ a < 0x40) := by
  unfold controlLocation
  split_ifs <;> simp <;> omega

/-- Settles O8: the regions of `busLocation` one by one. -/
theorem legalAccessesAreThoseOfTheBusMap : Obligations.LegalAccessesAreThoseOfTheBusMap := by
  intro w addr
  simp only [busLocation]
  split_ifs with halign hctrl hword hbuf hbyte
  · simp [halign]
  · rw [controlLocation_ne_none_iff]
    simp only [hword, true_and, ne_eq, reduceCtorEq, not_false_eq_true]
    rw [hword] at halign
    omega
  · simp only [hword, ne_eq, not_true_eq_false, false_and, false_or, false_iff]
    omega
  · simp only [ne_eq, reduceCtorEq, not_false_eq_true, true_iff]
    omega
  · simp only [hbyte, ne_eq, not_true_eq_false, reduceCtorEq, false_and, false_or, or_false, false_iff]
    omega
  · simp only [hbyte, ne_eq, reduceCtorEq, not_false_eq_true, true_and, true_iff]
    omega

/-! ### Refused accesses -/

/-- A refused write is answered and does nothing else (R53, R271). -/
theorem step_write_refused {s : State} {rest : List HostEvent} {w : BusWidth} {addr : BusAddr} {v : Word}
    (h : s.pending = .write w addr v :: rest) (hl : busLocation w addr = none) :
    step s = .next { s with pending := rest, responses := .writeRefused :: s.responses } := by
  rw [step_of_pending h, perform, busWrite, hl]
  rfl

/-- A refused read is answered with the next free value (R53). -/
theorem step_read_refused {s : State} {rest : List HostEvent} {w : BusWidth} {addr : BusAddr}
    (h : s.pending = .read w addr :: rest) (hl : busLocation w addr = none) :
    step s = .next { s with pending := rest, freeCount := s.freeCount + 1,
                            responses := .readRefused (Config.refusedReadValue s.freeCount) :: s.responses } := by
  rw [step_of_pending h, perform, busRead, hl]
  rfl

/-- Settles O9: the rules for a refused write and a refused read. -/
theorem refusedAccessChangesNothing : Obligations.RefusedAccessChangesNothing :=
  fun _ _ _ _ _ hl => ⟨fun h => step_write_refused h hl, fun h => ⟨_, step_read_refused h hl⟩⟩

/-- Settles O10: a read is refused or legal, and neither changes the block. -/
theorem readsHaveNoSideEffect : Obligations.ReadsHaveNoSideEffect := by
  intro s rest w addr h
  cases hl : busLocation w addr with
  | none => exact ⟨_, _, step_read_refused h hl⟩
  | some l => exact ⟨_, s.freeCount, step_read h hl⟩

/-! ### Coefficients on the bus -/

/-- P[n][i] is at 0x2000 + 512*n + 2*i (R51). -/
theorem busLocation_lane {w : BusWidth} (n : PReg) (i : Fin 256) (hb : w ≠ .byte) (hw : 2 * i.val % w.bytes = 0) :
    busLocation w (BitVec.ofNat 14 (0x2000 + 512 * n.toNat + 2 * i.val)) = some (.lane n (BitVec.ofNat 8 i.val)) := by
  have hn := n.isLt
  have hi := i.isLt
  have haddr : (BitVec.ofNat 14 (0x2000 + 512 * n.toNat + 2 * i.val)).toNat = 0x2000 + 512 * n.toNat + 2 * i.val := by
    rw [BitVec.toNat_ofNat]; omega
  have halign : (0x2000 + 512 * n.toNat + 2 * i.val) % w.bytes = 0 := by
    cases w <;> simp only [BusWidth.bytes] at hw ⊢ <;> omega
  have hreg : (0x2000 + 512 * n.toNat + 2 * i.val - 0x2000) / 512 = n.toNat := by omega
  have hlane : (0x2000 + 512 * n.toNat + 2 * i.val - 0x2000) % 512 / 2 = i.val := by omega
  simp only [busLocation, haddr]
  rw [if_neg (not_not_intro halign), if_neg (by omega), if_neg (by omega), if_neg hb, hreg, hlane, BitVec.ofNat_toNat,
    BitVec.setWidth_eq]

/-- A coefficient's index fits the 8 bits of a lane location. -/
theorem toNat_laneIndex (i : Fin 256) : (BitVec.ofNat 8 i.val).toNat = i.val := by
  rw [BitVec.toNat_ofNat]; exact Nat.mod_eq_of_lt i.isLt

theorem State.getCoeff_eq_lane (s : State) (n : PReg) (i : Fin 256) :
    s.getCoeff n (BitVec.ofNat 8 i.val) = lane (s.getP n) i :=
  congrArg (lane (s.getP n)) (Fin.ext (toNat_laneIndex i))

/-- Every lane of every register after a coefficient is replaced. -/
theorem State.lane_setCoeff (s : State) (n m : PReg) (i j : Fin 256) (c : Coeff) :
    lane ((s.setCoeff n (BitVec.ofNat 8 i.val) c).getP m) j = if m = n ∧ j = i then c else lane (s.getP m) j := by
  rw [State.setCoeff, State.getP_setP, toNat_laneIndex]
  by_cases hm : m = n
  · simp [hm, lane_setLane, Fin.ext_iff]
  · simp [hm]

/-- The index of the next coefficient, the one in the high half of a 32-bit access (R52). -/
theorem laneIndex_succ (i : Nat) : BitVec.ofNat 8 i + 1 = BitVec.ofNat 8 (i + 1) :=
  (BitVec.ofNat_add i 1).symm

/-- A 16-bit write replaces its own coefficient by the low half of the data. -/
theorem lane_busStore_half (v : Word) (s : State) (n m : PReg) (i j : Fin 256) :
    lane ((busStore .half (.lane n (BitVec.ofNat 8 i.val)) v s).getP m) j =
      if m = n ∧ j = i then v.setWidth 16 else lane (s.getP m) j :=
  State.lane_setCoeff s n m i j _

/-- A 32-bit write replaces two coefficients, the low half of the data at the lower index (R52). -/
theorem lane_busStore_word (v : Word) (s : State) (n m : PReg) (i j : Fin 256) (hi : i.val + 1 < 256) :
    lane ((busStore .word (.lane n (BitVec.ofNat 8 i.val)) v s).getP m) j =
      if m = n ∧ j = ⟨i.val + 1, hi⟩ then v.extractLsb' 16 16
      else if m = n ∧ j = i then v.extractLsb' 0 16 else lane (s.getP m) j := by
  have hnext := laneIndex_succ i.val
  rw [← State.lane_setCoeff s n m i j, ← State.lane_setCoeff _ n m ⟨i.val + 1, hi⟩ j, ← hnext]
  rfl

/-- A 16-bit read is answered zero-extended. -/
theorem toNat_busValue_half (s : State) (n : PReg) (i : Fin 256) :
    (busValue .half (.lane n (BitVec.ofNat 8 i.val)) s).toNat = (lane (s.getP n) i).toNat := by
  rw [← State.getCoeff_eq_lane]
  exact BitVec.toNat_setWidth_of_le (by decide)

/-- A 32-bit read joins two coefficients, the lower index in the low half (R52). -/
theorem toNat_busValue_word (s : State) (n : PReg) (i : Fin 256) (hi : i.val + 1 < 256) :
    (busValue .word (.lane n (BitVec.ofNat 8 i.val)) s).toNat =
      (lane (s.getP n) i).toNat + 65536 * (lane (s.getP n) ⟨i.val + 1, hi⟩).toNat := by
  have hlow := (lane (s.getP n) i).isLt
  rw [busValue, laneIndex_succ, State.getCoeff_eq_lane s n i, State.getCoeff_eq_lane s n ⟨i.val + 1, hi⟩,
    BitVec.toNat_append, shiftLeft_or_of_lt hlow]
  omega

/-- Settles O14: the bus rules at the location of P[n][i], with the lanes that each width stores and answers. -/
theorem coefficientsOnTheBus : Obligations.CoefficientsOnTheBus := by
  intro s rest n i v
  have hhalf := busLocation_lane (w := .half) n i (by decide) (by simp [BusWidth.bytes])
  refine ⟨fun h => ?_, fun h => ⟨_, toNat_busValue_half s n i, step_read h hhalf⟩, fun hi heven => ?_⟩
  · refine ⟨_, step_write h hhalf (by simp), ?_, fun m j hmj => ?_, fun _ => rfl, fun _ => rfl, rfl, rfl, rfl, rfl⟩
    · rw [lane_busStore_half, if_pos ⟨rfl, rfl⟩, BitVec.toNat_setWidth]
    · rw [lane_busStore_half, if_neg (by tauto)]
      rfl
  have hword := busLocation_lane (w := .word) n i (by decide) (by simp only [BusWidth.bytes]; omega)
  refine ⟨fun h => ?_, fun h => ⟨_, toNat_busValue_word s n i hi, step_read h hword⟩⟩
  refine ⟨_, step_write h hword (by simp), ?_, ?_, fun m j hmj => ?_, fun _ => rfl, fun _ => rfl, rfl, rfl, rfl, rfl⟩
  · rw [lane_busStore_word v _ n n i i hi, if_neg (by simp [Fin.ext_iff]), if_pos ⟨rfl, rfl⟩]
    simp
  · rw [lane_busStore_word v _ n n i _ hi, if_pos ⟨rfl, rfl⟩, BitVec.extractLsb'_toNat, Nat.shiftRight_eq_div_pow]
    have hv := v.isLt
    omega
  · have hout : ¬ (m = n ∧ (j.val = i.val ∨ j.val = i.val + 1)) := by tauto
    rw [lane_busStore_word v _ n m i j hi, if_neg, if_neg]
    · rfl
    · rintro ⟨hm, rfl⟩; exact hout ⟨hm, .inl rfl⟩
    · rintro ⟨hm, rfl⟩; exact hout ⟨hm, .inr rfl⟩

/-! ### Vectors in BUF -/

/-- A vector command on one vector and one byte range passes its checks (R207). -/
theorem vectorCodecChecks_eq_none {s : State} {b : PReg} {off : BufOffset} {len : Nat}
    (hk : s.k.toNat = 2 ∨ s.k.toNat = 3 ∨ s.k.toNat = 4) (hb : b.toNat + s.k.toNat ≤ 16)
    (hoff : off.toNat + len * s.k.toNat ≤ 4096) :
    firstError (checkVectors s [b]) (checkBuffer off (len * s.kNat)) = none := by
  rw [firstError_eq_none_iff, checkVectors_eq_none_iff, checkBuffer_eq_none_iff]
  exact ⟨⟨hk, by simpa using hb⟩, hoff⟩

/-- The bytes of component `j` of a stored vector, read back (R62). -/
theorem memRead_memWrite_encodeVec {enc : Poly256 → List Byte} {len : Nat} (hl : ∀ p, (enc p).length = len)
    (s : State) (off : Nat) (a : PReg) {j : Nat} (hj : j < s.k.toNat) :
    (s.memWrite off (encodeVec enc (s.getVec a))).memRead (off + len * j) len =
      enc (s.getP (a + BitVec.ofNat 4 j)) := by
  have hj' : j < (s.getVec a).length := by simpa using hj
  obtain ⟨xs, zs, hsplit, hxs⟩ := encodeVec_split hl (s.getVec a) j hj'
  have hpart := Memory.readBytes_writeBytes_part s.buf off xs (enc (s.getVec a)[j]) zs
  rw [hxs, hl, ← hsplit, getElem_getVec] at hpart
  exact hpart

/-- A store-type command on a vector whose checks pass: each component at its place, and every other byte as before. -/
theorem storeVec_completes {enc : Poly256 → List Byte} {len : Nat} (hl : ∀ p, (enc p).length = len) {off : BufOffset}
    {a : PReg} {s : State} (hk : s.k.toNat = 2 ∨ s.k.toNat = 3 ∨ s.k.toNat = 4) (ha : a.toNat + s.k.toNat ≤ 16)
    (hoff : off.toNat + len * s.k.toNat ≤ 4096) :
    ∃ t, storeVec len enc off a s = .next t ∧
      (∀ j < s.k.toNat, t.memRead (off.toNat + len * j) len = enc (s.getP (a + BitVec.ofNat 4 j))) ∧
      onlyBytes off.toNat (len * s.k.toNat) s t := by
  refine ⟨s.memWrite off.toNat (encodeVec enc (s.getVec a)), ?_, fun j hj => memRead_memWrite_encodeVec hl s _ a hj,
    fun x hx => ?_, fun _ => rfl, fun _ => rfl, ⟨rfl, rfl, rfl, rfl, rfl, rfl⟩, rfl⟩
  · rw [storeVec, vectorCodecChecks_eq_none hk ha hoff, finish_none]
  · exact Memory.read_writeBytes_outside s.buf (by rwa [length_encodeVec hl, length_getVec])

/-- Settles O56: `storeVec_completes` at the byte count of each format. -/
theorem vectorStoresWriteTheirBytes : Obligations.VectorStoresWriteTheirBytes :=
  fun _ _ _ hk ha =>
    ⟨⟨rfl, rfl⟩, storeVec_completes length_toBytes hk ha, ⟨rfl, rfl⟩, storeVec_completes (length_compressPoly 10) hk ha,
      ⟨rfl, rfl⟩, storeVec_completes (length_compressPoly 11) hk ha⟩

/-- A load-type command on a vector whose checks pass: each component from its place, and nothing else changed. -/
theorem loadVec_completes {len : Nat} (dec : List Byte → Poly256) {d : PReg} {off : BufOffset} {s : State}
    (hk : s.k.toNat = 2 ∨ s.k.toNat = 3 ∨ s.k.toNat = 4) (hd : d.toNat + s.k.toNat ≤ 16)
    (hoff : off.toNat + len * s.k.toNat ≤ 4096) :
    ∃ t, loadVec len dec d off s = .next t ∧
      (∀ j < s.k.toNat, t.getP (d + BitVec.ofNat 4 j) = dec (s.memRead (off.toNat + len * j) len)) ∧
      onlyPolys d s.k.toNat s t := by
  have hlen : (decodeVec s len dec off.toNat s.kNat).length = s.k.toNat := length_decodeVec ..
  refine ⟨s.setVec d (decodeVec s len dec off.toNat s.kNat), ?_, fun j hj => ?_, fun n hn => ?_,
    fun r => State.getS_setVec s d _ _, fun x => ?_, ?_, State.setVec_ctr _ s d⟩
  · rw [loadVec, vectorCodecChecks_eq_none hk hd hoff, finish_none]
  · rw [State.getP_setVec_inside _ s d j (hlen.symm ▸ hj) (hlen.symm ▸ hd)]
    simp [decodeVec]
  · exact State.getP_setVec_outside _ s d n (hlen.symm ▸ hd) (hlen.symm ▸ hn)
  · rw [State.setVec_buf]
  · simp [sameControl]

/-- Value `i` of an unpacked number (R200). -/
theorem getElem_unpackNat (d m w i : Nat) (h : i < (unpackNat d m w).length) :
    (unpackNat d m w)[i] = w / 2 ^ (d * i) % 2 ^ d := by
  induction m generalizing w i with
  | zero => simp [unpackNat] at h
  | succ m ih =>
    cases i with
    | zero => simp [unpackNat]
    | succ i =>
      have hi : i < (unpackNat d m (w / 2 ^ d)).length := by simpa using h
      simp only [unpackNat, List.getElem_cons_succ, ih _ _ hi, Nat.div_div_eq_div_mul, Nat.mul_succ, Nat.pow_add,
        Nat.mul_comm]

/-- Value `i` of an unpacked byte string (R200). -/
theorem getElem_unpack (d : Nat) (bs : List Byte) (m i : Nat) (h : i < (unpack d bs m).length) :
    (unpack d bs m)[i] = bytesToNat bs / 2 ^ (d * i) % 2 ^ d :=
  getElem_unpackNat d m (bytesToNat bs) i h

/-- Lane `i` of the decompressed polynomial (R202, R212, R213, R220, R221). -/
theorem lane_decompressPoly (d : Nat) (bs : List Byte) (i : Fin 256) :
    lane (decompressPoly d bs) i = decompress d (bytesToNat bs / 2 ^ (d * i.val) % 2 ^ d) := by
  rw [decompressPoly, lane_polyOfList (by simp), List.getD_eq_getElem _ _ (by simp), List.getElem_map, getElem_unpack]

/-- A decompressing load on a vector, lane by lane. -/
theorem loadVec_decompress_completes {len : Nat} (c : Nat) {d : PReg} {off : BufOffset} {s : State}
    (hk : s.k.toNat = 2 ∨ s.k.toNat = 3 ∨ s.k.toNat = 4) (hd : d.toNat + s.k.toNat ≤ 16)
    (hoff : off.toNat + len * s.k.toNat ≤ 4096) :
    ∃ t, loadVec len (decompressPoly c) d off s = .next t ∧
      (∀ j < s.k.toNat, ∀ i : Fin 256, lane (t.getP (d + BitVec.ofNat 4 j)) i =
        decompress c (bytesToNat (s.memRead (off.toNat + len * j) len) / 2 ^ (c * i.val) % 2 ^ c)) ∧
      onlyPolys d s.k.toNat s t := by
  obtain ⟨t, ht, hread, hframe⟩ := loadVec_completes (decompressPoly c) hk hd hoff
  exact ⟨t, ht, fun j hj i => by rw [hread j hj, lane_decompressPoly], hframe⟩

/-- Settles O57: `loadVec_completes` at the byte count of each format, the decompressed values lane by lane. -/
theorem vectorLoadsWriteTheirRegisters : Obligations.VectorLoadsWriteTheirRegisters :=
  fun _ _ _ hk hd =>
    ⟨⟨rfl, rfl⟩, loadVec_completes fromBytes hk hd, ⟨rfl, rfl⟩, loadVec_decompress_completes 10 hk hd,
      ⟨rfl, rfl⟩, loadVec_decompress_completes 11 hk hd⟩

end Sys2Proof.Machine
end

section
/-! PROOFS. Command words and a write to CMD: the decoder and the encoder are inverse, the decoder accepts exactly the
rows of the opcode map, and the checks of a command come before its effect. -/

namespace Sys2Proof

/-! ### Fields and words (R80) -/

@[simp] theorem Fields.ofWord_toWord (f : Fields) : Fields.ofWord f.toWord = f := by
  obtain ⟨op, rd, ra, rb, imm⟩ := f
  have hrd := rd.isLt
  have hra := ra.isLt
  have hrb := rb.isLt
  have himm := imm.isLt
  have hop := op.isLt
  simp only [Fields.ofWord, Fields.mk.injEq, ← BitVec.toNat_inj, BitVec.extractLsb'_toNat, Fields.toNat_toWord,
    Spec.word, Nat.shiftRight_eq_div_pow]
  omega

@[simp] theorem Fields.toWord_ofWord (w : Word) : (Fields.ofWord w).toWord = w := by
  have hw := w.isLt
  refine BitVec.eq_of_toNat_eq ?_
  simp only [Fields.toNat_toWord, Fields.ofWord, BitVec.extractLsb'_toNat, Spec.word, Nat.shiftRight_eq_div_pow]
  omega

theorem Fields.toWord_inj {f g : Fields} : f.toWord = g.toWord ↔ f = g :=
  ⟨fun h => by simpa using congrArg Fields.ofWord h, congrArg Fields.toWord⟩

/-! ### The formats (R81) -/

/-- The fields that a format does not use are zero. -/
def Format.unusedZero (fm : Format) (f : Fields) : Bool :=
  match fm with
  | .Z => f.rd == 0 && f.ra == 0 && f.rb == 0 && f.imm == 0
  | .S2 => f.rb == 0 && f.imm == 0
  | .S3 => f.imm == 0
  | .P2 => f.rb == 0 && f.imm == 0
  | .P3 => f.imm == 0
  | .ST => f.rd == 0 && f.rb == 0
  | .LD => f.ra == 0 && f.rb == 0
  | .RJ => f.rb == 0

/-- The scalar fields of a format name S0 to S7. -/
def Format.scalarsOk (fm : Format) (f : Fields) : Bool :=
  match fm with
  | .S2 => SReg.ok f.rd && SReg.ok f.ra
  | .S3 => SReg.ok f.rd && SReg.ok f.ra && SReg.ok f.rb
  | .RJ => SReg.ok f.ra
  | .Z | .P2 | .P3 | .ST | .LD => true

/-- The mask column of R81 field by field: the whole of op and of an unused field, the top bit of a scalar field. -/
def Format.maskFields : Format → Fields
  | .Z => ⟨0xFF, 0xF, 0xF, 0xF, 0xFFF⟩
  | .S2 => ⟨0xFF, 8, 8, 0xF, 0xFFF⟩
  | .S3 => ⟨0xFF, 8, 8, 8, 0xFFF⟩
  | .P2 => ⟨0xFF, 0, 0, 0xF, 0xFFF⟩
  | .P3 => ⟨0xFF, 0, 0, 0, 0xFFF⟩
  | .ST => ⟨0xFF, 0xF, 0, 0xF, 0⟩
  | .LD => ⟨0xFF, 0, 0xF, 0xF, 0⟩
  | .RJ => ⟨0xFF, 0, 8, 0xF, 0⟩

theorem Format.toWord_maskFields (fm : Format) : fm.maskFields.toWord = fm.mask := by
  cases fm <;> rfl

theorem matchWord_eq_toWord (op : BitVec 8) : matchWord op = Fields.toWord ⟨op, 0, 0, 0, 0⟩ := by
  refine BitVec.eq_of_toNat_eq ?_
  rw [Fields.toNat_toWord, matchWord, BitVec.toNat_append, shiftLeft_or_of_lt (BitVec.isLt _)]
  simp [Spec.word]

/-- A mask acts on each field of a word by itself. -/
theorem Fields.toWord_and (f g : Fields) :
    f.toWord &&& g.toWord =
      Fields.toWord ⟨f.op &&& g.op, f.rd &&& g.rd, f.ra &&& g.ra, f.rb &&& g.rb, f.imm &&& g.imm⟩ := by
  simp only [← BitVec.and_append, Fields.toWord]

/-- "Its top bit must be zero" (R81). -/
theorem SReg.and_eight_eq_zero_iff (r : SReg) : r &&& 8 = 0 ↔ SReg.ok r = true := by
  revert r; decide

/-- The match of R81 as conditions on the fields. -/
theorem and_mask_eq_matchWord_iff (w : Word) (fm : Format) (op : BitVec 8) :
    w &&& fm.mask = matchWord op ↔ (Fields.ofWord w).op = op ∧ fm.unusedZero (Fields.ofWord w) = true ∧
      fm.scalarsOk (Fields.ofWord w) = true := by
  generalize hf : Fields.ofWord w = f
  have hw : w = f.toWord := by rw [← hf, Fields.toWord_ofWord]
  have hop : f.op &&& 0xFF = f.op := BitVec.and_allOnes
  have hreg (r : BitVec 4) : r &&& 0xF = r := BitVec.and_allOnes
  have hzero (r : BitVec 4) : r &&& 0 = 0 := BitVec.and_zero
  have himmz : f.imm &&& 0 = 0 := BitVec.and_zero
  have himm : f.imm &&& 0xFFF = f.imm := BitVec.and_allOnes
  rw [hw, ← fm.toWord_maskFields, Fields.toWord_and, matchWord_eq_toWord, Fields.toWord_inj, Fields.mk.injEq]
  cases fm <;>
    simp only [Format.maskFields, Format.unusedZero, Format.scalarsOk, hop, hreg, himm, SReg.and_eight_eq_zero_iff,
      hzero, himmz, Bool.and_eq_true, beq_iff_eq, true_and, and_true, and_assoc] <;>
    tauto

/-! ### The rows of the opcode map (R84) -/

theorem acceptIf_eq_ok_iff {unusedZero scalarsOk : Bool} {i j : Instr} :
    acceptIf unusedZero scalarsOk i = .ok j ↔ unusedZero = true ∧ scalarsOk = true ∧ i = j := by
  cases unusedZero <;> cases scalarsOk <;> simp [acceptIf]

/-- The fields of a command decode to it when its scalar fields are 0 to 7. -/
theorem decodeFields_fields (i : Instr) : decodeFields i.fields = acceptIf true i.wellFormed i := by
  cases i <;> rfl

open Laws.TableRow in
/-- The lemmas of Laws/PerInstr.lean for all 35 commands. -/
theorem tableRow (i : Instr) : Statement i := by
  cases i
  exacts [nop, montred _ _, montmul _ _ _, barrett _ _, csubq _ _,
    padd _ _ _, psub _ _ _, preduce _ _, pcsubq _ _, ptomont _ _, pntt _ _, pinvntt _ _, pbasemul _ _ _,
    vadd _ _ _, vsub _ _ _, vreduce _ _, vcsubq _ _, vntt _ _, vinvntt _ _, vacc _ _ _,
    ptobytes _ _, pfrombytes _ _, pcomp4 _ _, pcomp5 _ _, pdecomp4 _ _, pdecomp5 _ _, pfrommsg _ _, ptomsg _ _,
    vtobytes _ _, vfrombytes _ _, vcomp10 _ _, vcomp11 _ _, vdecomp10 _ _, vdecomp11 _ _, rej _ _ _]

theorem Instr.unusedZero_fields (i : Instr) : i.format.unusedZero i.fields = true := by
  cases i <;> rfl

theorem Instr.scalarsOk_fields (i : Instr) : i.format.scalarsOk i.fields = i.wellFormed := by
  cases i <;> rfl

/-- What the decoder does with the fields of a row: the checks of the row's format, then a command with these fields. -/
theorem decodeFields_of_row {row : OpcodeRow} (hrow : row ∈ opcodeTable) {f : Fields} (hop : f.op = row.op) :
    ∃ i : Instr, decodeFields f = acceptIf (row.format.unusedZero f) (row.format.scalarsOk f) i ∧
      (row.format.unusedZero f = true → f = i.fields) := by
  obtain ⟨op, rd, ra, rb, imm⟩ := f
  unfold opcodeTable at hrow
  -- For a fixed op, `decodeFields` computes to the arm of that op.
  fin_cases hrow <;> obtain rfl := hop <;>
    exact ⟨_, rfl, by simp +contextual [Format.unusedZero, Instr.fields, Instr.opcode]⟩

theorem decodeFields_of_unassigned {f : Fields} (h : ∀ row ∈ opcodeTable, f.op ≠ row.op) :
    decodeFields f = .error .unassignedOpcode := by
  simp only [opcodeTable, List.forall_mem_cons] at h
  simp only [decodeFields, h, if_false]

/-- The fields that decode are those of a well-formed command, and they decode to it. -/
theorem decodeFields_eq_ok_iff {f : Fields} {i : Instr} :
    decodeFields f = .ok i ↔ f = i.fields ∧ i.wellFormed = true := by
  have wellFormed_iff : decodeFields i.fields = .ok i ↔ i.wellFormed = true := by
    simp [decodeFields_fields, acceptIf_eq_ok_iff]
  refine ⟨fun h => ?_, fun ⟨hf, hw⟩ => hf ▸ wellFormed_iff.mpr hw⟩
  by_cases hrow : ∃ row ∈ opcodeTable, f.op = row.op
  · obtain ⟨row, hmem, hop⟩ := hrow
    obtain ⟨j, hdec, hfields⟩ := decodeFields_of_row hmem hop
    obtain ⟨hzero, -, rfl⟩ := acceptIf_eq_ok_iff.mp (hdec.symm.trans h)
    have hf := hfields hzero
    exact ⟨hf, wellFormed_iff.mp (hf ▸ h)⟩
  · rw [decodeFields_of_unassigned fun row hmem hop => hrow ⟨row, hmem, hop⟩] at h
    cases h

/-! ### Words and commands -/

/-- A word decodes to a command exactly when it is the word of that command and the command is well formed. -/
theorem decode_eq_ok_iff {w : Word} {i : Instr} : decode w = .ok i ↔ encode i = w ∧ i.wellFormed = true := by
  rw [decode, decodeFields_eq_ok_iff, encode, ← Fields.toWord_inj, Fields.toWord_ofWord, eq_comm]

/-- Settles O1: `decode_eq_ok_iff` at the command's own word. -/
theorem decodeOfEncodeIsTheCommand : Obligations.DecodeOfEncodeIsTheCommand :=
  fun _ hw => decode_eq_ok_iff.mpr ⟨rfl, hw⟩

/-- Settles O2: the other direction of `decode_eq_ok_iff`. -/
theorem encodeOfDecodeIsTheWord : Obligations.EncodeOfDecodeIsTheWord :=
  fun _ _ => decode_eq_ok_iff.mp

/-- The word of a command as R88 writes it. -/
theorem toNat_encode (i : Instr) : (encode i).toNat = Spec.commandWord i := by
  rw [encode, Fields.toNat_toWord]
  cases i <;> rfl

/-- The word of a well-formed command matches the command's own row of the opcode map (R81). -/
theorem encode_matches_row {i : Instr} (hw : i.wellFormed = true) :
    OpcodeRow.mk i.opcode i.format ∈ opcodeTable ∧ encode i &&& i.format.mask = matchWord i.opcode := by
  obtain ⟨hmem, hop, -⟩ := tableRow i
  rw [and_mask_eq_matchWord_iff, encode, Fields.ofWord_toWord]
  exact ⟨hmem, hop, i.unusedZero_fields, i.scalarsOk_fields.trans hw⟩

/-- The words that decode are those that match a row (R85). -/
theorem exists_decode_eq_ok_iff (w : Word) :
    (∃ i, decode w = .ok i) ↔ ∃ row ∈ opcodeTable, w &&& row.format.mask = matchWord row.op := by
  constructor
  · rintro ⟨i, h⟩
    obtain ⟨rfl, hw⟩ := decode_eq_ok_iff.mp h
    exact ⟨_, encode_matches_row hw⟩
  · rintro ⟨row, hmem, h⟩
    obtain ⟨hop, hzero, hscalars⟩ := (and_mask_eq_matchWord_iff _ _ _).mp h
    obtain ⟨i, hdec, -⟩ := decodeFields_of_row hmem hop
    exact ⟨i, hdec.trans (acceptIf_eq_ok_iff.mpr ⟨hzero, hscalars, rfl⟩)⟩

/-- Settles O3: the rows by `exists_decode_eq_ok_iff`, and a word that decodes is its command's word. -/
theorem decodeAcceptsExactlyTheOpcodeMap : Obligations.DecodeAcceptsExactlyTheOpcodeMap := by
  refine ⟨exists_decode_eq_ok_iff, fun w i h => ?_, toNat_encode⟩
  obtain ⟨rfl, hw⟩ := decode_eq_ok_iff.mp h
  obtain ⟨-, hmatch⟩ := encode_matches_row hw
  exact ⟨hmatch, toNat_encode i⟩

/-- Settles O4: the decoder evaluated on each word. -/
theorem assemblerExamplesDecode : Obligations.AssemblerExamplesDecode :=
  ⟨rfl, rfl, rfl, rfl, rfl, rfl, rfl, rfl⟩

end Sys2Proof

namespace Sys2Proof.Machine

/-! ### A write to CMD (R90) -/

/-- A write to CMD is answered, and its word is run (R24, R56). -/
theorem step_commandWrite {s : State} {rest : List HostEvent} {w : Word} (h : s.pending = commandWrite w :: rest) :
    step s = runCommand w { s with pending := rest, responses := .writeDone :: s.responses } :=
  step_of_pending h

theorem runCommand_of_halted (w : Word) {s : State} (he : s.err = true) : runCommand w s = .next s := by
  rw [runCommand, if_pos he]

theorem runCommand_of_decode {w : Word} {i : Instr} {s : State} (he : s.err = false) (hd : decode w = .ok i) :
    runCommand w s = exec i s := by
  rw [runCommand, he, hd]
  rfl

/-- An illegal word raises Error(1) and changes nothing else (R85). -/
theorem runCommand_of_illegal {w : Word} {s : State} (he : s.err = false) (hd : ∀ i, decode w ≠ .ok i) :
    runCommand w s = .next { s with err := true, code := 1 } := by
  cases h : decode w with
  | ok i => exact absurd h (hd i)
  | error e =>
    rw [runCommand, he, h]
    exact congrArg Host.Outcome.next (raiseError_of_running .illegalCommand he)

theorem decodeTableWord_eq_some_iff {nbits w : Nat} {i : Instr} :
    decodeTableWord nbits w = some i ↔ decode (tableWord nbits w) = .ok i := by
  rw [decodeTableWord]
  cases decode (tableWord nbits w) <;> simp

/-- Settles O5: a write to CMD in a running block; `State.withFetchWord` places such a write. -/
theorem stepRunsTheDecodedCommand : Obligations.StepRunsTheDecodedCommand := by
  refine ⟨fun s rest w i h he hd => ?_, fun s nbits w i h => ?_⟩
  · rw [step_commandWrite h]
    exact runCommand_of_decode he hd
  · rw [step_commandWrite (s := s.withFetchWord nbits w) rfl]
    exact runCommand_of_decode rfl (decodeTableWord_eq_some_iff.mp h)

/-- Settles O6: a word that matches no row does not decode. -/
theorem illegalWordRaisesErrorOne : Obligations.IllegalWordRaisesErrorOne := by
  intro s rest w h he hrow
  have hd (i : Instr) : decode w ≠ .ok i := fun hi => by
    obtain ⟨row, hmem, hmatch⟩ := (exists_decode_eq_ok_iff w).mp ⟨i, hi⟩
    exact hrow row hmem hmatch
  rw [step_commandWrite h]
  exact runCommand_of_illegal he hd

/-- Settles O7: a halted block drops the word, and with no access pending a step waits. -/
theorem haltedBlockDropsCommandsAndIdleBlockWaits : Obligations.HaltedBlockDropsCommandsAndIdleBlockWaits := by
  refine ⟨fun s rest w h he => ?_, fun s h => ?_⟩
  · rw [step_commandWrite h]
    exact runCommand_of_halted w he
  · rw [step, nextEvent, h]

/-! ### The checks come first (R90 steps 3 and 4) -/

/-- What the checks of R181 find: only a V-command has them. -/
def vectorError (i : Instr) (s : State) : Option ErrorCode :=
  if isVCommand i then checkVectors s (vectorFields i) else none

/-- What the check of R60 finds: only a command that moves bytes has it. -/
def bufferError (i : Instr) (s : State) : Option ErrorCode :=
  (bufferRange i s).bind fun r => checkBuffer r.1 r.2

theorem vectorError_eq_none_iff (i : Instr) (s : State) :
    vectorError i s = none ↔ (isVCommand i = true → vectorsOk i s) := by
  unfold vectorError
  split <;> simp [*, checkVectors_eq_none_iff, vectorsOk]

theorem bufferError_eq_none_iff (i : Instr) (s : State) : bufferError i s = none ↔ bufferOk i s := by
  unfold bufferError bufferOk
  cases bufferRange i s with
  | none => simp
  | some r => simp [checkBuffer_eq_none_iff, Prod.ext_iff]

@[simp] theorem firstError_none_right (e : Option ErrorCode) : firstError e none = e := by
  cases e <;> rfl

theorem sameControl_setS (s : State) (d : SReg) (v : Word) : sameControl s (s.setS d v) :=
  ⟨rfl, rfl, rfl, rfl, rfl, rfl⟩

theorem sameControl_setP (s : State) (d : PReg) (p : Poly256) : sameControl s (s.setP d p) :=
  ⟨rfl, rfl, rfl, rfl, rfl, rfl⟩

theorem sameControl_memWrite (s : State) (a : Nat) (bs : List Byte) : sameControl s (s.memWrite a bs) :=
  ⟨rfl, rfl, rfl, rfl, rfl, rfl⟩

theorem sameControl_setSampled (s : State) (d : PReg) (pc : Poly256 × Nat) : sameControl s (s.setSampled d pc) :=
  ⟨rfl, rfl, rfl, rfl, rfl, rfl⟩

theorem sameControl_setVec (s : State) (d : PReg) (ps : List Poly256) : sameControl s (s.setVec d ps) := by
  simp [sameControl]

/-- Every command ends in the error that its checks find first, or in a state with STATUS, PARAM and the host's side as
before. -/
theorem exec_eq_finish (i : Instr) (s : State) :
    ∃ t, sameControl s t ∧ exec i s = finish (firstError (vectorError i s) (bufferError i s)) s t := by
  cases i with
  | nop => exact ⟨s, ⟨rfl, rfl, rfl, rfl, rfl, rfl⟩, rfl⟩
  | montred d _ | montmul d _ _ | barrett d _ | csubq d _ => exact ⟨_, sameControl_setS s d _, rfl⟩
  | padd d _ _ | psub d _ _ | preduce d _ | pcsubq d _ | ptomont d _ | pntt d _ | pinvntt d _ | pbasemul d _ _
  | pfrombytes d _ | pdecomp4 d _ | pdecomp5 d _ | pfrommsg d _ => exact ⟨_, sameControl_setP s d _, rfl⟩
  | vadd d _ _ | vsub d _ _ | vreduce d _ | vcsubq d _ | vntt d _ | vinvntt d _ =>
    exact ⟨_, sameControl_setVec s d _, congrArg (finish · s _) (firstError_none_right _).symm⟩
  | vacc d _ _ => exact ⟨_, sameControl_setP s d _, congrArg (finish · s _) (firstError_none_right _).symm⟩
  | ptobytes off _ | pcomp4 off _ | pcomp5 off _ | ptomsg off _ | vtobytes off _ | vcomp10 off _ | vcomp11 off _ =>
    exact ⟨_, sameControl_memWrite s off.toNat _, rfl⟩
  | vfrombytes d _ | vdecomp10 d _ | vdecomp11 d _ => exact ⟨_, sameControl_setVec s d _, rfl⟩
  | rej d off a => exact ⟨_, sameControl_setSampled s d _, execRej_eq_finish d off a s⟩

/-- The first check that fails gives the error, and nothing else changes (R262, R263). -/
theorem exec_of_error {i : Instr} {s : State} {c : ErrorCode} (he : s.err = false)
    (hc : firstError (vectorError i s) (bufferError i s) = some c) :
    exec i s = .next { s with err := true, code := c.code } := by
  obtain ⟨t, -, ht⟩ := exec_eq_finish i s
  rw [ht, hc, finish_some, raiseError_of_running c he]

theorem exec_of_vectorError {i : Instr} {s : State} {c : ErrorCode} (he : s.err = false) (hv : isVCommand i = true)
    (hc : checkVectors s (vectorFields i) = some c) : exec i s = .next { s with err := true, code := c.code } :=
  exec_of_error he (by rw [vectorError, if_pos hv, hc, firstError_some])

/-- Settles O21: each clause is one finding of the two checks. -/
theorem firstFailedCheckIsTheError : Obligations.FirstFailedCheckIsTheError := by
  refine fun i s he => ⟨fun hv hk => ?_, fun hv hk hb => ?_, fun hv off len hr hlen => ?_⟩
  · exact exec_of_vectorError he hv (checkVectors_badK _ hk)
  · exact exec_of_vectorError he hv (checkVectors_registerRange hk hb)
  · refine exec_of_error (c := .bufferRange) he ?_
    rw [(vectorError_eq_none_iff i s).mpr hv, firstError_none, bufferError, hr]
    exact checkBuffer_bufferRange hlen

/-- Settles O22: where neither check finds an error, `exec_eq_finish` gives the state the command leaves. -/
theorem commandCompletesWhenTheChecksPass : Obligations.CommandCompletesWhenTheChecksPass := by
  rintro i s ⟨hv, hb⟩
  obtain ⟨t, hsame, ht⟩ := exec_eq_finish i s
  rw [(vectorError_eq_none_iff i s).mpr hv, (bufferError_eq_none_iff i s).mpr hb] at ht
  exact ⟨t, ht, hsame⟩

end Sys2Proof.Machine
end

section
/-! PROOFS. The field operations: the ranges and residues of MontReduce, MontMul, BarrettReduce and CondSubQ, and the five
commands that run them on scalar registers. -/

namespace Sys2Proof.Machine

/-! ### MontReduce and MontMul (R112, R113) -/

/-- Settles O30: the integer formula inside its precondition. -/
theorem montReduceIsCongruentAndBounded : Obligations.MontReduceIsCongruentAndBounded := by
  intro a hlow hhigh
  rw [toInt_montReduce]
  exact Spec.montReduce_spec ⟨hlow, hhigh⟩

/-- 3328 * 32768 < 3329 * 32768: the product meets the precondition of MontReduce (R113). -/
theorem Coeff.mul_range_of_small {a : Coeff} (b : Coeff) (hlow : -3329 < a.toInt) (hhigh : a.toInt < 3329) :
    -109084672 < a.toInt * b.toInt ∧ a.toInt * b.toInt < 109084672 := by
  obtain ⟨hblow, hbhigh⟩ := Coeff.toInt_range b
  have hprod : |a.toInt| * |b.toInt| ≤ 3328 * 32768 :=
    mul_le_mul (Int.lt_add_one_iff.mp (abs_lt.mpr ⟨hlow, hhigh⟩)) (abs_le.mpr ⟨hblow, hbhigh.le⟩) (abs_nonneg _)
      (by norm_num)
  exact abs_lt.mp (abs_mul a.toInt b.toInt ▸ hprod.trans_lt (by norm_num))

theorem montMul_comm (a b : Coeff) : montMul a b = montMul b a := by
  rw [montMul, montMul, Int.mul_comm]

/-- Settles O31: a small operand keeps the product within MontReduce's precondition; the boundary pairs by evaluation. -/
theorem montMulOfASmallOperand : Obligations.MontMulOfASmallOperand := by
  refine ⟨fun a b hlow hhigh => ?_, montMul_comm, by decide, by decide⟩
  rw [toInt_montMul]
  exact Spec.montReduce_spec (Coeff.mul_range_of_small b hlow hhigh)

/-! ### BarrettReduce (R115) -/

/-- Barrett's quotient is floor(a/q), but one less at -q, ..., -9q: with a = m*q + r it is
m + floor((447*m + 20159*r) / 2^26), as 20159*q = 2^26 + 447. -/
theorem Spec.barrett_quotient {a : Int} (h : -32768 ≤ a ∧ a < 32768) :
    20159 * a / 67108864 = if a < 0 ∧ -29961 ≤ a ∧ a % 3329 = 0 then a / 3329 - 1 else a / 3329 := by
  have hsplit : 20159 * a = 67108864 * (a / 3329) + (447 * (a / 3329) + 20159 * (a % 3329)) := by omega
  split
  · omega
  · have hnonneg : 0 ≤ a / 3329 ∨ -10 ≤ a / 3329 ∧ 1 ≤ a % 3329 := by omega
    have hfloor : 0 ≤ 447 * (a / 3329) + 20159 * (a % 3329) := by omega
    omega

/-- BarrettReduce is `a mod q`, but q at -q, ..., -9q. -/
theorem Spec.barrett_eq {a : Int} (h : -32768 ≤ a ∧ a < 32768) :
    Spec.barrett a = if a < 0 ∧ -29961 ≤ a ∧ a % 3329 = 0 then 3329 else a % 3329 := by
  rw [Spec.barrett, Spec.barrett_quotient h]
  split <;> omega

theorem Spec.barrett_range {a : Int} (h : -32768 ≤ a ∧ a < 32768) : 0 ≤ Spec.barrett a ∧ Spec.barrett a ≤ 3329 := by
  rw [Spec.barrett_eq h]
  split <;> omega

/-- Settles O32: `Spec.barrett_eq` at the value of an int16. -/
theorem barrettReduceOverAllInputs : Obligations.BarrettReduceOverAllInputs := by
  intro a
  rw [toInt_barrettReduce]
  exact ⟨rfl, Spec.barrett_eq (Coeff.toInt_range a)⟩

/-! ### CondSubQ (R116) -/

theorem condSubQ_of_lt {a : Coeff} (h : a.toInt < 3329) : condSubQ a = a := if_pos h

theorem toInt_condSubQ_of_ge {a : Coeff} (h : 3329 ≤ a.toInt) : (condSubQ a).toInt = a.toInt - 3329 := by
  rw [toInt_condSubQ, Spec.condSubQ, if_neg (not_lt.mpr h)]

/-- The branchless form of R116 adds q back exactly where the difference is negative. -/
theorem Spec.condSubQ_eq_branchless (a : Int) :
    Spec.condSubQ a = a - 3329 + if a - 3329 < 0 then 3329 else 0 := by
  unfold Spec.condSubQ
  split <;> split <;> omega

/-- Settles O33: the two branches of CondSubQ, and its value as the branchless form, which fits an int16. -/
theorem condSubQOverAllInputs : Obligations.CondSubQOverAllInputs := by
  refine fun a => ⟨condSubQ_of_lt, toInt_condSubQ_of_ge, fun hlow hhigh => ?_, ?_⟩
  · rcases lt_or_ge a.toInt 3329 with h | h
    · rw [condSubQ_of_lt h]
      exact ⟨hlow, h⟩
    · rw [toInt_condSubQ_of_ge h]
      omega
  · rw [← Spec.condSubQ_eq_branchless, ← toInt_condSubQ, Spec.wrap16_of_fits (Coeff.toInt_range _)]

/-! ### The commands (R118 to R122) -/

/-- The command word 0 changes nothing, in a halted block and in a running one. -/
theorem runCommand_zero (s : State) : runCommand 0 s = .next s := by
  cases he : s.err with
  | true => exact runCommand_of_halted 0 he
  | false => exact runCommand_of_decode he (i := .nop) rfl

/-- Settles O25: a write of 0 to CMD is answered, then `runCommand_zero`. -/
theorem nopChangesNothing : Obligations.NopChangesNothing := by
  refine ⟨⟨rfl, rfl, rfl, rfl⟩, fun _ => rfl, fun s rest h => ?_⟩
  rw [step_commandWrite h, runCommand_zero]

/-- The int16 operand in a scalar register as a number (R22). -/
theorem toInt_low16 (w : Word) : (low16 w).toInt = Int.bmod w.toNat 65536 :=
  BitVec.toInt_setWidth w

theorem onlyScalar_setS (s : State) (d : SReg) (v : Word) : onlyScalar d s (s.setS d v) :=
  ⟨fun _ hr => State.scalar_setS_other s v hr, fun _ => rfl, fun _ => rfl, sameControl_setS s d v, rfl⟩

/-- A field operation's result as a number: the destination reads it sign-extended (R22). -/
theorem toInt_getS_setS_sext32 (s : State) (d : SReg) (c : Coeff) :
    ((s.setS d (sext32 c)).getS d).toInt = c.toInt := by
  rw [State.getS_setS_same, toInt_sext32]

/-- Settles O26: MontReduce of the whole of S[a], written to S[d]. -/
theorem montredWritesTheReduction : Obligations.MontredWritesTheReduction := by
  refine fun d a s => ⟨rfl, rfl, _, rfl, ?_, onlyScalar_setS s d _⟩
  rw [toInt_getS_setS_sext32, toInt_montReduce]

/-- Settles O27: MontMul of the two low halves, written to S[d]. -/
theorem montmulWritesTheMontgomeryProduct : Obligations.MontmulWritesTheMontgomeryProduct := by
  refine fun d a b s => ⟨rfl, rfl, _, rfl, ?_, onlyScalar_setS s d _⟩
  rw [toInt_getS_setS_sext32, toInt_montMul, toInt_low16, toInt_low16]

/-- Settles O28: BarrettReduce of the low half, written to S[d], with the range of `Spec.barrett_range`. -/
theorem barrettWritesTheReduction : Obligations.BarrettWritesTheReduction := by
  refine fun d a s => ⟨rfl, rfl, _, rfl, ?_⟩
  rw [toInt_getS_setS_sext32, toInt_barrettReduce, ← toInt_low16]
  obtain ⟨hlow, hhigh⟩ := Spec.barrett_range (Coeff.toInt_range (low16 (s.getS a)))
  exact ⟨rfl, hlow, hhigh, onlyScalar_setS s d _⟩

/-- Settles O29: CondSubQ of the low half, written to S[d]. -/
theorem csubqWritesTheConditionalDifference : Obligations.CsubqWritesTheConditionalDifference := by
  refine fun d a s => ⟨rfl, rfl, _, rfl, ?_, onlyScalar_setS s d _⟩
  rw [toInt_getS_setS_sext32, toInt_condSubQ, toInt_low16]

end Sys2Proof.Machine
end

section
/-! PROOFS. The transforms as computations (41_ntt.md): the tables, the layers position by position and as the loops of the
spec, how far values grow, and the base multiplication. -/

namespace Sys2Proof.Machine

/-! ### The commands (R142, R143, R144) -/

/-- A command that writes P[d] changes nothing else (R33). -/
theorem onlyPolys_setP (s : State) (d : PReg) (p : Poly256) : onlyPolys d 1 s (s.setP d p) := by
  refine ⟨fun n hn => State.getP_setP_other s p ?_, fun _ => rfl, fun _ => rfl, sameControl_setP s d p, rfl⟩
  rintro rfl
  omega

/-- Settles O36: each command is one `setP`. -/
theorem transformCommandsWriteTheirResult : Obligations.TransformCommandsWriteTheirResult := fun d _ _ s =>
  ⟨⟨rfl, rfl, _, rfl, State.getP_setP_same s d _, onlyPolys_setP s d _⟩,
    ⟨rfl, rfl, _, rfl, State.getP_setP_same s d _, onlyPolys_setP s d _⟩,
    ⟨rfl, rfl, _, rfl, State.getP_setP_same s d _, onlyPolys_setP s d _⟩⟩

/-! ### The tables (R132, R133) -/

theorem length_zetas : Config.zetas.length = 128 := by decide +kernel

theorem length_zetasInv : Config.zetasInv.length = 128 := by decide +kernel

/-- The zeta table is its formula (R132). -/
theorem toNat_zetas (i : BitVec 7) :
    (Config.zetas.getD i.toNat 0).toNat = 65536 * 17 ^ i.reverse.toNat % 3329 := by
  revert i; decide +kernel

/-- The inverse table is the zeta table negated and read backwards (R133). -/
theorem toNat_zetasInv : ∀ i < 127,
    (Config.zetasInv.getD i 0).toNat = (3329 - (Config.zetas.getD (127 - i) 0).toNat) % 3329 := by
  decide +kernel

/-- Settles O37: the 128 entries of each table against its formula. -/
theorem zetaTablesMatchTheirFormulas : Obligations.ZetaTablesMatchTheirFormulas :=
  ⟨length_zetas, length_zetasInv, toNat_zetas, toNat_zetasInv, rfl⟩

/-! ### Magnitudes -/

/-- A coefficient of magnitude at most `B`. -/
abbrev Within (B : Int) (c : Coeff) : Prop := -B ≤ c.toInt ∧ c.toInt ≤ B

theorem Within.mono {A B : Int} {c : Coeff} (h : Within A c) (hAB : A ≤ B) : Within B c :=
  ⟨(neg_le_neg hAB).trans h.1, h.2.trans hAB⟩

/-- `Within` by evaluation over a concrete list. -/
theorem within_of_all {B : Int} {l : List Coeff} (h : (l.all fun c => decide (Within B c)) = true) :
    ∀ c ∈ l, Within B c :=
  fun c hc => of_decide_eq_true (List.all_eq_true.mp h c hc)

/-- Every entry of the zeta table is in (-q, q), as MontMul needs it (R113). -/
theorem zetas_within : ∀ z ∈ Config.zetas, Within 3328 z := within_of_all (by decide +kernel)

theorem zetasInv_within : ∀ z ∈ Config.zetasInv, Within 3328 z := within_of_all (by decide +kernel)

/-- The product meets the precondition of MontMul (R112, R113). -/
abbrev MontFits (x y : Coeff) : Prop := -109084672 < x.toInt * y.toInt ∧ x.toInt * y.toInt < 109084672

/-- An operand in (-q, q) fits with any int16 (R113). -/
theorem Within.montFits {z : Coeff} (hz : Within 3328 z) (y : Coeff) : MontFits z y :=
  Coeff.mul_range_of_small y (by omega) (by omega)

/-- MontMul inside its precondition is in (-q, q) (R113). -/
theorem montMul_within {x y : Coeff} (h : MontFits x y) : Within 3328 (montMul x y) := by
  obtain ⟨-, hlow, hhigh⟩ := Spec.montReduce_spec h
  rw [Within, toInt_montMul]
  omega

theorem barrettReduce_within (x : Coeff) : Within 3329 (barrettReduce x) := by
  have h := Spec.barrett_range (Coeff.toInt_range x)
  rw [Within, toInt_barrettReduce]
  omega

/-- A sum of two coefficients that fits an int16 does not wrap. -/
theorem toInt_addCoeff_of_within {A B : Int} {x y : Coeff} (hx : Within A x) (hy : Within B y) (h : A + B ≤ 32767) :
    (addCoeff x y).toInt = x.toInt + y.toInt := by
  obtain ⟨⟨_, _⟩, _, _⟩ := And.intro hx hy
  rw [toInt_addCoeff, Spec.wrap16_of_fits (by omega)]

theorem toInt_subCoeff_of_within {A B : Int} {x y : Coeff} (hx : Within A x) (hy : Within B y) (h : A + B ≤ 32767) :
    (subCoeff x y).toInt = x.toInt - y.toInt := by
  obtain ⟨⟨_, _⟩, _, _⟩ := And.intro hx hy
  rw [toInt_subCoeff, Spec.wrap16_of_fits (by omega)]

theorem addCoeff_within {A B : Int} {x y : Coeff} (hx : Within A x) (hy : Within B y) (h : A + B ≤ 32767) :
    Within (A + B) (addCoeff x y) := by
  rw [Within, toInt_addCoeff_of_within hx hy h]
  obtain ⟨⟨_, _⟩, _, _⟩ := And.intro hx hy
  omega

theorem subCoeff_within {A B : Int} {x y : Coeff} (hx : Within A x) (hy : Within B y) (h : A + B ≤ 32767) :
    Within (A + B) (subCoeff x y) := by
  rw [Within, toInt_subCoeff_of_within hx hy h]
  obtain ⟨⟨_, _⟩, _, _⟩ := And.intro hx hy
  omega

/-- The forward butterfly with a small factor adds at most q - 1 to the magnitude (R134, R137). -/
theorem ctButterfly_within {B : Int} (hB : B + 3328 ≤ 32767) {z x : Coeff} (hz : Within 3328 z) (hx : Within B x)
    (y : Coeff) : Within (B + 3328) (ctButterfly z x y).1 ∧ Within (B + 3328) (ctButterfly z x y).2 :=
  ⟨addCoeff_within hx (montMul_within (hz.montFits y)) hB, subCoeff_within hx (montMul_within (hz.montFits y)) hB⟩

/-- The inverse butterfly with a small factor gives at most q (R135). -/
theorem gsButterfly_within {z : Coeff} (hz : Within 3328 z) (x y : Coeff) :
    Within 3329 (gsButterfly z x y).1 ∧ Within 3329 (gsButterfly z x y).2 :=
  ⟨barrettReduce_within _, (montMul_within (hz.montFits _)).mono (by norm_num)⟩

/-! ### One layer, position by position -/

/-- A block leaves the first results of its butterflies in its lower half and the second ones in its upper half. -/
theorem getD_blockStep {bf : Coeff → Coeff → Coeff × Coeff} {lo hi : List Coeff} (h : lo.length = hi.length) {e : Nat}
    (he : e < lo.length) : (blockStep bf lo hi).getD e 0 = (bf (lo.getD e 0) (hi.getD e 0)).1 ∧
      (blockStep bf lo hi).getD (lo.length + e) 0 = (bf (lo.getD e 0) (hi.getD e 0)).2 := by
  have he' : e < hi.length := h ▸ he
  have hlen : ((List.zipWith bf lo hi).map Prod.fst).length = lo.length := by simp [h]
  constructor
  · rw [blockStep, List.getD_append _ _ _ _ (hlen.symm ▸ he)]
    simp [he, he']
  · rw [blockStep, List.getD_append_right _ _ _ _ (hlen.symm ▸ Nat.le_add_right ..), hlen]
    simp [he, he']

/-- A layer runs the butterfly of entry `b` on positions `e` and `len + e` of block `b`. -/
theorem getD_layerStep (bf : Coeff → Coeff → Coeff → Coeff × Coeff) {len : Nat} {zs r : List Coeff} {b e : Nat}
    (hr : 2 * len * zs.length ≤ r.length) (hb : b < zs.length) (he : e < len) :
    (layerStep bf len zs r).getD (2 * len * b + e) 0 =
        (bf (zs.getD b 0) (r.getD (2 * len * b + e) 0) (r.getD (2 * len * b + len + e) 0)).1 ∧
      (layerStep bf len zs r).getD (2 * len * b + len + e) 0 =
        (bf (zs.getD b 0) (r.getD (2 * len * b + e) 0) (r.getD (2 * len * b + len + e) 0)).2 := by
  induction zs generalizing r b with
  | nil => simp at hb
  | cons z zs ih =>
    rw [List.length_cons, Nat.mul_succ] at hr
    have hlo : (r.take len).length = len := by simp; omega
    have hhi : ((r.drop len).take len).length = len := by simp; omega
    have hblock : (blockStep (bf z) (r.take len) ((r.drop len).take len)).length = 2 * len := by
      rw [length_blockStep _ (hlo.trans hhi.symm), hlo]
    cases b with
    | zero =>
      obtain ⟨h1, h2⟩ := getD_blockStep (bf := bf z) (hlo.trans hhi.symm) (e := e) (hlo.symm ▸ he)
      rw [hlo] at h2
      simp only [layerStep, Nat.mul_zero, Nat.zero_add]
      rw [List.getD_append _ _ _ _ (by omega), List.getD_append _ _ _ _ (by omega), h1, h2]
      simp [List.getD_eq_getElem?_getD, he]
    | succ b =>
      have hdrop : 2 * len * zs.length ≤ (r.drop (2 * len)).length := by simp; omega
      have hpos (i : Nat) : 2 * len * (b + 1) + i - 2 * len = 2 * len * b + i := by rw [Nat.mul_succ]; omega
      have hle (i : Nat) : 2 * len ≤ 2 * len * (b + 1) + i := by rw [Nat.mul_succ]; omega
      obtain ⟨h1, h2⟩ := ih hdrop (by simpa using hb)
      simp only [layerStep, Nat.add_assoc] at h1 h2 ⊢
      rw [List.getD_append_right _ _ _ _ (by rw [hblock]; exact hle _),
        List.getD_append_right _ _ _ _ (by rw [hblock]; exact hle _), hblock, hpos, hpos, h1, h2]
      simp only [List.getD_eq_getElem?_getD, List.getElem?_drop, List.getElem?_cons_succ]
      have hadd (i : Nat) : 2 * len + (2 * len * b + i) = 2 * len * (b + 1) + i := by rw [Nat.mul_succ]; omega
      rw [hadd, hadd]
      exact ⟨rfl, rfl⟩

theorem getD_take_drop {table : List Coeff} {k n b : Nat} (hb : b < n) :
    ((table.drop k).take n).getD b 0 = table.getD (k + b) 0 := by
  simp [List.getD_eq_getElem?_getD, hb]

theorem length_take_drop {table : List Coeff} {k m : Nat} (hk : k + m ≤ table.length) :
    ((table.drop k).take m).length = m := by
  rw [List.length_take, List.length_drop]; omega

/-- A layer of `m` blocks whose entries stand in a table from index `k` on. -/
theorem getD_tableLayer (bf : Coeff → Coeff → Coeff → Coeff × Coeff) {table r : List Coeff} {len k m b e : Nat}
    (hr : r.length = 2 * len * m) (hk : k + m ≤ table.length) (hb : b < m) (he : e < len) :
    (layerStep bf len ((table.drop k).take m) r).getD (2 * len * b + e) 0 =
        (bf (table.getD (k + b) 0) (r.getD (2 * len * b + e) 0) (r.getD (2 * len * b + len + e) 0)).1 ∧
      (layerStep bf len ((table.drop k).take m) r).getD (2 * len * b + len + e) 0 =
        (bf (table.getD (k + b) 0) (r.getD (2 * len * b + e) 0) (r.getD (2 * len * b + len + e) 0)).2 := by
  have hzs := length_take_drop hk
  rw [← getD_take_drop hb]
  exact getD_layerStep bf (by rw [hzs, hr]) (hzs.symm ▸ hb) he

theorem length_tableLayer (bf : Coeff → Coeff → Coeff → Coeff × Coeff) {table r : List Coeff} {len k m : Nat}
    (hr : r.length = 2 * len * m) (hk : k + m ≤ table.length) :
    (layerStep bf len ((table.drop k).take m) r).length = r.length :=
  length_layerStep bf len _ r (by rw [length_take_drop hk, hr])

/-- Where butterflies turn values with `P` into values with `Q`, every coefficient of a layer has `Q`. -/
theorem layerStep_forall {P Q : Coeff → Prop} (bf : Coeff → Coeff → Coeff → Coeff × Coeff) (len : Nat)
    {zs r : List Coeff} (hPQ : ∀ c, P c → Q c)
    (hbf : ∀ z ∈ zs, ∀ x y, P x → P y → Q (bf z x y).1 ∧ Q (bf z x y).2) (hr : ∀ c ∈ r, P c) : ∀ c ∈ layerStep bf len zs r, Q c := by
  induction zs generalizing r with
  | nil => exact fun c hc => hPQ c (hr c hc)
  | cons z zs ih =>
    intro c hc
    rw [layerStep, blockStep, List.mem_append, List.mem_append, List.mem_map, List.mem_map] at hc
    have hpair (p : Coeff × Coeff) (hp : p ∈ List.zipWith (bf z) (r.take len) ((r.drop len).take len)) :
        Q p.1 ∧ Q p.2 := by
      rw [← List.map_uncurry_zip_eq_zipWith, List.mem_map] at hp
      obtain ⟨⟨x, y⟩, hxy, rfl⟩ := hp
      obtain ⟨hx, hy⟩ := List.of_mem_zip hxy
      exact hbf z (by simp) x y (hr x (List.mem_of_mem_take hx)) (hr y (List.mem_of_mem_drop (List.mem_of_mem_take hy)))
    rcases hc with (⟨p, hp, rfl⟩ | ⟨p, hp, rfl⟩) | hc
    · exact (hpair p hp).1
    · exact (hpair p hp).2
    · exact ih (fun z hz => hbf z (by simp [hz])) (fun c hc => hr c (List.mem_of_mem_drop hc)) c hc

/-! ### Growth (R137) -/

theorem layerStep_ct_within {B : Int} (hB : B + 3328 ≤ 32767) (len : Nat) {zs r : List Coeff}
    (hzs : ∀ z ∈ zs, Within 3328 z) (hr : ∀ c ∈ r, Within B c) :
    ∀ c ∈ layerStep ctButterfly len zs r, Within (B + 3328) c :=
  layerStep_forall ctButterfly len (fun _ h => h.mono (by omega))
    (fun z hz _ y hx _ => ctButterfly_within hB (hzs z hz) hx y) hr

/-- An inverse layer keeps every magnitude at most 16383, whatever wraps inside it. -/
theorem layerStep_gs_within (len : Nat) {zs r : List Coeff} (hzs : ∀ z ∈ zs, Within 3328 z)
    (hr : ∀ c ∈ r, Within 16383 c) : ∀ c ∈ layerStep gsButterfly len zs r, Within 16383 c :=
  layerStep_forall gsButterfly len (fun _ h => h)
    (fun z hz x y _ _ => (gsButterfly_within (hzs z hz) x y).imp (·.mono (by norm_num)) (·.mono (by norm_num))) hr

/-- Each layer adds at most q - 1 to the largest magnitude (R137). -/
theorem transform_ct_within {lens : List Nat} {B : Int} (hB : B + 3328 * lens.length ≤ 32767) {zs r : List Coeff}
    (hzs : ∀ z ∈ zs, Within 3328 z) (hr : ∀ c ∈ r, Within B c) :
    ∀ c ∈ transform ctButterfly lens zs r, Within (B + 3328 * lens.length) c := by
  induction lens generalizing B zs r with
  | nil => simpa [transform] using hr
  | cons len lens ih =>
    push_cast [List.length_cons] at hB ⊢
    have hlayer := layerStep_ct_within (B := B) (by omega) len (zs := zs.take (128 / len))
      (fun z hz => hzs z (List.mem_of_mem_take hz)) hr
    have h := ih (by omega) (zs := zs.drop (128 / len)) (fun z hz => hzs z (List.mem_of_mem_drop hz)) hlayer
    rwa [show B + 3328 + 3328 * (lens.length : Int) = B + 3328 * (lens.length + 1) by ring] at h

/-- Lane by lane and over the list of coefficients is the same. -/
theorem forall_mem_coeffs_iff {P : Coeff → Prop} (p : Poly256) : (∀ c ∈ p.coeffs, P c) ↔ ∀ i, P (lane p i) := by
  refine ⟨fun h i => h _ (List.getElem_mem _), fun h c hc => ?_⟩
  obtain ⟨i, hi, rfl⟩ := List.mem_iff_getElem.mp hc
  exact h ⟨i, p.size ▸ hi⟩

theorem coeffs_ntt (p : Poly256) : (ntt p).coeffs = nttLayers p.coeffs := coeffs_polyOfList (length_nttLayers p)

theorem ntt_within {p : Poly256} {B : Int} (hB : B ≤ 9471) (hp : ∀ c ∈ p.coeffs, Within B c) :
    ∀ c ∈ (ntt p).coeffs, Within (B + 7 * 3328) c := by
  have hlens : (nttLens.length : Int) = 7 := rfl
  have h := transform_ct_within (lens := nttLens) (zs := Config.zetas.drop 1) (by rw [hlens]; omega)
    (fun z hz => zetas_within z (List.mem_of_mem_drop hz)) hp
  rw [coeffs_ntt, mul_comm, ← hlens]
  exact h

/-- Settles O39: seven layers. -/
theorem nttGrowsByAtMostSevenTimesQ : Obligations.NttGrowsByAtMostSevenTimesQ := by
  intro p B hB hp i
  exact (forall_mem_coeffs_iff (ntt p)).mp (ntt_within hB ((forall_mem_coeffs_iff p).mpr hp)) i

/-! ### The loops of the spec (R136, R138) -/

/-- One step of the loops with any butterfly: positions `j` and `j + len` updated in place. -/
def pairUpdate (bf : Coeff → Coeff → Coeff → Coeff × Coeff) (z : Coeff) (len : Nat) (r : List Coeff) (j : Nat) :
    List Coeff :=
  (r.set j (bf z (r.getD j 0) (r.getD (j + len) 0)).1).set (j + len) (bf z (r.getD j 0) (r.getD (j + len) 0)).2

theorem ctAt_eq_pairUpdate : Spec.ctAt = pairUpdate ctButterfly := by
  funext z len r j
  simp only [pairUpdate, ctButterfly_eq_ctPair]
  rfl

theorem gsAt_eq_pairUpdate : Spec.gsAt = pairUpdate gsButterfly := by
  funext z len r j
  simp only [pairUpdate, gsButterfly_eq_gsPair]
  rfl

/-- The first `n` steps of the innermost loop, from position `start` on. -/
def pairLoop (bf : Coeff → Coeff → Coeff → Coeff × Coeff) (z : Coeff) (len start n : Nat) (r : List Coeff) :
    List Coeff :=
  (List.range n).foldl (fun r j => pairUpdate bf z len r (start + j)) r

theorem pairLoop_succ (bf : Coeff → Coeff → Coeff → Coeff × Coeff) (z : Coeff) (len start n : Nat) (r : List Coeff) :
    pairLoop bf z len start (n + 1) r = pairUpdate bf z len (pairLoop bf z len start n r) (start + n) := by
  rw [pairLoop, List.range_succ, List.foldl_concat]
  rfl

@[simp] theorem length_pairLoop (bf : Coeff → Coeff → Coeff → Coeff × Coeff) (z : Coeff) (len start n : Nat)
    (r : List Coeff) : (pairLoop bf z len start n r).length = r.length := by
  induction n with
  | zero => rfl
  | succ n ih => rw [pairLoop_succ, pairUpdate, List.length_set, List.length_set, ih]

theorem getD_set {r : List Coeff} {j : Nat} (hj : j < r.length) (c : Coeff) (i : Nat) :
    (r.set j c).getD i 0 = if i = j then c else r.getD i 0 := by
  simp only [List.getD_eq_getElem?_getD, List.getElem?_set, eq_comm (a := i)]
  split <;> simp [*]

/-- After `n` steps of the innermost loop the first `n` pairs are done and every other position is as before. -/
theorem getD_pairLoop (bf : Coeff → Coeff → Coeff → Coeff × Coeff) (z : Coeff) {len start n : Nat} {r : List Coeff}
    (hn : n ≤ len) (hr : start + 2 * len ≤ r.length) (i : Nat) :
    (pairLoop bf z len start n r).getD i 0 =
      if start ≤ i ∧ i < start + n then (bf z (r.getD i 0) (r.getD (i + len) 0)).1
      else if start + len ≤ i ∧ i < start + len + n then (bf z (r.getD (i - len) 0) (r.getD i 0)).2
      else r.getD i 0 := by
  induction n generalizing i with
  | zero => rw [if_neg (by omega), if_neg (by omega)]; rfl
  | succ n ih =>
    have hlow := ih (by omega) (start + n)
    have hhigh := ih (by omega) (start + n + len)
    rw [if_neg (by omega), if_neg (by omega)] at hlow hhigh
    rw [pairLoop_succ, pairUpdate, hlow, hhigh, getD_set (by simp; omega), getD_set (by simp; omega), ih (by omega)]
    rcases eq_or_ne i (start + n + len) with rfl | hhi
    · rw [if_pos rfl, if_neg (by omega), if_pos (by omega), Nat.add_sub_cancel]
    · rw [if_neg hhi]
      rcases eq_or_ne i (start + n) with rfl | hlo
      · rw [if_pos rfl, if_pos (by omega)]
      · rw [if_neg hlo]
        exact if_congr (by omega) rfl (if_congr (by omega) rfl rfl)

/-- The first `n` blocks of a layer as the loops write it. -/
def blockLoop (bf : Coeff → Coeff → Coeff → Coeff × Coeff) (table : List Coeff) (len k n : Nat) (r : List Coeff) :
    List Coeff :=
  (List.range n).foldl (fun r b => pairLoop bf (table.getD (k + b) 0) len (2 * len * b) len r) r

theorem blockLoop_succ (bf : Coeff → Coeff → Coeff → Coeff × Coeff) (table : List Coeff) (len k n : Nat)
    (r : List Coeff) : blockLoop bf table len k (n + 1) r =
      pairLoop bf (table.getD (k + n) 0) len (2 * len * n) len (blockLoop bf table len k n r) := by
  rw [blockLoop, List.range_succ, List.foldl_concat]
  rfl

theorem loopLayer_eq_blockLoop (bf : Coeff → Coeff → Coeff → Coeff × Coeff) (table : List Coeff) (len k : Nat)
    (r : List Coeff) : Spec.loopLayer (pairUpdate bf) table len k r = blockLoop bf table len k (128 / len) r := rfl

@[simp] theorem length_blockLoop (bf : Coeff → Coeff → Coeff → Coeff × Coeff) (table : List Coeff) (len k n : Nat)
    (r : List Coeff) : (blockLoop bf table len k n r).length = r.length := by
  induction n with
  | zero => rfl
  | succ n ih => rw [blockLoop_succ, length_pairLoop, ih]

/-- The loops leave the blocks they have not reached as they were. -/
theorem getD_blockLoop_above (bf : Coeff → Coeff → Coeff → Coeff × Coeff) (table : List Coeff) {len k n : Nat}
    {r : List Coeff} (hr : 2 * len * n ≤ r.length) {i : Nat} (hi : 2 * len * n ≤ i) :
    (blockLoop bf table len k n r).getD i 0 = r.getD i 0 := by
  induction n with
  | zero => rfl
  | succ n ih =>
    rw [Nat.mul_succ] at hr hi
    rw [blockLoop_succ, getD_pairLoop _ _ le_rfl (by simp; omega), if_neg (by omega), if_neg (by omega),
      ih (by omega) (by omega)]

/-- In every block they have reached, the loops have run the butterfly of its table entry on both halves. -/
theorem getD_blockLoop (bf : Coeff → Coeff → Coeff → Coeff × Coeff) (table : List Coeff) {len k n : Nat}
    {r : List Coeff} (hr : 2 * len * n ≤ r.length) {b e : Nat} (hb : b < n) (he : e < len) :
    (blockLoop bf table len k n r).getD (2 * len * b + e) 0 =
        (bf (table.getD (k + b) 0) (r.getD (2 * len * b + e) 0) (r.getD (2 * len * b + len + e) 0)).1 ∧
      (blockLoop bf table len k n r).getD (2 * len * b + len + e) 0 =
        (bf (table.getD (k + b) 0) (r.getD (2 * len * b + e) 0) (r.getD (2 * len * b + len + e) 0)).2 := by
  induction n with
  | zero => omega
  | succ n ih =>
    rw [Nat.mul_succ] at hr
    rw [blockLoop_succ, getD_pairLoop _ _ le_rfl (by simp; omega), getD_pairLoop _ _ le_rfl (by simp; omega)]
    rcases Nat.lt_succ_iff_lt_or_eq.mp hb with hb | rfl
    · have hbelow : 2 * len * (b + 1) ≤ 2 * len * n := Nat.mul_le_mul_left _ hb
      rw [Nat.mul_succ] at hbelow
      rw [if_neg (by omega), if_neg (by omega), if_neg (by omega), if_neg (by omega)]
      exact ih (by omega) hb
    · have hsame (i : Nat) (hi : 2 * len * b ≤ i) :=
        getD_blockLoop_above bf table (k := k) (n := b) (r := r) (by omega) hi
      rw [if_pos (by omega), if_neg (by omega), if_pos (by omega), hsame _ (by omega), hsame _ (by omega),
        hsame _ (by omega), hsame _ (by omega)]
      have hcomm : 2 * len * b + e + len = 2 * len * b + len + e := by omega
      have hback : 2 * len * b + len + e - len = 2 * len * b + e := by omega
      rw [hcomm, hback]
      exact ⟨rfl, rfl⟩

/-- Every position lies in the lower or the upper half of its block. -/
theorem exists_block_position {len n i : Nat} (hi : i < 2 * len * n) :
    ∃ b < n, ∃ e < len, i = 2 * len * b + e ∨ i = 2 * len * b + len + e := by
  have hlen : 0 < 2 * len := Nat.pos_of_ne_zero fun h => by simp [h] at hi
  have hmod := Nat.mod_lt i hlen
  have hdiv := Nat.div_add_mod i (2 * len)
  have hb : i / (2 * len) < n := Nat.div_lt_of_lt_mul hi
  rcases Nat.lt_or_ge (i % (2 * len)) len with h | h
  · exact ⟨_, hb, _, h, .inl hdiv.symm⟩
  · exact ⟨_, hb, i % (2 * len) - len, by omega, .inr (by omega)⟩

/-- A layer of the model is a layer of the loops. -/
theorem layerStep_eq_loopLayer (bf : Coeff → Coeff → Coeff → Coeff × Coeff) {table : List Coeff} {len k : Nat}
    {r : List Coeff} (hr : r.length = 2 * len * (128 / len)) (hk : k + 128 / len ≤ table.length) :
    layerStep bf len ((table.drop k).take (128 / len)) r = Spec.loopLayer (pairUpdate bf) table len k r := by
  have hlen := length_tableLayer bf hr hk
  rw [loopLayer_eq_blockLoop]
  refine List.ext_getElem (hlen.trans (length_blockLoop ..).symm) fun i h1 h2 => ?_
  rw [← List.getD_eq_getElem _ 0 h1, ← List.getD_eq_getElem _ 0 h2]
  obtain ⟨b, hb, e, he, hi⟩ := exists_block_position (len := len) (n := 128 / len) (i := i) (by omega)
  obtain ⟨hlow, hhigh⟩ := getD_tableLayer bf hr hk hb he
  obtain ⟨hlow', hhigh'⟩ := getD_blockLoop bf table (k := k) hr.ge hb he
  rcases hi with rfl | rfl
  · rw [hlow, hlow']
  · rw [hhigh, hhigh']

/-- The layers of the model are the layers of the loops, with the running index k. -/
theorem transform_eq_loopLayers (bf : Coeff → Coeff → Coeff → Coeff × Coeff) (table : List Coeff) {lens : List Nat}
    {k : Nat} {r : List Coeff} (hr : ∀ len ∈ lens, r.length = 2 * len * (128 / len))
    (hk : k + (lens.map (128 / ·)).sum ≤ table.length) :
    transform bf lens (table.drop k) r = Spec.loopLayers (pairUpdate bf) table lens k r := by
  induction lens generalizing k r with
  | nil => rfl
  | cons len lens ih =>
    rw [List.map_cons, List.sum_cons] at hk
    have hlayer := layerStep_eq_loopLayer bf (table := table) (k := k) (hr len (by simp)) (by omega)
    have hlen : (Spec.loopLayer (pairUpdate bf) table len k r).length = r.length := length_blockLoop ..
    rw [transform, List.drop_drop, hlayer, Spec.loopLayers]
    exact ih (fun l hl => hlen.trans (hr l (by simp [hl]))) (by omega)

theorem coeffs_mapLanes (f : Coeff → Coeff) (p : Poly256) : (mapLanes f p).coeffs = p.coeffs.map f := rfl

theorem coeffs_invNtt (p : Poly256) :
    (invNtt p).coeffs = (invNttLayers p.coeffs).map fun c => montMul c Config.finalFactor := by
  rw [invNtt, coeffs_mapLanes, coeffs_polyOfList (length_invNttLayers p)]

theorem nttLayers_eq_loopLayers (p : Poly256) :
    nttLayers p.coeffs = Spec.loopLayers (pairUpdate ctButterfly) Config.zetas nttLens 1 p.coeffs :=
  transform_eq_loopLayers ctButterfly Config.zetas (k := 1) (by rw [p.size]; decide) (by rw [length_zetas]; decide)

theorem invNttLayers_eq_loopLayers (p : Poly256) :
    invNttLayers p.coeffs = Spec.loopLayers (pairUpdate gsButterfly) Config.zetasInv invNttLens 0 p.coeffs := by
  rw [invNttLayers, ← transform_eq_loopLayers gsButterfly Config.zetasInv (by rw [p.size]; decide)
    (by rw [length_zetasInv]; decide), List.drop_zero]

/-- The final factor of InvNTT (R133, R138) on integers. -/
theorem montMul_finalFactor (c : Coeff) :
    montMul c Config.finalFactor = Spec.int16 (Spec.montMul c.toInt 1441) := by
  have h : Config.finalFactor.toInt = 1441 := by decide +kernel
  rw [← int16_toInt (montMul c _), toInt_montMul, h, Spec.montMul]

/-- Settles O38: layer by layer, each pair in its place. -/
theorem transformsAreTheLoopsOfTheSpec : Obligations.TransformsAreTheLoopsOfTheSpec := by
  rw [Obligations.TransformsAreTheLoopsOfTheSpec, ctAt_eq_pairUpdate, gsAt_eq_pairUpdate]
  refine ⟨fun p => ?_, fun p => ?_⟩
  · rw [coeffs_ntt, nttLayers_eq_loopLayers, nttLens]
  · rw [coeffs_invNtt, invNttLayers_eq_loopLayers, invNttLens]
    exact List.map_congr_left fun c _ => montMul_finalFactor c

/-! ### Base multiplication (R140, R141) -/

theorem negCoeff_eq_neg (z : Coeff) : negCoeff z = -z := by
  rw [negCoeff, wrap16, BitVec.ofInt_neg, BitVec.ofInt_toInt]

theorem baseMulList_cons (z : Coeff) {zs : List Coeff} (a0 a1 a2 a3 b0 b1 b2 b3 : Coeff) (as bs : List Coeff) :
    baseMulList (z :: zs) (a0 :: a1 :: a2 :: a3 :: as) (b0 :: b1 :: b2 :: b3 :: bs) =
      (baseMul2 a0 a1 b0 b1 z).1 :: (baseMul2 a0 a1 b0 b1 z).2 ::
        (baseMul2 a2 a3 b2 b3 (-z)).1 :: (baseMul2 a2 a3 b2 b3 (-z)).2 :: baseMulList zs as bs := by
  rw [baseMulList, negCoeff_eq_neg]

/-- Entry `j` of the four from position `4 * i` on. -/
def quad (l : List Coeff) (i j : Nat) : Coeff := l.getD (4 * i + j) 0

theorem exists_four_cons {l : List Coeff} {n : Nat} (h : l.length = 4 * (n + 1)) :
    ∃ c0 c1 c2 c3 l', l = c0 :: c1 :: c2 :: c3 :: l' ∧ l'.length = 4 * n := by
  match l, h with
  | c0 :: c1 :: c2 :: c3 :: l', h =>
    simp only [List.length_cons] at h
    exact ⟨c0, c1, c2, c3, l', rfl, by omega⟩
  | [], h | [_], h | [_, _], h | [_, _, _], h =>
    simp only [List.length_cons, List.length_nil] at h
    omega

/-- Four coefficients of the base multiplication, from one table entry (R141). -/
theorem quad_baseMulList {zs as bs : List Coeff} (ha : as.length = 4 * zs.length) (hb : bs.length = 4 * zs.length)
    {i : Nat} (hi : i < zs.length) :
    (quad (baseMulList zs as bs) i 0, quad (baseMulList zs as bs) i 1) =
        baseMul2 (quad as i 0) (quad as i 1) (quad bs i 0) (quad bs i 1) (zs.getD i 0) ∧
      (quad (baseMulList zs as bs) i 2, quad (baseMulList zs as bs) i 3) =
        baseMul2 (quad as i 2) (quad as i 3) (quad bs i 2) (quad bs i 3) (-zs.getD i 0) := by
  induction zs generalizing as bs i with
  | nil => simp at hi
  | cons z zs ih =>
    obtain ⟨a0, a1, a2, a3, as, rfl, hlena⟩ := exists_four_cons ha
    obtain ⟨b0, b1, b2, b3, bs, rfl, hlenb⟩ := exists_four_cons hb
    rw [baseMulList_cons]
    cases i with
    | zero => exact ⟨rfl, rfl⟩
    | succ i => exact ih hlena hlenb (Nat.lt_of_succ_lt_succ hi)

theorem coeffs_baseMul (a b : Poly256) :
    (baseMul a b).coeffs = baseMulList (Config.zetas.drop 64) a.coeffs b.coeffs := by
  have hlen : (Config.zetas.drop 64).length = 64 := by rw [List.length_drop, length_zetas]
  refine coeffs_polyOfList ?_
  rw [length_baseMulList _ _ _ (by rw [a.size, hlen]) (by rw [b.size, hlen]), hlen]

/-- The two pairs of BaseMul at 4i to 4i+3 (R141). -/
theorem quad_baseMul (a b : Poly256) {i : Nat} (hi : i < 64) :
    (quad (baseMul a b).coeffs i 0, quad (baseMul a b).coeffs i 1) =
        baseMul2 (quad a.coeffs i 0) (quad a.coeffs i 1) (quad b.coeffs i 0) (quad b.coeffs i 1)
          (Config.zetas.getD (64 + i) 0) ∧
      (quad (baseMul a b).coeffs i 2, quad (baseMul a b).coeffs i 3) =
        baseMul2 (quad a.coeffs i 2) (quad a.coeffs i 3) (quad b.coeffs i 2) (quad b.coeffs i 3)
          (-Config.zetas.getD (64 + i) 0) := by
  have hlen : (Config.zetas.drop 64).length = 64 := by rw [List.length_drop, length_zetas]
  have hz : (Config.zetas.drop 64).getD i 0 = Config.zetas.getD (64 + i) 0 := by simp [List.getD_eq_getElem?_getD]
  rw [coeffs_baseMul, ← hz]
  exact quad_baseMulList (by rw [a.size, hlen]) (by rw [b.size, hlen]) (hlen.symm ▸ hi)

/-- Settles O42: `quad_baseMul`, component by component. -/
theorem baseMulLanes : Obligations.BaseMulLanes := by
  intro a b i hi
  obtain ⟨hfirst, hsecond⟩ := quad_baseMul a b hi
  exact ⟨congrArg Prod.fst hfirst, congrArg Prod.snd hfirst, congrArg Prod.fst hsecond, congrArg Prod.snd hsecond⟩

end Sys2Proof.Machine
end

section
/-! PROOFS. The arithmetic of the transforms modulo q: the butterflies and the base product of a pair (R134, R135, R140). -/

namespace Sys2Proof.Machine

/-! ### Coefficients modulo q -/

/-- A coefficient modulo q. -/
def modQ (c : Coeff) : ZMod 3329 := (c.toInt : ZMod 3329)

/-- The statements' form of a congruence modulo q. -/
theorem emod_eq_zero_iff (a b : Int) : (a - b) % 3329 = 0 ↔ (a : ZMod 3329) = b := by
  rw [← Int.dvd_iff_emod_eq_zero, ← sub_eq_zero, ← Int.cast_sub]
  exact (ZMod.intCast_zmod_eq_zero_iff_dvd (a - b) 3329).symm

/-- 169 is the inverse of R = 2^16 modulo q. -/
theorem montgomery_inverse : (65536 : ZMod 3329) * 169 = 1 := by decide

/-- MontMul takes one factor R out of the product (R112). -/
theorem modQ_montMul_mul {x y : Coeff} (h : MontFits x y) : modQ (montMul x y) * 65536 = modQ x * modQ y := by
  have hR := (emod_eq_zero_iff _ _).mp (Spec.montReduce_spec h).1
  rw [← toInt_montMul, Int.cast_mul, Int.cast_mul] at hR
  exact hR

theorem modQ_montMul {x y : Coeff} (h : MontFits x y) : modQ (montMul x y) = modQ x * modQ y * 169 := by
  linear_combination 169 * modQ_montMul_mul h - modQ (montMul x y) * montgomery_inverse

theorem modQ_barrettReduce (x : Coeff) : modQ (barrettReduce x) = modQ x := by
  rw [modQ, toInt_barrettReduce, Spec.barrett, modQ, ← emod_eq_zero_iff]
  omega

theorem modQ_addCoeff {A B : Int} {x y : Coeff} (hx : Within A x) (hy : Within B y) (h : A + B ≤ 32767) :
    modQ (addCoeff x y) = modQ x + modQ y := by
  rw [modQ, toInt_addCoeff_of_within hx hy h, Int.cast_add]
  rfl

theorem modQ_subCoeff {A B : Int} {x y : Coeff} (hx : Within A x) (hy : Within B y) (h : A + B ≤ 32767) :
    modQ (subCoeff x y) = modQ x - modQ y := by
  rw [modQ, toInt_subCoeff_of_within hx hy h, Int.cast_sub]
  rfl

/-- The forward butterfly modulo q, for a factor in Montgomery form and where nothing wraps (R134). -/
theorem modQ_ctButterfly {B : Int} (hB : B + 3328 ≤ 32767) {z x : Coeff} (hz : Within 3328 z) (hx : Within B x)
    (y : Coeff) : modQ (ctButterfly z x y).1 = modQ x + modQ z * 169 * modQ y ∧
      modQ (ctButterfly z x y).2 = modQ x - modQ z * 169 * modQ y := by
  have ht := montMul_within (hz.montFits y)
  have hmul : modQ (montMul z y) = modQ z * 169 * modQ y := by rw [modQ_montMul (hz.montFits y)]; ring
  rw [← hmul]
  exact ⟨modQ_addCoeff hx ht hB, modQ_subCoeff hx ht hB⟩

/-- The inverse butterfly modulo q, where nothing wraps (R135). -/
theorem modQ_gsButterfly {z x y : Coeff} (hz : Within 3328 z) (hx : Within 16383 x) (hy : Within 16383 y) :
    modQ (gsButterfly z x y).1 = modQ x + modQ y ∧
      modQ (gsButterfly z x y).2 = modQ z * 169 * (modQ x - modQ y) := by
  refine ⟨(modQ_barrettReduce _).trans (modQ_addCoeff hx hy (by norm_num)), ?_⟩
  rw [gsButterfly, modQ_montMul (hz.montFits _), modQ_subCoeff hx hy (by norm_num)]
  ring

/-- The base product of a pair modulo q, and its magnitude, where every product fits (R140). -/
theorem baseMul2_spec {a0 a1 b0 b1 z : Coeff} (h00 : MontFits a0 b0) (h01 : MontFits a0 b1)
    (h10 : MontFits a1 b0) (h11 : MontFits a1 b1) :
    (modQ (baseMul2 a0 a1 b0 b1 z).1 = 169 * (modQ a0 * modQ b0 + modQ z * 169 * (modQ a1 * modQ b1)) ∧
        modQ (baseMul2 a0 a1 b0 b1 z).2 = 169 * (modQ a0 * modQ b1 + modQ a1 * modQ b0)) ∧
      Within 6656 (baseMul2 a0 a1 b0 b1 z).1 ∧ Within 6656 (baseMul2 a0 a1 b0 b1 z).2 := by
  have hzfit := (montMul_within h11).montFits z
  have h0 := montMul_within hzfit
  have hsum : (3328 : Int) + 3328 = 6656 := by norm_num
  refine ⟨⟨?_, ?_⟩, hsum ▸ addCoeff_within h0 (montMul_within h00) (by norm_num),
    hsum ▸ addCoeff_within (montMul_within h01) (montMul_within h10) (by norm_num)⟩
  · refine (modQ_addCoeff h0 (montMul_within h00) (by norm_num)).trans ?_
    rw [modQ_montMul hzfit, modQ_montMul h11, modQ_montMul h00]
    ring
  · refine (modQ_addCoeff (montMul_within h01) (montMul_within h10) (by norm_num)).trans ?_
    rw [modQ_montMul h01, modQ_montMul h10]
    ring

/-- Settles O43: `baseMul2_spec`, with 169 cleared by R. -/
theorem baseMulPairCarriesOneInverseFactor : Obligations.BaseMulPairCarriesOneInverseFactor := by
  intro a0 a1 b0 b1 z zeta _ _ hz hfit
  obtain ⟨⟨h0, h1⟩, hw0, hw1⟩ := baseMul2_spec (a0 := a0) (a1 := a1) (b0 := b0) (b1 := b1) (z := z)
    (hfit _ _ (.inl rfl) (.inl rfl)) (hfit _ _ (.inl rfl) (.inr rfl))
    (hfit _ _ (.inr rfl) (.inl rfl)) (hfit _ _ (.inr rfl) (.inr rfl))
  have hzeta : modQ z = zeta * 65536 := by
    have h := (emod_eq_zero_iff _ _).mp hz
    push_cast at h
    exact h
  rw [hzeta] at h0
  refine ⟨?_, ?_, by omega⟩
  · rw [emod_eq_zero_iff]
    push_cast
    simp only [modQ] at h0
    linear_combination 65536 * h0 + (((a0.toInt : ZMod 3329)) * b0.toInt +
      zeta * (65536 * 169 + 1) * (a1.toInt * b1.toInt)) * montgomery_inverse
  · rw [emod_eq_zero_iff]
    push_cast
    simp only [modQ] at h1
    linear_combination 65536 * h1 + ((a0.toInt : ZMod 3329) * b1.toInt + a1.toInt * b0.toInt) * montgomery_inverse

end Sys2Proof.Machine
end

section
/-! PROOFS. The transforms modulo q (R139, R145): every block of a layer holds the residue of the polynomial modulo one
factor X^len - w of X^256 + 1. A forward layer splits each block in two, an inverse layer joins two again (up to the factor
2). -/

namespace Sys2Proof.Machine

/-! ### The roots -/

/-- zeta_k = 17^brv7(k) (R132). -/
def zeta (k : Nat) : ZMod 3329 := 17 ^ (BitVec.ofNat 7 k).reverse.toNat

/-- The tree of factors of X^256 + 1: node `n` is X^len - blockRoot n, its children are the nodes 2n and 2n + 1 with len
halved, and node 1 is X^256 + 1 itself. The nodes of one len are those of one layer's blocks, in order. -/
def blockRoot (n : Nat) : ZMod 3329 := if n % 2 = 0 then zeta (n / 2) else -zeta (n / 2)

@[simp] theorem blockRoot_even (k : Nat) : blockRoot (2 * k) = zeta k := by simp [blockRoot]

@[simp] theorem blockRoot_odd (k : Nat) : blockRoot (2 * k + 1) = -zeta k := by
  rw [blockRoot, if_neg (by omega), show (2 * k + 1) / 2 = k by omega]

/-- The two facts of bit reversal and 17^128 = -1 that `zeta_sq` needs, on numbers. -/
theorem zeta_sq_table : ∀ k < 64,
    (k ≠ 0 → (17 ^ (BitVec.ofNat 7 (2 * k)).reverse.toNat) ^ 2 % 3329 = 17 ^ (BitVec.ofNat 7 k).reverse.toNat % 3329) ∧
      ((17 ^ (BitVec.ofNat 7 (2 * k + 1)).reverse.toNat) ^ 2 + 17 ^ (BitVec.ofNat 7 k).reverse.toNat) % 3329 = 0 := by
  decide +kernel

theorem natCast_eq_of_mod_eq {a b : Nat} (h : a % 3329 = b % 3329) : (a : ZMod 3329) = b :=
  (ZMod.natCast_eq_natCast_iff' a b 3329).mpr h

/-- The two roots that a block's factor splits into are square roots of its own. -/
theorem zeta_sq {n : Nat} (hpos : 0 < n) (hlt : n < 128) : zeta n ^ 2 = blockRoot n := by
  rcases Nat.even_or_odd' n with ⟨k, rfl | rfl⟩
  · have h := natCast_eq_of_mod_eq ((zeta_sq_table k (by omega)).1 (by omega))
    push_cast at h
    rw [blockRoot_even]
    exact h
  · have h := natCast_eq_of_mod_eq ((zeta_sq_table k (by omega)).2.trans (Nat.zero_mod 3329).symm)
    push_cast at h
    rw [blockRoot_odd]
    exact eq_neg_of_add_eq_zero_left h

theorem blockRoot_sq {n : Nat} (hge : 2 ≤ n) (hlt : n < 256) : blockRoot n ^ 2 = blockRoot (n / 2) := by
  rw [← zeta_sq (n := n / 2) (by omega) (by omega), blockRoot]
  split
  · rfl
  · exact neg_sq _

/-- Up `i` levels of the tree. -/
theorem blockRoot_pow {n : Nat} (hlt : n < 256) (i : Nat) (hi : 2 ^ i ≤ n) :
    blockRoot n ^ 2 ^ i = blockRoot (n / 2 ^ i) := by
  induction i with
  | zero => simp
  | succ i ih =>
    rw [Nat.pow_succ] at hi
    have hge : 2 ≤ n / 2 ^ i := (Nat.le_div_iff_mul_le (by positivity)).mpr (by omega)
    have hle : n / 2 ^ i ≤ n := Nat.div_le_self _ _
    rw [Nat.pow_succ, pow_mul, ih (by omega), blockRoot_sq hge (by omega), Nat.div_div_eq_div_mul]

theorem zeta_zero : zeta 0 = 1 := by
  rw [zeta, show (BitVec.ofNat 7 0).reverse.toNat = 0 by decide, pow_zero]

/-- The roots of the 128 quadratic factors (R145): X^256 = -1 modulo each. -/
theorem blockRoot_leaf {n : Nat} (hge : 128 ≤ n) (hlt : n < 256) : blockRoot n ^ 128 = -1 := by
  have h := blockRoot_pow hlt 7 hge
  rwa [show n / 2 ^ 7 = 2 * 0 + 1 by omega, blockRoot_odd, zeta_zero] at h

/-- A table entry is not negative, so it is its own bit pattern as a number. -/
theorem modQ_of_toNat {c : Coeff} {n : Nat} (h : c.toNat = n % 3329) : modQ c = n := by
  have hlt := Nat.mod_lt n (show 0 < 3329 by norm_num)
  rw [modQ, BitVec.toInt_eq_toNat_of_lt (by omega), Int.cast_natCast, h, ZMod.natCast_mod]

/-- The zeta table holds the roots in Montgomery form (R132). -/
theorem modQ_zetas {k : Nat} (hk : k < 128) : modQ (Config.zetas.getD k 0) = 65536 * zeta k := by
  have h := toNat_zetas (BitVec.ofNat 7 k)
  rw [show (BitVec.ofNat 7 k).toNat = k by simp; omega] at h
  rw [modQ_of_toNat h, zeta]
  push_cast
  rfl

/-- Block `b` of a layer of `2 ^ n` blocks: its inverse entry against its forward root (R133, R138). -/
theorem zetasInv_table : ∀ n < 7, ∀ b < 2 ^ n, ((Config.zetasInv.getD (128 - 2 * 2 ^ n + b) 0).toNat *
    17 ^ (BitVec.ofNat 7 (2 ^ n + b)).reverse.toNat) % 3329 = 65536 % 3329 := by
  decide +kernel

/-- The inverse entry undoes the forward root: their product is R, the Montgomery form of 1. -/
theorem modQ_zetasInv {n b : Nat} (hn : n < 7) (hb : b < 2 ^ n) :
    modQ (Config.zetasInv.getD (128 - 2 * 2 ^ n + b) 0) * zeta (2 ^ n + b) = 65536 := by
  have hpow : 2 ^ n ≤ 64 := Nat.pow_le_pow_right (n := 2) (by norm_num) (Nat.le_of_lt_succ hn)
  have hlt : (Config.zetasInv.getD (128 - 2 * 2 ^ n + b) 0).toNat < 3329 := by
    rw [toNat_zetasInv _ (by omega)]
    exact Nat.mod_lt _ (by norm_num)
  have h := natCast_eq_of_mod_eq (zetasInv_table n hn b hb)
  push_cast at h
  rw [modQ_of_toNat (Nat.mod_eq_of_lt hlt).symm]
  exact h

/-! ### Residues -/

/-- Coefficient `e < len` of the polynomial with `len * m` coefficients `p` modulo X^len - x. -/
def residue {S : Type} [CommRing S] (p : Nat → S) (m len : Nat) (x : S) (e : Nat) : S :=
  ∑ j ∈ Finset.range m, p (len * j + e) * x ^ j

theorem residue_one {S : Type} [CommRing S] (p : Nat → S) (len : Nat) (x : S) (e : Nat) : residue p 1 len x e = p e := by
  simp [residue]

/-- Modulo X^len - x from modulo X^(2 len) - x^2, a multiple of it: the upper half moves down times x. -/
theorem residue_split {S : Type} [CommRing S] (p : Nat → S) (m len : Nat) (x : S) (e : Nat) :
    residue p (2 * m) len x e = residue p m (2 * len) (x ^ 2) e + x * residue p m (2 * len) (x ^ 2) (len + e) := by
  induction m with
  | zero => simp [residue]
  | succ m ih =>
    have heven : len * (2 * m) + e = 2 * len * m + e := by ring
    have hodd : len * (2 * m + 1) + e = 2 * len * m + (len + e) := by ring
    simp only [residue] at ih ⊢
    rw [Nat.mul_succ, Finset.sum_range_succ, Finset.sum_range_succ, ih, Finset.sum_range_succ, Finset.sum_range_succ,
      heven, hodd]
    ring

/-- The residue modulo the children of node `n` from the residue modulo node `n`. -/
theorem residue_children (p : Nat → ZMod 3329) (m len e : Nat) {n : Nat} (hpos : 0 < n) (hlt : n < 128) :
    residue p (2 * m) len (blockRoot (2 * n)) e = residue p m (2 * len) (blockRoot n) e +
        zeta n * residue p m (2 * len) (blockRoot n) (len + e) ∧
      residue p (2 * m) len (blockRoot (2 * n + 1)) e = residue p m (2 * len) (blockRoot n) e -
        zeta n * residue p m (2 * len) (blockRoot n) (len + e) := by
  rw [blockRoot_even, blockRoot_odd, residue_split, residue_split, neg_sq, zeta_sq hpos hlt]
  exact ⟨rfl, by ring⟩

/-- The `m` blocks of `len` coefficients of `r` hold, up to the factor `c`, the residues of the polynomial `p` modulo the
`m` factors of that len. -/
def HasResidues (c : ZMod 3329) (p : Nat → ZMod 3329) (m len : Nat) (r : List Coeff) : Prop :=
  ∀ b < m, ∀ e < len, modQ (r.getD (len * b + e) 0) = c * residue p m len (blockRoot (m + b)) e

theorem within_getD {B : Int} (hB : 0 ≤ B) {r : List Coeff} (hr : ∀ c ∈ r, Within B c) (i : Nat) :
    Within B (r.getD i 0) := by
  rcases Nat.lt_or_ge i r.length with h | h
  · rw [List.getD_eq_getElem _ _ h]
    exact hr _ (List.getElem_mem _)
  · rw [List.getD_eq_default _ _ h]
    exact ⟨by simpa using hB, by simpa using hB⟩

/-- The two halves of block `b` hold the residues modulo the children of its node. -/
theorem hasResidues_two_mul_iff {c : ZMod 3329} {p : Nat → ZMod 3329} {m len : Nat} {r : List Coeff} :
    HasResidues c p (2 * m) len r ↔ ∀ b < m, ∀ e < len,
      modQ (r.getD (2 * len * b + e) 0) = c * residue p (2 * m) len (blockRoot (2 * (m + b))) e ∧
      modQ (r.getD (2 * len * b + len + e) 0) = c * residue p (2 * m) len (blockRoot (2 * (m + b) + 1)) e := by
  have hlow (b : Nat) : len * (2 * b) = 2 * len * b := by ring
  have hhigh (b : Nat) : len * (2 * b + 1) = 2 * len * b + len := by ring
  have hnode (b : Nat) : 2 * m + 2 * b = 2 * (m + b) := by ring
  constructor
  · intro h b hb e he
    have h0 := h (2 * b) (by omega) e he
    have h1 := h (2 * b + 1) (by omega) e he
    rw [hlow, hnode] at h0
    rw [hhigh, ← Nat.add_assoc, hnode] at h1
    exact ⟨h0, h1⟩
  · intro h b' hb' e he
    rcases Nat.even_or_odd' b' with ⟨b, rfl | rfl⟩
    · rw [hlow, hnode]
      exact (h b (by omega) e he).1
    · rw [hhigh, ← Nat.add_assoc, hnode]
      exact (h b (by omega) e he).2

/-- The lower and the upper half of a block that holds one residue. -/
theorem hasResidues_halves_iff {c : ZMod 3329} {p : Nat → ZMod 3329} {m len : Nat} {r : List Coeff} :
    HasResidues c p m (2 * len) r ↔ ∀ b < m, ∀ e < len,
      modQ (r.getD (2 * len * b + e) 0) = c * residue p m (2 * len) (blockRoot (m + b)) e ∧
      modQ (r.getD (2 * len * b + len + e) 0) = c * residue p m (2 * len) (blockRoot (m + b)) (len + e) := by
  constructor
  · intro h b hb e he
    rw [Nat.add_assoc]
    exact ⟨h b hb e (by omega), h b hb (len + e) (by omega)⟩
  · intro h b hb e he
    rcases Nat.lt_or_ge e len with hlt | hge
    · exact (h b hb e hlt).1
    · have h1 := (h b hb (e - len) (by omega)).2
      rwa [Nat.add_assoc, Nat.add_sub_cancel' hge] at h1

/-- A forward layer splits each block's factor in two (R134, R136). -/
theorem HasResidues.forwardLayer {c : ZMod 3329} {p : Nat → ZMod 3329} {m len : Nat} {r : List Coeff}
    (h : HasResidues c p m (2 * len) r) (hm : 0 < m) (hm' : m ≤ 64) (hlen : r.length = 2 * len * m)
    (hr : ∀ c ∈ r, Within 29439 c) :
    HasResidues c p (2 * m) len (layerStep ctButterfly len ((Config.zetas.drop m).take m) r) := by
  refine hasResidues_two_mul_iff.mpr fun b hb e he => ?_
  have hz : Within 3328 (Config.zetas.getD (m + b) 0) := within_getD (by norm_num) zetas_within _
  obtain ⟨hx, hy⟩ := hasResidues_halves_iff.mp h b hb e he
  obtain ⟨hlow, hhigh⟩ := getD_tableLayer ctButterfly hlen (k := m) (table := Config.zetas)
    (by rw [length_zetas]; omega) hb he
  obtain ⟨hfst, hsnd⟩ := modQ_ctButterfly (by norm_num) hz (within_getD (by norm_num) hr (2 * len * b + e))
    (r.getD (2 * len * b + len + e) 0)
  obtain ⟨heven, hodd⟩ := residue_children p m len e (n := m + b) (by omega) (by omega)
  rw [hlow, hhigh, hfst, hsnd, hx, hy, heven, hodd, modQ_zetas (by omega)]
  generalize residue p m (2 * len) (blockRoot (m + b)) (len + e) = u
  exact ⟨by linear_combination c * zeta (m + b) * u * montgomery_inverse,
    by linear_combination -c * zeta (m + b) * u * montgomery_inverse⟩

/-- An inverse layer joins two blocks into one, and doubles the factor (R135, R138). -/
theorem HasResidues.inverseLayer {c : ZMod 3329} {p : Nat → ZMod 3329} {n len : Nat} {r : List Coeff}
    (h : HasResidues c p (2 * 2 ^ n) len r) (hn : n < 7) (hlen : r.length = 2 * len * 2 ^ n)
    (hr : ∀ c ∈ r, Within 16383 c) : HasResidues (2 * c) p (2 ^ n) (2 * len)
      (layerStep gsButterfly len ((Config.zetasInv.drop (128 - 2 * 2 ^ n)).take (2 ^ n)) r) := by
  have hpow : 2 ^ n ≤ 64 := Nat.pow_le_pow_right (n := 2) (by norm_num) (Nat.le_of_lt_succ hn)
  have hpos : 0 < 2 ^ n := by positivity
  refine hasResidues_halves_iff.mpr fun b hb e he => ?_
  have hz : Within 3328 (Config.zetasInv.getD (128 - 2 * 2 ^ n + b) 0) := within_getD (by norm_num) zetasInv_within _
  obtain ⟨hx, hy⟩ := hasResidues_two_mul_iff.mp h b hb e he
  obtain ⟨hlow, hhigh⟩ := getD_tableLayer gsButterfly hlen (k := 128 - 2 * 2 ^ n) (table := Config.zetasInv)
    (by rw [length_zetasInv]; omega) hb he
  obtain ⟨hfst, hsnd⟩ := modQ_gsButterfly hz (within_getD (by norm_num) hr (2 * len * b + e))
    (within_getD (by norm_num) hr (2 * len * b + len + e))
  obtain ⟨heven, hodd⟩ := residue_children p (2 ^ n) len e (n := 2 ^ n + b) (by omega) (by omega)
  have hinv := modQ_zetasInv hn hb
  rw [hlow, hhigh, hfst, hsnd, hx, hy, heven, hodd]
  generalize residue p (2 ^ n) (2 * len) (blockRoot (2 ^ n + b)) (len + e) = u at *
  exact ⟨by ring, by linear_combination 2 * c * u * 169 * hinv + 2 * c * u * montgomery_inverse⟩

/-! ### All layers -/

/-- The layer lengths from `2 ^ n` down to 2. -/
def halvings : Nat → List Nat
  | 0 => []
  | n + 1 => 2 ^ (n + 1) :: halvings n

/-- The `n` layer lengths from `len` up. -/
def doublings : Nat → Nat → List Nat
  | 0, _ => []
  | n + 1, len => len :: doublings n (2 * len)

theorem nttLens_eq_halvings : nttLens = halvings 7 := rfl

theorem invNttLens_eq_doublings : invNttLens = doublings 7 2 := rfl

/-- The last `n` layers of the forward transform. -/
theorem HasResidues.forward {c : ZMod 3329} {p : Nat → ZMod 3329} {n m : Nat} {r : List Coeff} {B : Int}
    (h : HasResidues c p m (2 * 2 ^ n) r) (hm : 2 ^ n * m = 128) (hlen : r.length = 256)
    (hr : ∀ c ∈ r, Within B c) (hB : B + 3328 * n ≤ 32767) :
    HasResidues c p 128 2 (transform ctButterfly (halvings n) (Config.zetas.drop m) r) := by
  induction n generalizing m r B with
  | zero =>
    obtain rfl : m = 128 := by simpa using hm
    exact h
  | succ n ih =>
    rw [Nat.pow_succ'] at h hm
    have hpos : 0 < m := Nat.pos_of_ne_zero fun h0 => by simp [h0] at hm
    have hm64 : m ≤ 64 := Nat.le_of_dvd (by norm_num) ⟨2 ^ n, by linarith⟩
    have hdiv : 128 / (2 * 2 ^ n) = m := Nat.div_eq_of_eq_mul_right (by positivity) hm.symm
    have hlen' : r.length = 2 * (2 * 2 ^ n) * m := by rw [hlen]; linarith
    push_cast at hB
    have hlayer := h.forwardLayer hpos hm64 hlen' fun c hc => (hr c hc).mono (by omega)
    have hbound := layerStep_ct_within (B := B) (by omega) (2 * 2 ^ n) (zs := (Config.zetas.drop m).take m)
      (fun z hz => zetas_within z (List.mem_of_mem_drop (List.mem_of_mem_take hz))) hr
    rw [halvings, Nat.pow_succ', transform, hdiv, List.drop_drop, ← Nat.two_mul]
    exact ih hlayer (by linarith) ((length_tableLayer _ hlen' (by rw [length_zetas]; omega)).trans hlen) hbound
      (by linarith)

/-- The last `n` layers of the inverse transform. -/
theorem HasResidues.inverse {c : ZMod 3329} {p : Nat → ZMod 3329} {n len : Nat} {r : List Coeff}
    (h : HasResidues c p (2 ^ n) len r) (hn : n ≤ 7) (hm : len * 2 ^ n = 256) (hlen : r.length = 256)
    (hr : ∀ c ∈ r, Within 16383 c) :
    HasResidues (2 ^ n * c) p 1 256 (transform gsButterfly (doublings n len) (Config.zetasInv.drop (128 - 2 ^ n)) r) := by
  induction n generalizing c len r with
  | zero =>
    obtain rfl : len = 256 := by simpa using hm
    rw [pow_zero, one_mul]
    exact h
  | succ n ih =>
    have hpow : 2 ^ n ≤ 64 := Nat.pow_le_pow_right (n := 2) (by norm_num) (Nat.le_of_lt_succ hn)
    rw [Nat.pow_succ'] at h hm ⊢
    have hlen' : r.length = 2 * len * 2 ^ n := by rw [hlen]; linarith
    have hdiv : 128 / len = 2 ^ n := Nat.div_eq_of_eq_mul_right (Nat.pos_of_ne_zero fun h0 => by simp [h0] at hm)
      (by linarith)
    have hlayer := h.inverseLayer (by omega) hlen' hr
    have hbound := layerStep_gs_within len (zs := (Config.zetasInv.drop (128 - 2 * 2 ^ n)).take (2 ^ n))
      (fun z hz => zetasInv_within z (List.mem_of_mem_drop (List.mem_of_mem_take hz))) hr
    rw [doublings, transform, hdiv, List.drop_drop, show 128 - 2 * 2 ^ n + 2 ^ n = 128 - 2 ^ n by omega, pow_succ,
      mul_assoc]
    exact ih hlayer (by omega) (by linarith) ((length_tableLayer _ hlen' (by rw [length_zetasInv]; omega)).trans hlen)
      hbound

/-- The coefficients of a register modulo q. -/
def coeffsModQ (p : Poly256) (i : Nat) : ZMod 3329 := modQ (p.coeffs.getD i 0)

/-- NTT leaves the residues modulo the 128 quadratic factors where nothing wraps (R145). -/
theorem ntt_hasResidues {p : Poly256} (hp : ∀ i, Within 9464 (lane p i)) :
    HasResidues 1 (coeffsModQ p) 128 2 (ntt p).coeffs := by
  have hstart : HasResidues 1 (coeffsModQ p) 1 (2 * 2 ^ 7) p.coeffs := by
    intro b hb e _
    obtain rfl : b = 0 := by omega
    rw [residue_one, one_mul, Nat.mul_zero, Nat.zero_add, coeffsModQ]
  rw [coeffs_ntt, nttLayers, nttLens_eq_halvings]
  exact hstart.forward (by norm_num) p.size ((forall_mem_coeffs_iff p).mpr hp) (by norm_num)

/-- InvNTT of residues is R times the polynomial (R139). -/
theorem modQ_lane_invNtt {c : ZMod 3329} {f : Nat → ZMod 3329} {r : Poly256} (h : HasResidues c f 128 2 r.coeffs)
    (hr : ∀ i, Within 16383 (lane r i)) (i : Fin 256) : modQ (lane (invNtt r) i) = 65536 * c * f i := by
  have hlayers : HasResidues (2 ^ 7 * c) f 1 256 (invNttLayers r.coeffs) := by
    rw [invNttLayers, invNttLens_eq_doublings]
    exact HasResidues.inverse (n := 7) h (by norm_num) (by norm_num) r.size ((forall_mem_coeffs_iff r).mpr hr)
  have hi := hlayers 0 (by norm_num) i i.isLt
  rw [residue_one, Nat.mul_zero, Nat.zero_add] at hi
  have hfactor : Within 3328 Config.finalFactor ∧ modQ Config.finalFactor = 1441 := by decide +kernel
  have hscale : (2 : ZMod 3329) ^ 7 * 1441 * 169 = 65536 := by decide
  rw [invNtt, lane_mapLanes, lane_polyOfList (length_invNttLayers r), montMul_comm, modQ_montMul (hfactor.1.montFits _),
    hfactor.2, hi]
  linear_combination c * f i * hscale

/-- The statements write a residue as a sum over a list of integers. -/
theorem cast_sum_eq_residue (p : Poly256) (w : Int) (e : Nat) :
    ((((List.range 128).map fun j => (p.coeffs.getD (2 * j + e) 0).toInt * w ^ j).sum : Int) : ZMod 3329) =
      residue (coeffsModQ p) 128 2 (w : ZMod 3329) e := by
  change ((∑ j ∈ Finset.range 128, (p.coeffs.getD (2 * j + e) 0).toInt * w ^ j : Int) : ZMod 3329) = _
  push_cast
  rfl

/-- Settles O40: `ntt_hasResidues` at position `e` of the blocks 2b and 2b + 1. -/
theorem nttGivesTheResiduesModuloTheQuadraticFactors : Obligations.NttGivesTheResiduesModuloTheQuadraticFactors := by
  intro p hp b e he
  obtain ⟨hlow, hhigh⟩ := hasResidues_two_mul_iff (m := 64).mp (ntt_hasResidues hp) b.toNat b.isLt e he
  rw [one_mul] at hlow hhigh
  rw [blockRoot_even] at hlow
  rw [blockRoot_odd] at hhigh
  refine ⟨(ZMod.intCast_eq_intCast_iff' _ _ 3329).mp ?_, (ZMod.intCast_eq_intCast_iff' _ _ 3329).mp ?_⟩
  · rw [cast_sum_eq_residue, Int.cast_pow]
    exact hlow
  · rw [cast_sum_eq_residue, Int.cast_neg, Int.cast_pow]
    exact hhigh

/-- Settles O41: the outputs of MontMul by 1441, and `modQ_lane_invNtt` at the residues of NTT. -/
theorem invNttUndoesNttUpToTheMontgomeryFactor : Obligations.InvNttUndoesNttUpToTheMontgomeryFactor := by
  refine ⟨fun p i => ?_, fun p hp hbound i => ?_⟩
  · have h := montMulOfASmallOperand.1 Config.finalFactor (lane (polyOfList (invNttLayers p.coeffs)) i)
      (by decide +kernel) (by decide +kernel)
    rw [invNtt, lane_mapLanes, montMul_comm]
    exact h.2
  · have h := modQ_lane_invNtt (ntt_hasResidues hp) hbound i
    rw [emod_eq_zero_iff, Int.cast_mul]
    rw [coeffsModQ, ← lane_eq_getD, mul_one, mul_comm] at h
    exact h

end Sys2Proof.Machine
end

section
/-! PROOFS. The product in Zq[X]/(X^256 + 1) through the transforms (R139 to R141). -/

namespace Sys2Proof.Machine

/-! ### The product modulo X^256 + 1 and modulo its quadratic factors -/

/-- Coefficient `i` of the product of two polynomials of `n` coefficients modulo X^n + 1. -/
def negacyclic {S : Type} [CommRing S] (n : Nat) (f g : Nat → S) (i : Nat) : S :=
  ∑ j ∈ Finset.range n, f j * if j ≤ i then g (i - j) else -g (n + i - j)

/-- Multiplying by X^j moves every coefficient up by `j`, those past the end back with a sign. -/
theorem pow_mul_sum_of_pow_eq_neg_one {S : Type} [CommRing S] {n j : Nat} (hj : j ≤ n) {x : S} (hx : x ^ n = -1)
    (g : Nat → S) : x ^ j * ∑ k ∈ Finset.range n, g k * x ^ k =
      ∑ i ∈ Finset.range n, (if j ≤ i then g (i - j) else -g (n + i - j)) * x ^ i := by
  obtain ⟨d, rfl⟩ := Nat.exists_eq_add_of_le hj
  have hsplit : ∑ k ∈ Finset.range (j + d), g k * x ^ k =
      ∑ k ∈ Finset.range d, g k * x ^ k + ∑ k ∈ Finset.range j, g (d + k) * x ^ (d + k) := by
    rw [Nat.add_comm, Finset.sum_range_add]
  rw [hsplit, Finset.sum_range_add _ j d, add_comm, mul_add, Finset.mul_sum, Finset.mul_sum]
  congr 1
  · refine Finset.sum_congr rfl fun i hi => ?_
    have hlt := Finset.mem_range.mp hi
    rw [if_neg (by omega), show j + d + i - j = d + i by omega, pow_add]
    rw [pow_add] at hx
    linear_combination g (d + i) * x ^ i * hx
  · refine Finset.sum_congr rfl fun i _ => ?_
    rw [if_pos (by omega), Nat.add_sub_cancel_left, pow_add]
    ring

/-- Where x^n = -1, evaluation at x takes the product modulo X^n + 1 to the product. -/
theorem sum_negacyclic {S : Type} [CommRing S] {n : Nat} {x : S} (hx : x ^ n = -1) (f g : Nat → S) :
    ∑ i ∈ Finset.range n, negacyclic n f g i * x ^ i =
      (∑ j ∈ Finset.range n, f j * x ^ j) * ∑ k ∈ Finset.range n, g k * x ^ k := by
  rw [Finset.sum_mul]
  simp only [negacyclic, Finset.sum_mul]
  rw [Finset.sum_comm]
  refine Finset.sum_congr rfl fun j hj => ?_
  rw [mul_assoc, pow_mul_sum_of_pow_eq_neg_one (Finset.mem_range.mp hj).le hx, Finset.mul_sum]
  exact Finset.sum_congr rfl fun i _ => mul_assoc ..

/-- X in Zq[X]/(X^2 - w). -/
def quadraticX (w : ZMod 3329) : QuadraticAlgebra (ZMod 3329) w 0 := ⟨0, 1⟩

theorem quadraticX_sq (w : ZMod 3329) : quadraticX w ^ 2 = algebraMap (ZMod 3329) _ w := by
  rw [pow_two, quadraticX, QuadraticAlgebra.mk_mul_mk, QuadraticAlgebra.algebraMap_eq]
  simp

/-- A polynomial of 256 coefficients at X is its residue modulo X^2 - w. -/
theorem sum_quadraticX (w : ZMod 3329) (f : Nat → ZMod 3329) :
    ∑ i ∈ Finset.range 256, algebraMap (ZMod 3329) _ (f i) * quadraticX w ^ i =
      ⟨residue f 128 2 w 0, residue f 128 2 w 1⟩ := by
  have hmap (e : Nat) : residue (fun i => algebraMap (ZMod 3329) (QuadraticAlgebra (ZMod 3329) w 0) (f i)) 128 2
      (algebraMap (ZMod 3329) _ w) e = algebraMap (ZMod 3329) _ (residue f 128 2 w e) := by
    simp only [residue, map_sum, map_mul, map_pow]
  have hsplit := residue_split (fun i => algebraMap (ZMod 3329) _ (f i)) 128 1 (quadraticX w) 0
  have hsum : residue (fun i => algebraMap (ZMod 3329) _ (f i)) (2 * 128) 1 (quadraticX w) 0 =
      ∑ i ∈ Finset.range 256, algebraMap (ZMod 3329) _ (f i) * quadraticX w ^ i := by
    simp only [residue, Nat.one_mul, Nat.add_zero, Nat.reduceMul]
  rw [quadraticX_sq, hmap, hmap, hsum] at hsplit
  rw [hsplit]
  exact QuadraticAlgebra.ext (by simp [quadraticX]) (by simp [quadraticX])

/-- Modulo X^2 - w, a factor of X^256 + 1, the product is the base product of the residues. -/
theorem residue_negacyclic {w : ZMod 3329} (hw : w ^ 128 = -1) (f g : Nat → ZMod 3329) :
    residue (negacyclic 256 f g) 128 2 w 0 =
        residue f 128 2 w 0 * residue g 128 2 w 0 + w * (residue f 128 2 w 1 * residue g 128 2 w 1) ∧
      residue (negacyclic 256 f g) 128 2 w 1 =
        residue f 128 2 w 0 * residue g 128 2 w 1 + residue f 128 2 w 1 * residue g 128 2 w 0 := by
  have hx : quadraticX w ^ 256 = -1 := by
    rw [show 256 = 2 * 128 by norm_num, pow_mul, quadraticX_sq, ← map_pow, hw, map_neg, map_one]
  have hmap (i : Nat) : algebraMap (ZMod 3329) (QuadraticAlgebra (ZMod 3329) w 0) (negacyclic 256 f g i) =
      negacyclic 256 (fun j => algebraMap _ _ (f j)) (fun j => algebraMap _ _ (g j)) i := by
    simp only [negacyclic, map_sum, map_mul, apply_ite (algebraMap (ZMod 3329) _), map_neg]
  have h := sum_negacyclic hx (fun j => algebraMap _ _ (f j)) (fun j => algebraMap _ _ (g j))
  simp only [← hmap] at h
  rw [sum_quadraticX, sum_quadraticX, sum_quadraticX, QuadraticAlgebra.mk_mul_mk] at h
  exact ⟨(congrArg QuadraticAlgebra.re h).trans (by ring), (congrArg QuadraticAlgebra.im h).trans (by ring)⟩

/-! ### The base multiplication, pair by pair -/

/-- The factor of pair `n`: the entry of its four coefficients, negated for the second pair (R141). -/
def pairFactor (n : Nat) : Coeff :=
  if n % 2 = 0 then Config.zetas.getD (64 + n / 2) 0 else -Config.zetas.getD (64 + n / 2) 0

theorem modQ_neg {z : Coeff} (hz : Within 3328 z) : modQ (-z) = -modQ z := by
  obtain ⟨_, _⟩ := hz
  rw [← negCoeff_eq_neg, modQ, negCoeff, toInt_wrap16, Spec.wrap16_of_fits (by omega), Int.cast_neg, modQ]

/-- The factor of pair `n` is the root of its quadratic factor in Montgomery form. -/
theorem modQ_pairFactor {n : Nat} (hn : n < 128) : modQ (pairFactor n) = 65536 * blockRoot (128 + n) := by
  have hroot := modQ_zetas (k := 64 + n / 2) (by omega)
  rw [pairFactor, blockRoot, show (128 + n) % 2 = n % 2 by omega, show (128 + n) / 2 = 64 + n / 2 by omega]
  split
  · exact hroot
  · rw [modQ_neg (within_getD (by norm_num) zetas_within _), hroot, mul_neg]

/-- BaseMul runs BaseMul2 on each pair of coefficients (R141). -/
theorem baseMul_pair (a b : Poly256) {n : Nat} (hn : n < 128) :
    ((baseMul a b).coeffs.getD (2 * n) 0, (baseMul a b).coeffs.getD (2 * n + 1) 0) =
      baseMul2 (a.coeffs.getD (2 * n) 0) (a.coeffs.getD (2 * n + 1) 0) (b.coeffs.getD (2 * n) 0)
        (b.coeffs.getD (2 * n + 1) 0) (pairFactor n) := by
  rcases Nat.even_or_odd' n with ⟨i, rfl | rfl⟩
  · have h := (quad_baseMul a b (i := i) (by omega)).1
    rw [pairFactor, if_pos (by omega), show 2 * i / 2 = i by omega]
    rwa [← Nat.mul_assoc]
  · have h := (quad_baseMul a b (i := i) (by omega)).2
    rw [pairFactor, if_neg (by omega), show (2 * i + 1) / 2 = i by omega]
    rwa [show 2 * (2 * i + 1) = 4 * i + 2 by omega]

/-- Every product of two coefficients in the base multiplication fits (R140). -/
def ProductsFit (a b : Poly256) : Prop :=
  ∀ i j : Fin 256, i.val / 2 = j.val / 2 → MontFits (lane a i) (lane b j)

theorem ProductsFit.montFits {a b : Poly256} (h : ProductsFit a b) {i j : Nat} (hi : i < 256) (hj : j < 256)
    (hij : i / 2 = j / 2) : MontFits (a.coeffs.getD i 0) (b.coeffs.getD j 0) := by
  have hfit := h ⟨i, hi⟩ ⟨j, hj⟩ hij
  rwa [lane_eq_getD, lane_eq_getD] at hfit

/-- `baseMul2_spec` at pair `n` of BaseMul. -/
theorem baseMul_pair_spec {a b : Poly256} (h : ProductsFit a b) {n : Nat} (hn : n < 128) :
    let A := coeffsModQ a
    let B := coeffsModQ b
    (coeffsModQ (baseMul a b) (2 * n) = 169 *
        (A (2 * n) * B (2 * n) + blockRoot (128 + n) * (A (2 * n + 1) * B (2 * n + 1))) ∧
      coeffsModQ (baseMul a b) (2 * n + 1) = 169 * (A (2 * n) * B (2 * n + 1) + A (2 * n + 1) * B (2 * n))) ∧
    Within 6656 ((baseMul a b).coeffs.getD (2 * n) 0) ∧ Within 6656 ((baseMul a b).coeffs.getD (2 * n + 1) 0) := by
  have hspec := baseMul2_spec (z := pairFactor n) (h.montFits (i := 2 * n) (j := 2 * n) (by omega) (by omega) rfl)
    (h.montFits (i := 2 * n) (j := 2 * n + 1) (by omega) (by omega) (by omega))
    (h.montFits (i := 2 * n + 1) (j := 2 * n) (by omega) (by omega) (by omega))
    (h.montFits (i := 2 * n + 1) (j := 2 * n + 1) (by omega) (by omega) rfl)
  have hroot : modQ (pairFactor n) * 169 = blockRoot (128 + n) := by
    rw [modQ_pairFactor hn]
    linear_combination blockRoot (128 + n) * montgomery_inverse
  rw [← baseMul_pair a b hn, hroot] at hspec
  exact hspec

theorem baseMul_within {a b : Poly256} (h : ProductsFit a b) (i : Fin 256) : Within 6656 (lane (baseMul a b) i) := by
  obtain ⟨-, hlow, hhigh⟩ := baseMul_pair_spec h (n := i.val / 2) (by omega)
  rw [lane_eq_getD]
  rcases Nat.mod_two_eq_zero_or_one i.val with hi | hi
  · rwa [show 2 * (i.val / 2) = i.val by omega] at hlow
  · rwa [show 2 * (i.val / 2) + 1 = i.val by omega] at hhigh

/-- The base multiplication multiplies residues modulo the quadratic factors, with one factor R^-1. -/
theorem HasResidues.baseMul {f g : Nat → ZMod 3329} {a b : Poly256} (ha : HasResidues 1 f 128 2 a.coeffs)
    (hb : HasResidues 1 g 128 2 b.coeffs) (h : ProductsFit a b) :
    HasResidues 169 (negacyclic 256 f g) 128 2 (baseMul a b).coeffs := by
  intro n hn e he
  obtain ⟨⟨hlow, hhigh⟩, -⟩ := baseMul_pair_spec h hn
  obtain ⟨hlow', hhigh'⟩ := residue_negacyclic (blockRoot_leaf (n := 128 + n) (by omega) (by omega)) f g
  have ha' (e : Nat) (he : e < 2) : coeffsModQ a (2 * n + e) = residue f 128 2 (blockRoot (128 + n)) e :=
    (ha n hn e he).trans (one_mul _)
  have hb' (e : Nat) (he : e < 2) : coeffsModQ b (2 * n + e) = residue g 128 2 (blockRoot (128 + n)) e :=
    (hb n hn e he).trans (one_mul _)
  have ha0 := ha' 0 (by norm_num)
  have hb0 := hb' 0 (by norm_num)
  rw [Nat.add_zero] at ha0 hb0
  rw [ha0, hb0, ha' 1 (by norm_num), hb' 1 (by norm_num)] at hlow hhigh
  obtain rfl | rfl : e = 0 ∨ e = 1 := by omega
  · rw [hlow']
    exact hlow
  · rw [hhigh']
    exact hhigh

theorem cast_ringProduct (a b : Poly256) (i : Nat) :
    (Spec.ringProduct a b i : ZMod 3329) = negacyclic 256 (coeffsModQ a) (coeffsModQ b) i := by
  change ((∑ j ∈ Finset.range 256, (a.coeffs.getD j 0).toInt *
    if j ≤ i then (b.coeffs.getD (i - j) 0).toInt else -(b.coeffs.getD (256 + i - j) 0).toInt : Int) : ZMod 3329) = _
  push_cast
  rfl

/-- Settles O60: transform, multiply residues, transform back; R from InvNTT against R^-1 from BaseMul. -/
theorem invNttOfBaseMulIsTheRingProduct : Obligations.InvNttOfBaseMulIsTheRingProduct := by
  intro a b ha hb hfit i
  have h := modQ_lane_invNtt ((ntt_hasResidues ha).baseMul (ntt_hasResidues hb) hfit)
    (fun j => (baseMul_within hfit j).mono (by norm_num)) i
  rw [montgomery_inverse, one_mul, ← cast_ringProduct] at h
  exact (emod_eq_zero_iff _ _).mpr h

end Sys2Proof.Machine
end

section
/-! PROOFS. Polynomial arithmetic (42_poly.md): what the five lane-wise commands write to each coefficient. -/

namespace Sys2Proof.Machine

/-- Lane `i` of a register written by a lane-wise operation on one register (R160). -/
theorem lane_getP_setP_mapLanes (s : State) (d : PReg) (f : Coeff → Coeff) (p : Poly256) (i : Fin 256) :
    lane ((s.setP d (mapLanes f p)).getP d) i = f (lane p i) := by
  rw [State.getP_setP_same, lane_mapLanes]

/-- Lane `i` of a register written by a lane-wise operation on two registers (R160). -/
theorem lane_getP_setP_zipLanes (s : State) (d : PReg) (f : Coeff → Coeff → Coeff) (p r : Poly256) (i : Fin 256) :
    lane ((s.setP d (zipLanes f p r)).getP d) i = f (lane p i) (lane r i) := by
  rw [State.getP_setP_same, lane_zipLanes]

/-- Settles O34: the lanes by `lane_getP_setP_zipLanes`, the frame by `onlyPolys_setP`. -/
theorem polyAddAndSubLanes : Obligations.PolyAddAndSubLanes := by
  refine fun d a b s => ⟨⟨rfl, rfl, _, rfl, fun i => ?_, onlyPolys_setP s d _⟩,
    ⟨rfl, rfl, _, rfl, fun i => ?_, onlyPolys_setP s d _⟩⟩
  · rw [lane_getP_setP_zipLanes, toInt_addCoeff]
  · rw [lane_getP_setP_zipLanes, toInt_subCoeff]

/-- MontMul by 1353 = R^2 mod q puts a coefficient into the Montgomery domain (R166): 169 is R^-1 mod q, and
169*1353 is congruent to R. -/
theorem montMul_toMontF_spec (c : Coeff) :
    ((montMul c Config.toMontF).toInt - c.toInt * 65536) % 3329 = 0 ∧
      -3329 < (montMul c Config.toMontF).toInt ∧ (montMul c Config.toMontF).toInt < 3329 := by
  obtain ⟨hcongr, hrange⟩ := montMulOfASmallOperand.1 Config.toMontF c (by decide) (by decide)
  have hfactor : Config.toMontF.toInt = 1353 := rfl
  rw [hfactor] at hcongr
  rw [montMul_comm c]
  exact ⟨by omega, hrange⟩

/-- Settles O35: the lanes by `lane_getP_setP_mapLanes`, each field function as its integer formula, and
`montMul_toMontF_spec` for PTOMONT. -/
theorem polyReduceCsubqToMontLanes : Obligations.PolyReduceCsubqToMontLanes := by
  refine fun d a s => ⟨⟨rfl, rfl, _, rfl, fun i => ?_, onlyPolys_setP s d _⟩,
    ⟨rfl, rfl, _, rfl, fun i => ?_, onlyPolys_setP s d _⟩, ⟨rfl, rfl, _, rfl, fun i => ?_, onlyPolys_setP s d _⟩⟩
  · rw [lane_getP_setP_mapLanes, toInt_barrettReduce]
  · rw [lane_getP_setP_mapLanes, toInt_condSubQ]
  · rw [lane_getP_setP_mapLanes]
    exact ⟨toInt_montMul _ _, montMul_toMontF_spec _⟩

end Sys2Proof.Machine
end

section
/-! PROOFS. Polynomial vectors (43_polyvec.md): what the seven vector commands write to each component. -/

namespace Sys2Proof.Machine

/-! ### Componentwise commands (R180) -/

/-- A command that writes a vector changes nothing else (R33). -/
theorem onlyPolys_setVec (s : State) {d : PReg} {ps : List Poly256} (h : d.toNat + ps.length ≤ 16) :
    onlyPolys d ps.length s (s.setVec d ps) :=
  ⟨fun n hn => State.getP_setVec_outside ps s d n h hn, fun _ => State.getS_setVec s d ps _,
    fun x => by rw [State.setVec_buf], sameControl_setVec s d ps, State.setVec_ctr ps s d⟩

/-- A command on vectors whose checks pass and that writes K polynomials: each at its register, and nothing else changed. -/
theorem finish_setVec_completes {s : State} {bases : List PReg} {d : PReg} {ps : List Poly256}
    (hc : checkVectors s bases = none) (hd : d ∈ bases) (hl : ps.length = s.k.toNat) :
    ∃ t, finish (checkVectors s bases) s (s.setVec d ps) = .next t ∧
      (∀ j (hj : j < ps.length), t.getP (d + BitVec.ofNat 4 j) = ps[j]) ∧ onlyPolys d s.k.toNat s t := by
  have hfit : d.toNat + ps.length ≤ 16 := hl ▸ ((checkVectors_eq_none_iff s bases).mp hc).2 d hd
  exact ⟨s.setVec d ps, by rw [hc, finish_none], fun j hj => State.getP_setVec_inside ps s d j hj hfit,
    hl ▸ onlyPolys_setVec s hfit⟩

/-- A componentwise command on one source vector whose checks pass. -/
theorem vectorMap_completes (f : Poly256 → Poly256) {d a : PReg} {s : State}
    (hk : s.k.toNat = 2 ∨ s.k.toNat = 3 ∨ s.k.toNat = 4) (hd : d.toNat + s.k.toNat ≤ 16) (ha : a.toNat + s.k.toNat ≤ 16) :
    ∃ t, vectorMap f d a s = .next t ∧
      (∀ j < s.k.toNat, t.getP (d + BitVec.ofNat 4 j) = f (s.getP (a + BitVec.ofNat 4 j))) ∧
      onlyPolys d s.k.toNat s t := by
  have hc : checkVectors s [d, a] = none := (checkVectors_eq_none_iff _ _).mpr ⟨hk, by simp [hd, ha]⟩
  obtain ⟨t, ht, hread, hframe⟩ := finish_setVec_completes (ps := (s.getVec a).map f) hc List.mem_cons_self (by simp)
  exact ⟨t, ht, fun j hj => by rw [hread j (by simpa using hj), List.getElem_map, getElem_getVec], hframe⟩

/-- A componentwise command on two source vectors whose checks pass. -/
theorem vectorZip_completes (f : Poly256 → Poly256 → Poly256) {d a b : PReg} {s : State}
    (hk : s.k.toNat = 2 ∨ s.k.toNat = 3 ∨ s.k.toNat = 4) (hd : d.toNat + s.k.toNat ≤ 16) (ha : a.toNat + s.k.toNat ≤ 16)
    (hb : b.toNat + s.k.toNat ≤ 16) :
    ∃ t, vectorZip f d a b s = .next t ∧
      (∀ j < s.k.toNat, t.getP (d + BitVec.ofNat 4 j) =
        f (s.getP (a + BitVec.ofNat 4 j)) (s.getP (b + BitVec.ofNat 4 j))) ∧
      onlyPolys d s.k.toNat s t := by
  have hc : checkVectors s [d, a, b] = none := (checkVectors_eq_none_iff _ _).mpr ⟨hk, by simp [hd, ha, hb]⟩
  obtain ⟨t, ht, hread, hframe⟩ :=
    finish_setVec_completes (ps := List.zipWith f (s.getVec a) (s.getVec b)) hc List.mem_cons_self (by simp)
  exact ⟨t, ht, fun j hj => by
    rw [hread j (by simpa using hj), List.getElem_zipWith, getElem_getVec, getElem_getVec], hframe⟩

/-- A componentwise command that applies `f` to every coefficient, as the integer function `g`. -/
theorem vectorMap_mapLanes_completes {f : Coeff → Coeff} {g : Int → Int} (hfg : ∀ c, (f c).toInt = g c.toInt)
    {d a : PReg} {s : State} (hk : s.k.toNat = 2 ∨ s.k.toNat = 3 ∨ s.k.toNat = 4) (hd : d.toNat + s.k.toNat ≤ 16)
    (ha : a.toNat + s.k.toNat ≤ 16) :
    ∃ t, vectorMap (mapLanes f) d a s = .next t ∧
      (∀ j < s.k.toNat, ∀ i, (lane (t.getP (d + BitVec.ofNat 4 j)) i).toInt =
        g (lane (s.getP (a + BitVec.ofNat 4 j)) i).toInt) ∧
      onlyPolys d s.k.toNat s t := by
  obtain ⟨t, ht, hread, hframe⟩ := vectorMap_completes (mapLanes f) hk hd ha
  exact ⟨t, ht, fun j hj i => by rw [hread j hj, lane_mapLanes, hfg], hframe⟩

/-- A componentwise command that applies `f` to every pair of coefficients, as the integer function `g`. -/
theorem vectorZip_zipLanes_completes {f : Coeff → Coeff → Coeff} {g : Int → Int → Int}
    (hfg : ∀ x y, (f x y).toInt = g x.toInt y.toInt) {d a b : PReg} {s : State}
    (hk : s.k.toNat = 2 ∨ s.k.toNat = 3 ∨ s.k.toNat = 4) (hd : d.toNat + s.k.toNat ≤ 16) (ha : a.toNat + s.k.toNat ≤ 16)
    (hb : b.toNat + s.k.toNat ≤ 16) :
    ∃ t, vectorZip (zipLanes f) d a b s = .next t ∧
      (∀ j < s.k.toNat, ∀ i, (lane (t.getP (d + BitVec.ofNat 4 j)) i).toInt =
        g (lane (s.getP (a + BitVec.ofNat 4 j)) i).toInt (lane (s.getP (b + BitVec.ofNat 4 j)) i).toInt) ∧
      onlyPolys d s.k.toNat s t := by
  obtain ⟨t, ht, hread, hframe⟩ := vectorZip_completes (zipLanes f) hk hd ha hb
  exact ⟨t, ht, fun j hj i => by rw [hread j hj, lane_zipLanes, hfg], hframe⟩

/-- Settles O44: `vectorZip_zipLanes_completes` at the sum and at the difference. -/
theorem vectorAddAndSubComponents : Obligations.VectorAddAndSubComponents := fun _ _ _ _ hk hd ha hb =>
  ⟨⟨rfl, rfl, vectorZip_zipLanes_completes (g := fun x y => Spec.wrap16 (x + y)) toInt_addCoeff hk hd ha hb⟩,
    ⟨rfl, rfl, vectorZip_zipLanes_completes (g := fun x y => Spec.wrap16 (x - y)) toInt_subCoeff hk hd ha hb⟩⟩

/-- Settles O45: `vectorMap_mapLanes_completes` for the two field functions, `vectorMap_completes` for the two
transforms. -/
theorem vectorMapComponents : Obligations.VectorMapComponents := fun _ _ _ hk hd ha =>
  ⟨⟨rfl, rfl, vectorMap_mapLanes_completes toInt_barrettReduce hk hd ha⟩,
    ⟨rfl, rfl, vectorMap_mapLanes_completes toInt_condSubQ hk hd ha⟩,
    ⟨rfl, rfl, vectorMap_completes ntt hk hd ha⟩, ⟨rfl, rfl, vectorMap_completes invNtt hk hd ha⟩⟩

/-! ### VACC (R188) -/

/-- A wrap before an addition does not show after the wrap of the sum. -/
theorem Spec.wrap16_wrap16_add (v w : Int) : Spec.wrap16 (Spec.wrap16 v + w) = Spec.wrap16 (v + w) :=
  Int.bmod_add_bmod ..

/-- A lane of a running int16 sum is the int16 of the exact sum. -/
theorem toInt_lane_foldl_addCoeff (ts : List Poly256) (t : Poly256) (i : Fin 256) :
    (lane (ts.foldl (zipLanes addCoeff) t) i).toInt =
      Spec.wrap16 ((lane t i).toInt + (ts.map fun u => (lane u i).toInt).sum) := by
  induction ts generalizing t with
  | nil => simp [Spec.wrap16_of_fits (Coeff.toInt_range (lane t i))]
  | cons u us ih =>
    rw [List.foldl_cons, ih, lane_zipLanes, toInt_addCoeff, Spec.wrap16_wrap16_add, List.map_cons, List.sum_cons,
      Int.add_assoc]

/-- A lane of the sum of R188. -/
theorem toInt_lane_accumulate {ts : List Poly256} (h : ts ≠ []) (i : Fin 256) :
    (lane (accumulate ts) i).toInt = Spec.wrap16 (ts.map fun t => (lane t i).toInt).sum := by
  cases ts with
  | nil => exact absurd rfl h
  | cons t ts => rw [accumulate, toInt_lane_foldl_addCoeff, List.map_cons, List.sum_cons]

/-- Two source vectors combined component by component, as a list over the component numbers. -/
theorem zipWith_getVec (f : Poly256 → Poly256 → Poly256) (s : State) (a b : PReg) :
    List.zipWith f (s.getVec a) (s.getVec b) =
      (List.range s.k.toNat).map fun j => f (s.getP (a + BitVec.ofNat 4 j)) (s.getP (b + BitVec.ofNat 4 j)) :=
  List.ext_getElem (by simp) fun j _ _ => by simp [getElem_getVec]

/-- A lane of the sum of the K base products (R188). -/
theorem toInt_lane_accumulate_baseMul {s : State} (hk : s.k.toNat ≠ 0) (a b : PReg) (i : Fin 256) :
    (lane (accumulate (List.zipWith baseMul (s.getVec a) (s.getVec b))) i).toInt =
      Spec.wrap16 ((List.range s.k.toNat).map fun j =>
        (lane (baseMul (s.getP (a + BitVec.ofNat 4 j)) (s.getP (b + BitVec.ofNat 4 j))) i).toInt).sum := by
  rw [zipWith_getVec, toInt_lane_accumulate (by simpa using hk), List.map_map]
  rfl

/-- VACC where its checks pass. -/
theorem execVacc_completes (d : PReg) {a b : PReg} {s : State} (hk : s.k.toNat = 2 ∨ s.k.toNat = 3 ∨ s.k.toNat = 4)
    (ha : a.toNat + s.k.toNat ≤ 16) (hb : b.toNat + s.k.toNat ≤ 16) :
    execVacc d a b s = .next (s.setP d
      (mapLanes barrettReduce (accumulate (List.zipWith baseMul (s.getVec a) (s.getVec b))))) := by
  have hc : checkVectors s [a, b] = none := (checkVectors_eq_none_iff _ _).mpr ⟨hk, by simp [ha, hb]⟩
  rw [execVacc, hc, finish_none]

/-- Settles O46: the sum by `toInt_lane_accumulate_baseMul`, its reduction and range by the integer formula of
BarrettReduce. -/
theorem vaccAccumulatesBaseProducts : Obligations.VaccAccumulatesBaseProducts := by
  refine fun d a b s hk ha hb => ⟨rfl, rfl, _, execVacc_completes d hk ha hb, fun i => ?_, fun i => ?_,
    onlyPolys_setP s d _⟩
  · rw [lane_getP_setP_mapLanes, toInt_barrettReduce, toInt_lane_accumulate_baseMul (by omega)]
  · rw [lane_getP_setP_mapLanes, toInt_barrettReduce]
    exact Spec.barrett_range (Coeff.toInt_range _)

end Sys2Proof.Machine
end

section
/-! PROOFS. The codec (44_codec.md), its pure functions: packing, compression, the byte formulas of polynomials, and
message bits. -/

namespace Sys2Proof.Machine

/-! ### Packing (R200) -/

theorem packNat_lt {d : Nat} {ts : List Nat} (h : ∀ t ∈ ts, t < 2 ^ d) : packNat d ts < 2 ^ (d * ts.length) := by
  induction ts with
  | nil => simp [packNat]
  | cons t ts ih =>
    have ht := h t List.mem_cons_self
    have hts := ih fun u hu => h u (List.mem_cons_of_mem t hu)
    calc packNat d (t :: ts) < 2 ^ d * (packNat d ts + 1) := by rw [packNat, Nat.mul_succ]; omega
      _ ≤ 2 ^ d * 2 ^ (d * ts.length) := Nat.mul_le_mul_left _ hts
      _ = 2 ^ (d * (t :: ts).length) := by rw [← Nat.pow_add, List.length_cons, Nat.mul_succ, Nat.add_comm]

theorem unpackNat_packNat {d : Nat} {ts : List Nat} (h : ∀ t ∈ ts, t < 2 ^ d) :
    unpackNat d ts.length (packNat d ts) = ts := by
  induction ts with
  | nil => rfl
  | cons t ts ih =>
    have ht := h t List.mem_cons_self
    have hts := ih fun u hu => h u (List.mem_cons_of_mem t hu)
    rw [packNat, List.length_cons, unpackNat, Nat.add_mul_mod_self_left, Nat.mod_eq_of_lt ht,
      Nat.add_mul_div_left _ _ (Nat.two_pow_pos d), Nat.div_eq_of_lt ht, Nat.zero_add, hts]

theorem packNat_unpackNat (d m w : Nat) : packNat d (unpackNat d m w) = w % 2 ^ (d * m) := by
  induction m generalizing w with
  | zero => simp [unpackNat, packNat, Nat.mod_one]
  | succ m ih => rw [unpackNat, packNat, ih, Nat.mul_succ, Nat.pow_add, Nat.mul_comm (2 ^ (d * m)), Nat.mod_mul]

theorem natToBytes_bytesToNat (bs : List Byte) : natToBytes bs.length (bytesToNat bs) = bs := by
  induction bs with
  | nil => rfl
  | cons b bs ih =>
    have hb := b.isLt
    have hdiv : (b.toNat + 256 * bytesToNat bs) / 256 = bytesToNat bs := by omega
    have hlow : BitVec.ofNat 8 (b.toNat + 256 * bytesToNat bs) = b :=
      BitVec.eq_of_toNat_eq (by rw [BitVec.toNat_ofNat]; omega)
    rw [List.length_cons, bytesToNat, natToBytes, hdiv, hlow, ih]

/-- The number of the packed bytes is the packed number: no bit is lost when the stream fills whole bytes. -/
theorem bytesToNat_pack {d : Nat} {ts : List Nat} (h : ∀ t ∈ ts, t < 2 ^ d) (hbytes : ts.length * d % 8 = 0) :
    bytesToNat (pack d ts) = packNat d ts := by
  have hbits : 8 * (ts.length * d / 8) = d * ts.length := by
    rw [Nat.mul_div_cancel' (Nat.dvd_of_mod_eq_zero hbytes), Nat.mul_comm]
  have hwidth : 256 ^ (ts.length * d / 8) = 2 ^ (d * ts.length) := by
    rw [← hbits, Nat.pow_mul]
  rw [pack, bytesToNat_natToBytes, hwidth, Nat.mod_eq_of_lt (packNat_lt h)]

theorem unpack_pack {d : Nat} {ts : List Nat} (h : ∀ t ∈ ts, t < 2 ^ d) (hbytes : ts.length * d % 8 = 0) :
    unpack d (pack d ts) ts.length = ts := by
  rw [unpack, bytesToNat_pack h hbytes, unpackNat_packNat h]

theorem bytesToNat_pack_div_mod {d : Nat} {ts : List Nat} (h : ∀ t ∈ ts, t < 2 ^ d) (hbytes : ts.length * d % 8 = 0)
    (i : Nat) (hi : i < ts.length) : bytesToNat (pack d ts) / 2 ^ (d * i) % 2 ^ d = ts[i] := by
  rw [← getElem_unpack d (pack d ts) ts.length i (by simpa using hi)]
  simp only [unpack_pack h hbytes]

theorem lt_of_mem_unpack {d m t : Nat} {bs : List Byte} (h : t ∈ unpack d bs m) : t < 2 ^ d := by
  obtain ⟨i, hi, rfl⟩ := List.getElem_of_mem h
  rw [getElem_unpack]
  exact Nat.mod_lt _ (Nat.two_pow_pos d)

/-- Packing the values unpacked from a byte string gives it back, when they cover all of its bits. -/
theorem pack_unpack {d m : Nat} {bs : List Byte} (h : m * d = 8 * bs.length) : pack d (unpack d bs m) = bs := by
  have hwidth : 2 ^ (d * m) = 256 ^ bs.length := by rw [Nat.mul_comm, h, Nat.pow_mul]
  have hlen : m * d / 8 = bs.length := by omega
  rw [pack, length_unpack, hlen, unpack, packNat_unpackNat, hwidth, Nat.mod_eq_of_lt (bytesToNat_lt bs),
    natToBytes_bytesToNat]

/-- Settles O47: `bytesToNat_pack_div_mod` and `unpack_pack`. -/
theorem packPlacesEachValueAndUnpackInverts : Obligations.PackPlacesEachValueAndUnpackInverts :=
  fun d ts h hbytes => ⟨length_pack d ts, bytesToNat_pack_div_mod h hbytes, unpack_pack h hbytes⟩

/-! ### Compression (R201, R202) -/

theorem compress_lt (d : Nat) (c : Coeff) : compress d c < 2 ^ d := Nat.mod_lt _ (Nat.two_pow_pos d)

theorem toInt_eq_toNat_of_nonneg {c : Coeff} (h : 0 ≤ c.toInt) : c.toInt = c.toNat := by
  have hc := c.isLt
  rw [BitVec.toInt_eq_toNat_cond] at *
  split at h <;> omega

/-- On [0, 2q) CondSubQ is the reduction mod q. -/
theorem toNat_condSubQ_of_lt {c : Coeff} (h : c.toNat < 6658) : (condSubQ c).toNat = c.toNat % 3329 := by
  have hint : c.toInt = c.toNat := BitVec.toInt_eq_toNat_of_lt (by omega)
  obtain ⟨-, -, hrange, -⟩ := condSubQOverAllInputs c
  have hnat := toInt_eq_toNat_of_nonneg (hrange (by omega) (by omega)).1
  rw [toInt_condSubQ, Spec.condSubQ, hint] at hnat
  split at hnat <;> omega

theorem compress_of_lt (d : Nat) {c : Coeff} (h : c.toNat < 6658) :
    compress d c = (c.toNat % 3329 * 2 ^ d + 1664) / 3329 % 2 ^ d := by
  rw [compress, u16, toNat_condSubQ_of_lt h]

/-- Decompress_d stays below q for d up to 11: 2^(d-1) is below q. -/
theorem decompress_formula_lt {d t : Nat} (hpos : 1 ≤ d) (hle : d ≤ 11) (ht : t < 2 ^ d) :
    (t * 3329 + 2 ^ (d - 1)) / 2 ^ d < 3329 := by
  have hhalf : 2 ^ (d - 1) ≤ 2 ^ 10 := Nat.pow_le_pow_right (by decide) (by omega)
  rw [Nat.div_lt_iff_lt_mul (Nat.two_pow_pos d)]
  omega

theorem toNat_decompress {d t : Nat} (hpos : 1 ≤ d) (hle : d ≤ 11) (ht : t < 2 ^ d) :
    (decompress d t).toNat = (t * 3329 + 2 ^ (d - 1)) / 2 ^ d := by
  have hlt := decompress_formula_lt hpos hle ht
  rw [decompress, BitVec.toNat_ofNat, Nat.mod_eq_of_lt (lt_trans hlt (by decide))]

/-- Settles O48: the rounding formulas hold for every d, their ranges for d from 1 to 11. -/
theorem compressAndDecompressFormulas : Obligations.CompressAndDecompressFormulas := by
  intro d hd
  have hpos : 1 ≤ d := by omega
  have hle : d ≤ 11 := by omega
  refine ⟨fun c => ⟨rfl, compress_lt d c⟩, fun c => compress_of_lt d, fun t ht => ?_⟩
  rw [toNat_decompress hpos hle ht]
  exact ⟨rfl, decompress_formula_lt hpos hle ht⟩

/-- Rounding down depends on t mod n only, up to multiples of q. -/
theorem rounding_periodic {n : Nat} (hpos : 0 < n) (h t : Nat) :
    (t * 3329 + h) / n = (t % n * 3329 + h) / n + 3329 * (t / n) := by
  have hsplit : t * 3329 + h = t % n * 3329 + h + n * (3329 * (t / n)) := by
    conv_lhs => rw [← Nat.div_add_mod t n]
    ring
  rw [hsplit, Nat.add_mul_div_left _ _ hpos]

/-- Rounding x to the multiples of q/n and back, with n = 2h, moves n*x by at most 1664 + h, mod n*q: the two divisions
round by at most 1664 of 3329 and h of n. -/
theorem rounding_error {n h : Nat} (hn : n = 2 * h) (hpos : 0 < h) (x : Nat) :
    ∃ k, n * (((x * n + 1664) / 3329 % n * 3329 + h) / n + 3329 * k) ≤ n * x + (1664 + h) ∧
      n * x ≤ n * (((x * n + 1664) / 3329 % n * 3329 + h) / n + 3329 * k) + (1664 + h) := by
  have hn' : 0 < n := by omega
  refine ⟨(x * n + 1664) / 3329 / n, ?_⟩
  have hdiv := Nat.div_add_mod ((x * n + 1664) / 3329 * 3329 + h) n
  have hrem := Nat.mod_lt ((x * n + 1664) / 3329 * 3329 + h) hn'
  rw [← rounding_periodic hn', Nat.mul_comm x n] at *
  omega

/-- Decompress_d after Compress_d is off by e with 2^d * |e| at most 1664 + 2^(d-1), mod q (R223, P5). -/
theorem decompress_compress_close {d : Nat} (hpos : 1 ≤ d) (hle : d ≤ 11) {c : Coeff} (hc : c.toNat < 3329) :
    ∃ e : Int, 2 ^ d * e ≤ 1664 + 2 ^ (d - 1) ∧ -(1664 + 2 ^ (d - 1)) ≤ 2 ^ d * e ∧
      ((decompress d (compress d c)).toInt - c.toInt - e) % 3329 = 0 := by
  have hvalue := toNat_decompress hpos hle (compress_lt d c)
  have hlt := hvalue.trans_lt (decompress_formula_lt hpos hle (compress_lt d c))
  have hcompress : compress d c = (c.toNat * 2 ^ d + 1664) / 3329 % 2 ^ d := by
    rw [compress_of_lt d (by omega), Nat.mod_eq_of_lt hc]
  have hpow : 2 ^ d = 2 * 2 ^ (d - 1) := by rw [← Nat.pow_succ', Nat.succ_eq_add_one, Nat.sub_add_cancel hpos]
  obtain ⟨k, hup, hdown⟩ := rounding_error hpow (Nat.two_pow_pos _) c.toNat
  rw [← hcompress, ← hvalue] at hup hdown
  refine ⟨(decompress d (compress d c)).toNat + 3329 * k - c.toNat, ?_, ?_, ?_⟩
  · zify at hup
    linarith
  · zify at hdown
    linarith
  · rw [BitVec.toInt_eq_toNat_of_lt (by omega), BitVec.toInt_eq_toNat_of_lt (by omega)]
    omega

/-- Settles O52: `decompress_compress_close` at the five widths, the bound divided by 2^d. -/
theorem decompressOfCompressIsClose : Obligations.DecompressOfCompressIsClose := by
  intro c hc d bound hd
  simp only [List.mem_cons, Prod.mk.injEq, List.not_mem_nil, or_false] at hd
  have hwidth : 1 ≤ d ∧ d ≤ 11 := by omega
  obtain ⟨e, hup, hdown, hcongr⟩ := decompress_compress_close hwidth.1 hwidth.2 hc
  rcases hd with ⟨rfl, rfl⟩ | ⟨rfl, rfl⟩ | ⟨rfl, rfl⟩ | ⟨rfl, rfl⟩ | ⟨rfl, rfl⟩ <;>
    exact ⟨e, by omega, by omega, hcongr⟩

/-! ### Groups of coefficients and of bytes (R203, R204) -/

theorem drop_toBytesList (i : Nat) (ps : List Coeff) :
    (toBytesList ps).drop (3 * i) = toBytesList (ps.drop (2 * i)) := by
  induction i generalizing ps with
  | zero => rfl
  | succ i ih =>
    match ps with
    | [] | [_] => simp [toBytesList, Nat.mul_succ]
    | p0 :: p1 :: ps => exact ih ps

theorem drop_fromBytesList (i : Nat) (bs : List Byte) :
    (fromBytesList bs).drop (2 * i) = fromBytesList (bs.drop (3 * i)) := by
  induction i generalizing bs with
  | zero => rfl
  | succ i ih =>
    match bs with
    | [] | [_] | [_, _] => simp [fromBytesList, Nat.mul_succ]
    | b0 :: b1 :: b2 :: bs => exact ih bs

theorem drop_eq_getD_cons {α : Type} {l : List α} {n : Nat} (h : n < l.length) (a : α) :
    l.drop n = l.getD n a :: l.drop (n + 1) := by
  rw [List.drop_eq_getElem_cons h, List.getD_eq_getElem l a h]

theorem getD_add_eq_getD_drop {α : Type} (l : List α) (n j : Nat) (a : α) : l.getD (n + j) a = (l.drop n).getD j a := by
  rw [List.getD_eq_getElem?_getD, List.getD_eq_getElem?_getD, List.getElem?_drop]

/-- Bits joined above k lower ones are added to them. -/
theorem or_mul_two_pow_of_lt {a k : Nat} (h : a < 2 ^ k) (b : Nat) : a ||| b * 2 ^ k = a + b * 2 ^ k := by
  rw [Nat.or_comm, ← Nat.shiftLeft_eq, shiftLeft_or_of_lt h, Nat.shiftLeft_eq, Nat.add_comm]

/-- A mask of k ones keeps the value mod 2^k. -/
theorem toNat_and_mask {n : Nat} (c m : BitVec n) {k : Nat} (hm : m.toNat = 2 ^ k - 1) :
    (c &&& m).toNat = c.toNat % 2 ^ k := by
  rw [BitVec.toNat_and, hm, Nat.and_two_pow_sub_one_eq_mod]

/-- Byte 0 of the bytes of a pair of coefficients (R203). -/
theorem toNat_pairByte0 (c : Coeff) : ((c &&& 0xFF).setWidth 8).toNat = c.toNat % 256 := by
  rw [BitVec.toNat_setWidth, toNat_and_mask c 0xFF (k := 8) rfl, Nat.mod_mod]
  rfl

/-- Byte 1 of the bytes of a pair of coefficients (R203). -/
theorem toNat_pairByte1 (c0 c1 : Coeff) : (((c0 >>> 8) ||| ((c1 &&& 0x0F) <<< 4)).setWidth 8).toNat =
    (c0.toNat / 256 ||| c1.toNat % 16 * 16) % 256 := by
  have hfits : c1.toNat % 2 ^ 4 * 2 ^ 4 < 2 ^ 16 := by omega
  rw [BitVec.toNat_setWidth, BitVec.toNat_or, BitVec.toNat_ushiftRight, BitVec.toNat_shiftLeft,
    toNat_and_mask c1 0x0F (k := 4) rfl, Nat.shiftRight_eq_div_pow, Nat.shiftLeft_eq, Nat.mod_eq_of_lt hfits]
  rfl

/-- Byte 2 of the bytes of a pair of coefficients (R203). -/
theorem toNat_pairByte2 (c : Coeff) : ((c >>> 4).setWidth 8).toNat = c.toNat / 16 % 256 := by
  rw [BitVec.toNat_setWidth, BitVec.toNat_ushiftRight, Nat.shiftRight_eq_div_pow]

theorem toNat_tripleLow (b0 b1 : Byte) : (tripleLow b0 b1).toNat = b0.toNat + 256 * (b1.toNat % 16) := by
  have hfits : b1.toNat % 2 ^ 4 * 2 ^ 8 < 2 ^ 16 := by omega
  have hwide : ((b1 &&& 0x0F).setWidth 16).toNat = b1.toNat % 2 ^ 4 := by
    rw [BitVec.toNat_setWidth_of_le (by decide), toNat_and_mask b1 0x0F (k := 4) rfl]
  rw [tripleLow, BitVec.toNat_or, BitVec.toNat_shiftLeft, hwide, BitVec.toNat_setWidth_of_le (by decide),
    Nat.shiftLeft_eq, Nat.mod_eq_of_lt hfits, or_mul_two_pow_of_lt b0.isLt]
  omega

theorem toNat_tripleHigh (b1 b2 : Byte) : (tripleHigh b1 b2).toNat = b1.toNat / 16 + 16 * b2.toNat := by
  have h1 := b1.isLt
  have h2 := b2.isLt
  have hfits : b2.toNat * 2 ^ 4 < 2 ^ 16 := by omega
  have hlow : b1.toNat / 2 ^ 4 < 2 ^ 4 := by omega
  rw [tripleHigh, BitVec.toNat_or, BitVec.toNat_shiftLeft, BitVec.toNat_setWidth_of_le (by decide),
    BitVec.toNat_setWidth_of_le (by decide), BitVec.toNat_ushiftRight, Nat.shiftRight_eq_div_pow,
    Nat.shiftLeft_eq, Nat.mod_eq_of_lt hfits, or_mul_two_pow_of_lt hlow]
  omega

/-- The bytes of ToBytes from byte 3i on are those of the pair i and of the pairs after it. -/
theorem drop_toBytes (p : Poly256) {i : Nat} (hi : i < 128) :
    (toBytes p).drop (3 * i) =
      toBytesList (p.coeffs.getD (2 * i) 0 :: p.coeffs.getD (2 * i + 1) 0 :: p.coeffs.drop (2 * i + 2)) := by
  have hsize := p.size
  rw [toBytes, drop_toBytesList, drop_eq_getD_cons (by omega) 0, drop_eq_getD_cons (by omega) 0]

/-- The coefficients of FromBytes from coefficient 2i on are those of the triple i and of the triples after it. -/
theorem drop_fromBytes {bs : List Byte} (h : bs.length = 384) {i : Nat} (hi : i < 128) :
    (fromBytes bs).coeffs.drop (2 * i) =
      fromBytesList (bs.getD (3 * i) 0 :: bs.getD (3 * i + 1) 0 :: bs.getD (3 * i + 2) 0 :: bs.drop (3 * i + 3)) := by
  rw [fromBytes, coeffs_polyOfList (length_fromBytesList 128 bs h), drop_fromBytesList, drop_eq_getD_cons (by omega) 0,
    drop_eq_getD_cons (by omega) 0, drop_eq_getD_cons (by omega) 0]

/-- Settles O49: `drop_toBytes` and the three bytes of a pair. -/
theorem toBytesFormulas : Obligations.ToBytesFormulas := by
  intro p i hi
  have hbyte (j : Nat) := (getD_add_eq_getD_drop (toBytes p) (3 * i) j 0).trans
    (congrArg (·.getD j 0) (drop_toBytes p hi))
  exact ⟨length_toBytes p, (congrArg BitVec.toNat (hbyte 0)).trans (toNat_pairByte0 _),
    (congrArg BitVec.toNat (hbyte 1)).trans (toNat_pairByte1 _ _),
    (congrArg BitVec.toNat (hbyte 2)).trans (toNat_pairByte2 _)⟩

/-- Settles O50: `drop_fromBytes` and the two values of a triple. -/
theorem fromBytesFormulas : Obligations.FromBytesFormulas := by
  intro bs h i hi
  have hcoeff (j : Nat) := (getD_add_eq_getD_drop (fromBytes bs).coeffs (2 * i) j 0).trans
    (congrArg (·.getD j 0) (drop_fromBytes h hi))
  exact ⟨(congrArg BitVec.toNat (hcoeff 0)).trans (toNat_tripleLow _ _),
    (congrArg BitVec.toNat (hcoeff 1)).trans (toNat_tripleHigh _ _)⟩

/-- A pair of 12-bit values comes back from its three bytes: the byte shared by both holds two nibbles. -/
theorem pair_of_bytes {c0 c1 b0 b1 b2 : Nat} (h0 : c0 < 4096) (h1 : c1 < 4096) (hb0 : b0 = c0 % 256)
    (hb1 : b1 = (c0 / 256 ||| c1 % 16 * 16) % 256) (hb2 : b2 = c1 / 16 % 256) :
    b0 + 256 * (b1 % 16) = c0 ∧ b1 / 16 + 16 * b2 = c1 := by
  have hlow : c0 / 256 < 2 ^ 4 := by omega
  have hnibbles : c0 / 256 ||| c1 % 16 * 16 = c0 / 256 + c1 % 16 * 16 := or_mul_two_pow_of_lt hlow _
  omega

/-- FromBytes after ToBytes, on a pair of coefficients that CondSubQ leaves below 2^12. -/
theorem fromBytes_toBytes_pair (p : Poly256) {i : Nat} (hi : i < 128)
    (h0 : (condSubQ (p.coeffs.getD (2 * i) 0)).toNat < 4096)
    (h1 : (condSubQ (p.coeffs.getD (2 * i + 1) 0)).toNat < 4096) :
    (fromBytes (toBytes p)).coeffs.getD (2 * i) 0 = condSubQ (p.coeffs.getD (2 * i) 0) ∧
      (fromBytes (toBytes p)).coeffs.getD (2 * i + 1) 0 = condSubQ (p.coeffs.getD (2 * i + 1) 0) := by
  obtain ⟨hlength, hb0, hb1, hb2⟩ := toBytesFormulas p i hi
  obtain ⟨heven, hodd⟩ := fromBytesFormulas (toBytes p) hlength i hi
  obtain ⟨hc0, hc1⟩ := pair_of_bytes h0 h1 hb0 hb1 hb2
  exact ⟨BitVec.eq_of_toNat_eq (heven.trans hc0), BitVec.eq_of_toNat_eq (hodd.trans hc1)⟩

/-- Settles O51: `fromBytes_toBytes_pair` at every pair; on [0, 2q) CondSubQ leaves values below q, so below 2^12. -/
theorem fromBytesOfToBytesIsCsubq : Obligations.FromBytesOfToBytesIsCsubq := by
  intro p hp
  have hfits : ∀ j < 256, (condSubQ (p.coeffs.getD j 0)).toNat < 4096 := by
    intro j hj
    obtain ⟨hnonneg, hlt⟩ := hp ⟨j, hj⟩
    rw [toInt_eq_toNat_of_nonneg hnonneg] at hlt
    rw [← lane_eq_getD p ⟨j, hj⟩, toNat_condSubQ_of_lt (by omega)]
    omega
  refine Poly256.ext_lane fun i => ?_
  have hi := i.isLt
  rw [lane_mapLanes, lane_eq_getD, lane_eq_getD p]
  obtain ⟨k, hk | hk⟩ := Nat.even_or_odd' i.val <;>
    obtain ⟨heven, hodd⟩ :=
      fromBytes_toBytes_pair p (i := k) (by omega) (hfits (2 * k) (by omega)) (hfits (2 * k + 1) (by omega))
  · rw [hk, heven]
  · rw [hk, hodd]

/-! ### Message bits (R205, R206) -/

/-- Bit i of a byte string, least significant bit of each byte first (R200, R205). -/
theorem bytesToNat_bit {bs : List Byte} {i : Nat} (hi : i < 8 * bs.length) :
    bytesToNat bs / 2 ^ i % 2 = (bs.getD (i / 8) 0).toNat / 2 ^ (i % 8) % 2 := by
  have hplace : 2 ^ i = 256 ^ (i / 8) * 2 ^ (i % 8) := by
    rw [show 256 = 2 ^ 8 from rfl, ← Nat.pow_mul, ← Nat.pow_add, Nat.div_add_mod]
  have hbyte : 256 = 2 ^ (i % 8) * (2 * 2 ^ (7 - i % 8)) := by
    rw [← Nat.pow_succ', ← Nat.pow_add, show i % 8 + (7 - i % 8).succ = 8 by omega]
  rw [List.getD_eq_getElem bs 0 (by omega), ← bytesToNat_div_mod bs (i / 8) (by omega), hplace, ← Nat.div_div_eq_div_mul]
  generalize bytesToNat bs / 256 ^ (i / 8) = w
  rw [hbyte, Nat.mod_mul_right_div_self, Nat.mod_mul_right_mod]

theorem forall_mem_map_compress_lt (d : Nat) (p : Poly256) : ∀ t ∈ p.coeffs.map (compress d), t < 2 ^ d := by
  simp [compress_lt]

/-- Value i of a compressed polynomial (R210). -/
theorem bytesToNat_compressPoly_div_mod (d : Nat) (p : Poly256) (i : Fin 256) :
    bytesToNat (compressPoly d p) / 2 ^ (d * i.val) % 2 ^ d = compress d (lane p i) := by
  have hsize : (p.coeffs.map (compress d)).length = 256 := by rw [List.length_map, p.size]
  rw [compressPoly, bytesToNat_pack_div_mod (forall_mem_map_compress_lt d p) (by rw [hsize]; omega) i.val (by omega),
    List.getElem_map, lane]

/-- Bit i of ToMsg(p) (R206). -/
theorem toMsg_bit (p : Poly256) (i : Fin 256) :
    ((toMsg p).getD (i.val / 8) 0).toNat / 2 ^ (i.val % 8) % 2 = compress 1 (lane p i) := by
  have hbit := bytesToNat_compressPoly_div_mod 1 p i
  rw [Nat.one_mul, Nat.pow_one] at hbit
  rw [← bytesToNat_bit (by rw [length_toMsg]; omega), toMsg, hbit]

theorem coeffs_fromMsg (bs : List Byte) :
    (fromMsg bs).coeffs = (unpack 1 bs 256).map fun t => BitVec.ofNat 16 (Config.messageOne * t) :=
  coeffs_polyOfList (by simp)

/-- Coefficient i of FromMsg(m) (R205). -/
theorem toNat_lane_fromMsg {m : List Byte} (h : m.length = 32) (i : Fin 256) :
    (lane (fromMsg m) i).toNat = 1665 * ((m.getD (i.val / 8) 0).toNat / 2 ^ (i.val % 8) % 2) := by
  rw [← bytesToNat_bit (by omega), lane_eq_getD, coeffs_fromMsg, List.getD_eq_getElem _ _ (by simp), List.getElem_map,
    getElem_unpack, Nat.one_mul, Nat.pow_one, BitVec.toNat_ofNat, Config.messageOne]
  omega

/-- Compress_1 reads back a message bit that FromMsg wrote. -/
theorem compress_one_messageBit {t : Nat} (h : t < 2) : compress 1 (BitVec.ofNat 16 (Config.messageOne * t)) = t := by
  interval_cases t <;> rfl

theorem toMsg_fromMsg {m : List Byte} (h : m.length = 32) : toMsg (fromMsg m) = m := by
  have hbits : (unpack 1 m 256).map (fun t => compress 1 (BitVec.ofNat 16 (Config.messageOne * t))) = unpack 1 m 256 :=
    (List.map_congr_left fun t ht => compress_one_messageBit (lt_of_mem_unpack ht)).trans (List.map_id' _)
  rw [toMsg, compressPoly, coeffs_fromMsg, List.map_map, Function.comp_def, hbits, pack_unpack (by omega)]

/-- Settles O53: `toMsg_bit`, `toNat_lane_fromMsg` and `toMsg_fromMsg`. -/
theorem messageBitsRoundTrip : Obligations.MessageBitsRoundTrip := by
  refine ⟨fun p => ⟨length_toMsg p, fun i => ?_⟩, fun m h => ⟨toNat_lane_fromMsg h, toMsg_fromMsg h⟩⟩
  rw [toMsg_bit, compress, u16, Nat.pow_one, Nat.mul_comm]

end Sys2Proof.Machine
end

section
/-! PROOFS. The codec's commands on one polynomial register (R207 to R215): what they store and what they load. -/

namespace Sys2Proof.Machine

/-- A store-type command on one register whose check passes: the bytes at `off`, and every other byte as before. -/
theorem storePoly_completes {enc : Poly256 → List Byte} {len : Nat} (hl : ∀ p, (enc p).length = len) {off : BufOffset}
    (a : PReg) (s : State) (hoff : off.toNat + len ≤ 4096) :
    ∃ t, storePoly len enc off a s = .next t ∧ t.memRead off.toNat len = enc (s.getP a) ∧
      onlyBytes off.toNat len s t := by
  refine ⟨s.memWrite off.toNat (enc (s.getP a)), ?_, ?_, fun x hx => ?_, fun _ => rfl, fun _ => rfl,
    sameControl_memWrite s _ _, rfl⟩
  · rw [storePoly, (checkBuffer_eq_none_iff off len).mpr hoff, finish_none]
  · rw [← hl (s.getP a)]
    exact Memory.readBytes_writeBytes s.buf off.toNat _
  · exact Memory.read_writeBytes_outside s.buf (by rwa [hl])

/-- Settles O54: `storePoly_completes` at the byte count of each format. -/
theorem polyStoresWriteTheirBytes : Obligations.PolyStoresWriteTheirBytes := fun _ a s =>
  ⟨⟨rfl, rfl⟩, storePoly_completes length_toBytes a s, ⟨rfl, rfl⟩, storePoly_completes (length_compressPoly 4) a s,
    ⟨rfl, rfl⟩, storePoly_completes (length_compressPoly 5) a s, ⟨rfl, rfl⟩, storePoly_completes length_toMsg a s⟩

/-- A load-type command on one register whose check passes: the whole register, and nothing else changed. -/
theorem loadPoly_completes {len : Nat} (dec : List Byte → Poly256) (d : PReg) {off : BufOffset} (s : State)
    (hoff : off.toNat + len ≤ 4096) :
    ∃ t, loadPoly len dec d off s = .next t ∧ t.getP d = dec (s.memRead off.toNat len) ∧ onlyPolys d 1 s t := by
  refine ⟨s.setP d (dec (s.memRead off.toNat len)), ?_, State.getP_setP_same s d _, onlyPolys_setP s d _⟩
  rw [loadPoly, (checkBuffer_eq_none_iff off len).mpr hoff, finish_none]

/-- A decompressing load on one register, lane by lane. -/
theorem loadPoly_decompress_completes {len : Nat} (c : Nat) (d : PReg) {off : BufOffset} (s : State)
    (hoff : off.toNat + len ≤ 4096) :
    ∃ t, loadPoly len (decompressPoly c) d off s = .next t ∧
      (∀ i : Fin 256, lane (t.getP d) i =
        decompress c (bytesToNat (s.memRead off.toNat len) / 2 ^ (c * i.val) % 2 ^ c)) ∧ onlyPolys d 1 s t := by
  obtain ⟨t, ht, hread, hframe⟩ := loadPoly_completes (decompressPoly c) d s hoff
  exact ⟨t, ht, fun i => by rw [hread, lane_decompressPoly], hframe⟩

/-- Settles O55: `loadPoly_completes` at the byte count of each format, the decompressed values lane by lane. -/
theorem polyLoadsWriteTheirRegister : Obligations.PolyLoadsWriteTheirRegister := fun d _ s =>
  ⟨⟨rfl, rfl⟩, loadPoly_completes fromBytes d s, ⟨rfl, rfl⟩, loadPoly_decompress_completes 4 d s,
    ⟨rfl, rfl⟩, loadPoly_decompress_completes 5 d s, ⟨rfl, rfl⟩, loadPoly_completes fromMsg d s⟩

end Sys2Proof.Machine
end

section
/-! PROOFS. The sampler: one call as a fold of its candidates, what the fold stores, and REJ as one call or as several. -/

namespace Sys2Proof.Machine

/-! ### The candidates of a byte string (R241) -/

/-- A byte string of whole triples gives the same candidates whatever bytes follow it. -/
theorem fromBytesList_append : ∀ (xs ys : List Byte), xs.length % 3 = 0 →
    fromBytesList (xs ++ ys) = fromBytesList xs ++ fromBytesList ys
  | [], _, _ => rfl
  | b0 :: b1 :: b2 :: xs, ys, h => by
    have ih := fromBytesList_append xs ys (by simp only [List.length_cons] at h; omega)
    simp only [List.cons_append, fromBytesList, ih]
  | [_], _, h | [_, _], _, h => by simp at h

/-- Tests the candidates of a list, one after another (R242). -/
def acceptCandidates (vs : List Coeff) (pc : Poly256 × Nat) : Poly256 × Nat :=
  vs.foldl (fun pc v => acceptCandidate v pc) pc

@[simp] theorem acceptCandidates_nil (pc : Poly256 × Nat) : acceptCandidates [] pc = pc := rfl

theorem acceptCandidates_cons (v : Coeff) (vs : List Coeff) (pc : Poly256 × Nat) :
    acceptCandidates (v :: vs) pc = acceptCandidates vs (acceptCandidate v pc) := rfl

theorem acceptCandidates_append (us vs : List Coeff) (pc : Poly256 × Nat) :
    acceptCandidates (us ++ vs) pc = acceptCandidates vs (acceptCandidates us pc) := List.foldl_append

theorem acceptCandidate_of_accepted {v : Coeff} (p : Poly256) {c : Nat} (hc : c < 256) (hv : v.toNat < 3329) :
    acceptCandidate v (p, c) = (setLane p c v, c + 1) := if_pos ⟨hc, hv⟩

theorem acceptCandidate_of_rejected {v : Coeff} {pc : Poly256 × Nat} (h : ¬ (pc.2 < 256 ∧ v.toNat < 3329)) :
    acceptCandidate v pc = pc := if_neg h

theorem acceptCandidates_full (vs : List Coeff) {pc : Poly256 × Nat} (h : 256 ≤ pc.2) : acceptCandidates vs pc = pc := by
  induction vs with
  | nil => rfl
  | cons v vs ih => rw [acceptCandidates_cons, acceptCandidate_of_rejected (by omega), ih]

/-- The sampler leaves off at a full polynomial, where no candidate changes anything, so it tests every candidate. -/
theorem rejUniform_eq_acceptCandidates : ∀ (bs : List Byte) (pc : Poly256 × Nat),
    rejUniform bs pc = acceptCandidates (fromBytesList bs) pc
  | b0 :: b1 :: b2 :: bs, pc => by
    by_cases h : pc.2 < 256
    · rw [rejUniform, if_pos h, rejUniform_eq_acceptCandidates bs]
      rfl
    · rw [rejUniform_full _ (by omega), acceptCandidates_full _ (by omega)]
  | [], _ | [_], _ | [_, _], _ => rfl

theorem rejUniform_append {xs : List Byte} (ys : List Byte) (pc : Poly256 × Nat) (h : xs.length % 3 = 0) :
    rejUniform (xs ++ ys) pc = rejUniform ys (rejUniform xs pc) := by
  simp only [rejUniform_eq_acceptCandidates, fromBytesList_append xs ys h, acceptCandidates_append]

/-! ### What the candidates leave (R242) -/

/-- The candidates that find a place: those below q, as many as there are places from position `c` on. -/
def storedCandidates (vs : List Coeff) (c : Nat) : List Coeff :=
  (vs.filter fun v => v.toNat < 3329).take (256 - c)

@[simp] theorem storedCandidates_nil (c : Nat) : storedCandidates [] c = [] := List.take_nil

theorem storedCandidates_cons_of_accepted {v : Coeff} (vs : List Coeff) {c : Nat} (hc : c < 256) (hv : v.toNat < 3329) :
    storedCandidates (v :: vs) c = v :: storedCandidates vs (c + 1) := by
  have hplaces : 256 - c = 256 - (c + 1) + 1 := by omega
  rw [storedCandidates, List.filter_cons_of_pos (by simpa using hv), hplaces, List.take_succ_cons, storedCandidates]

theorem storedCandidates_cons_of_rejected {v : Coeff} (vs : List Coeff) {c : Nat} (h : ¬ (c < 256 ∧ v.toNat < 3329)) :
    storedCandidates (v :: vs) c = storedCandidates vs c := by
  by_cases hv : v.toNat < 3329
  · have hplaces : 256 - c = 0 := by omega
    simp only [storedCandidates, hplaces, List.take_zero]
  · rw [storedCandidates, List.filter_cons_of_neg (by simpa using hv), storedCandidates]

theorem acceptCandidates_count (vs : List Coeff) (p : Poly256) (c : Nat) :
    (acceptCandidates vs (p, c)).2 = c + (storedCandidates vs c).length := by
  induction vs generalizing p c with
  | nil => simp
  | cons v vs ih =>
    rw [acceptCandidates_cons]
    by_cases h : c < 256 ∧ v.toNat < 3329
    · rw [acceptCandidate_of_accepted p h.1 h.2, ih, storedCandidates_cons_of_accepted vs h.1 h.2, List.length_cons]
      omega
    · rw [acceptCandidate_of_rejected h, ih, storedCandidates_cons_of_rejected vs h]

theorem lane_acceptCandidates (vs : List Coeff) (p : Poly256) (c : Nat) (i : Fin 256) :
    lane (acceptCandidates vs (p, c)).1 i =
      if c ≤ i.val ∧ i.val < c + (storedCandidates vs c).length then (storedCandidates vs c).getD (i.val - c) 0
      else lane p i := by
  induction vs generalizing p c with
  | nil => simp
  | cons v vs ih =>
    rw [acceptCandidates_cons]
    by_cases h : c < 256 ∧ v.toNat < 3329
    · rw [acceptCandidate_of_accepted p h.1 h.2, ih, storedCandidates_cons_of_accepted vs h.1 h.2, List.length_cons,
        lane_setLane]
      rcases Nat.lt_trichotomy i.val c with hbelow | hat | habove
      · rw [if_neg (by omega), if_neg (by omega), if_neg (by omega)]
      · rw [if_neg (by omega), if_pos hat, if_pos (by omega), hat, Nat.sub_self, List.getD_cons_zero]
      · have hsub : i.val - c = i.val - (c + 1) + 1 := by omega
        rw [hsub, List.getD_cons_succ, if_neg (by omega : ¬ i.val = c)]
        exact if_congr (by omega) rfl rfl
    · rw [acceptCandidate_of_rejected h, ih, storedCandidates_cons_of_rejected vs h]

/-! ### REJ (R243) -/

/-- REJ whose byte range fits: one call of the sampler on P[d] and CTR, and nothing else changed. -/
theorem execRej_completes (d : PReg) {off : BufOffset} {a : SReg} {s : State}
    (hoff : off.toNat + (s.getS a).toNat ≤ 4096) :
    ∃ t, exec (.rej d off a) s = .next t ∧
      (t.getP d, t.ctr.toNat) = rejUniform (s.memRead off.toNat (s.getS a).toNat) (s.getP d, s.ctr.toNat) ∧
      (∀ n, n ≠ d → t.getP n = s.getP n) ∧ sameScalars s t ∧ sameBytes s t ∧ sameControl s t := by
  refine ⟨s.setSampled d (rejResult d off a s), ?_, ?_, fun n hn => State.getP_setP_other s _ hn, fun _ => rfl,
    fun _ => rfl, sameControl_setSampled s d _⟩
  · exact (execRej_eq_finish d off a s).trans (by rw [rejLength, (checkBuffer_eq_none_iff off _).mpr hoff, finish_none])
  · rw [getP_setSampled, ctr_setSampled s d (rejResult_count_lt d off a s)]
    rfl

/-- Settles O58: REJ is one call of the sampler, its count and its lanes those of the candidates that find a place. -/
theorem rejStoresTheAcceptedCandidates : Obligations.RejStoresTheAcceptedCandidates := by
  intro d off a s hoff
  obtain ⟨t, ht, hsample, hframe⟩ := execRej_completes d hoff
  rw [rejUniform_eq_acceptCandidates, Prod.ext_iff] at hsample
  obtain ⟨hpoly, hctr⟩ := hsample
  exact ⟨rfl, rfl, t, ht, hctr.trans (acceptCandidates_count _ _ _),
    fun i => (congrArg (lane · i) hpoly).trans (lane_acceptCandidates _ _ _ i), hframe⟩

/-- Settles O59: each REJ is one call of the sampler, and `rejUniform_append` joins two calls. -/
theorem samplingResumesAcrossBuffers : Obligations.SamplingResumesAcrossBuffers := by
  refine ⟨fun _ ys pc h => rejUniform_append ys pc h, fun d off off' a a' s s' t hoff hoff' hlen ht hp hc => ?_⟩
  obtain ⟨u, hu, hfirst, -⟩ := execRej_completes d hoff
  obtain rfl : t = u := Host.Outcome.next.inj (ht.symm.trans hu)
  obtain ⟨t', ht', hsecond, -⟩ := execRej_completes d hoff'
  have hjoined : (t'.getP d, t'.ctr.toNat) = rejUniform
      (s.memRead off.toNat (s.getS a).toNat ++ s'.memRead off'.toNat (s'.getS a').toNat) (s.getP d, s.ctr.toNat) := by
    rw [rejUniform_append _ _ (by simpa [State.memRead] using hlen), ← hfirst, ← hp, ← hc, hsecond]
  refine ⟨t', ht', hjoined, fun off'' a'' s'' hoff'' hread hp'' hc'' => ?_⟩
  obtain ⟨t'', ht'', hwhole, -⟩ := execRej_completes d hoff''
  rw [hread, hp'', hc'', ← hjoined, Prod.mk.injEq] at hwhole
  obtain ⟨hpoly, hctr⟩ := hwhole
  exact ⟨t'', ht'', hpoly, BitVec.eq_of_toNat_eq hctr⟩

end Sys2Proof.Machine
end

section
/-! PROOFS. Errors (60_exceptions.md): `raise Error(code)` changes STATUS only, and every step answers a next state. -/

namespace Sys2Proof.Machine

/-! ### raise Error(code) (R261, R263) -/

theorem raiseError_of_halted {s : State} (c : ErrorCode) (h : s.err = true) : raiseError c s = s := by
  rw [raiseError, if_pos h]

theorem ErrorCode.code_cases (c : ErrorCode) :
    c = .illegalCommand ∧ c.code = 1 ∨ c = .badK ∧ c.code = 2 ∨ c = .registerRange ∧ c.code = 3 ∨
      c = .bufferRange ∧ c.code = 4 := by
  cases c <;> decide

/-! ### Every access is answered (R263, R264, R271, R272) -/

/-- Dropped, illegal or executed: a command word leaves a next state, with the host's side as before. -/
theorem runCommand_next (w : Word) (s : State) :
    ∃ t, runCommand w s = .next t ∧ t.pending = s.pending ∧ t.responses = s.responses := by
  cases he : s.err with
  | true => exact ⟨s, runCommand_of_halted w he, rfl, rfl⟩
  | false =>
    cases hd : decode w with
    | error e => exact ⟨_, runCommand_of_illegal he fun i => by simp [hd], rfl, rfl⟩
    | ok i =>
      obtain ⟨t, ht⟩ := exec_next i s
      obtain ⟨-, hpending, hresponses, -⟩ := noCommandWritesParamAndOnlyRejWritesCtr i s t ht
      exact ⟨t, (runCommand_of_decode he hd).trans ht, hpending, hresponses⟩

/-- A bus write runs a command, stores, or is refused; each leaves a next state. -/
theorem busWrite_next (w : BusWidth) (addr : BusAddr) (v : Word) (s : State) : ∃ t, busWrite w addr v s = .next t := by
  rw [busWrite]
  split
  · obtain ⟨t, ht, -⟩ := runCommand_next v (answer .writeDone s)
    exact ⟨t, ht⟩
  · exact ⟨_, rfl⟩
  · exact ⟨_, rfl⟩

theorem perform_next (e : HostEvent) (s : State) : ∃ t, perform e s = .next t := by
  cases e with
  | read w addr => exact ⟨_, rfl⟩
  | write w addr v => exact busWrite_next w addr v s
  | hardReset p b => exact ⟨_, rfl⟩

/-- Settles O19: a step waits or performs one event, and every event leaves a next state. -/
theorem everyStepAnswersANextState : Obligations.EveryStepAnswersANextState := by
  intro s
  obtain ⟨-, hidle⟩ := haltedBlockDropsCommandsAndIdleBlockWaits
  cases hp : s.pending with
  | nil => exact ⟨s, hidle s hp⟩
  | cons e rest =>
    rw [step_of_pending hp]
    exact perform_next e _

/-- Settles O20: the two branches of `raiseError`, the codes one by one, and `runCommand_next` after the answer to the
write. -/
theorem raiseErrorChangesOnlyStatus : Obligations.RaiseErrorChangesOnlyStatus := by
  refine ⟨fun c s => ⟨raiseError_of_running c, raiseError_of_halted c⟩, ErrorCode.code_cases, fun s rest w h => ?_⟩
  obtain ⟨t, ht, hpending, hresponses⟩ :=
    runCommand_next w { s with pending := rest, responses := .writeDone :: s.responses }
  exact ⟨t, (step_commandWrite h).trans ht, hresponses, hpending⟩

end Sys2Proof.Machine
end

section
/-! PROOFS. Reset (70_reset_and_hazards.md): the soft reset over the bus. -/

namespace Sys2Proof.Machine

/-- A write to CTRL with SRST (bit 0) = 1 completes and resets, whatever ERR is (R28, R264). -/
theorem step_write_srst {s : State} {rest : List HostEvent} {v : Word}
    (h : s.pending = .write .word 0x10 v :: rest) (hv : v.getLsbD 0 = true) :
    step s = .next (softReset { s with pending := rest, responses := .writeDone :: s.responses }) := by
  rw [step_write h (l := .ctrl) rfl (by simp), busStore, if_pos hv]

/-- Settles O15: the step is `softReset` after the answer to the write, and `softReset` writes neither P nor BUF. -/
theorem softResetClearsAllButPAndBuf : Obligations.SoftResetClearsAllButPAndBuf := by
  intro s rest v h hv
  have hsrst : v.getLsbD 0 = true := by simp [BitVec.getLsbD, Nat.testBit_zero, hv]
  exact ⟨_, step_write_srst h hsrst, State.scalar_of_zero (softReset_sRegs _), softReset_err _, softReset_code _,
    softReset_k _, softReset_ctr _, State.getP_congr (softReset_pRegs _), fun _ => rfl, softReset_pending _,
    softReset_responses _⟩

end Sys2Proof.Machine
end
